-- ==== Sys2Proof/Word.lean ====
section
/-! DEFINITION. The word types of WSFD: a byte of the streams and buffers, and the 64-bit payload length
(00_scope.md R5 "payload length width: 64 bits unsigned"; R9: no signed quantity exists). -/

namespace Sys2Proof

/-- One byte; bit 7 is the most significant (00_scope.md R6). -/
abbrev Byte := BitVec 8

/-- A payload length or payload counter, 64 bits unsigned (00_scope.md R5; 10_state.md R28). -/
abbrev Length := BitVec 64

end Sys2Proof
end

