-- ==== Sys2Proof/Config.lean ====
section
/-! DEFINITION. What an instance of WSFD fixes (00_scope.md R5): the parameters, which the model carries in
State so that every statement holds for each of their values; the configuration inputs; and the one
open value of the spec that is not data of State, the reason texts. -/

namespace Sys2Proof

/-- The parameters of 00_scope.md R5 that are constants of one instance (70_reset_and_hazards.md R252 step 1).
State holds them; no operation writes them. -/
structure Params where
  /-- `MAX_MESSAGE_BYTES`, the value of CR1 (10_state.md R23): `none` is `INF`. -/
  maxMessageBytes : Option Nat
  /-- `TOO_BIG_CODE`, the status code of cause 9 (60_exceptions.md R220). -/
  tooBigCode : BitVec 16
  /-- `EVT_DEPTH`, how many undrained records the event port holds (20_memory.md R68): `none` is unbounded. -/
  evtDepth : Option Nat
  deriving DecidableEq, Repr

/-- The levels of the configuration inputs (10_state.md R21; 70_reset_and_hazards.md R250). -/
structure ConfigInputs where
  /-- Input `REQUIRE_MASKING`, which the host must drive. -/
  requireMasking : Bool
  /-- Input `STRICT_LEN`: `none` when the host does not drive it. -/
  strictLen : Option Bool
  /-- Input `TX_MASKING`, which the host must drive. -/
  txMasking : Bool
  deriving DecidableEq, Repr

namespace Config

/-- `REASON_TEXT(cause)` for the causes whose text the spec leaves OPEN (00_scope.md R5; 92_eei_decisions.md D12):
a free value, nothing constrains it (log entry 7). The argument is the cause number. -/
opaque reasonText : Nat → List Byte

/-- The parameters of the state after reset. DESIGN CHOICE (log entry 6), unsafe: `MAX_MESSAGE_BYTES` and `EVT_DEPTH` are OPEN
in the spec, the model takes INF and unbounded; 1009 is the spec's own default for `TOO_BIG_CODE`. -/
def resetParams : Params := { maxMessageBytes := none, tooBigCode := 1009#16, evtDepth := none }

/-- The configuration inputs of the state after reset. DESIGN CHOICE (log entry 5), unsafe: the spec gives
`REQUIRE_MASKING` and `TX_MASKING` no default, the model has both at 0; `STRICT_LEN` is not driven. -/
def resetInputs : ConfigInputs := { requireMasking := false, strictLen := none, txMasking := false }

end Config
end Sys2Proof
end

