-- ==== Sys2Proof/Syntax.lean ====
section
/-! DEFINITION. The instructions of WSFD: "The instruction WSFD decodes is a WebSocket frame" (30_encoding.md). One
constructor per row of spec/opcode_table.json; the operands of each are the frame's other fields (R70 to R77). -/

namespace Sys2Proof

/-- A masking key: four bytes in wire order, not an integer (30_encoding.md R76; 20_memory.md R53). -/
structure Key where
  k0 : Byte
  k1 : Byte
  k2 : Byte
  k3 : Byte
  deriving DecidableEq, Repr

/-- The length field in one of its three encodings (30_encoding.md R72, R73): the 7-bit value itself, the marker 126
with a 16-bit length, the marker 127 with a 64-bit length. Minimality is not part of the form (R75). -/
inductive LenField where
  | direct (n : BitVec 7)
  | ext16 (n : BitVec 16)
  | ext64 (n : BitVec 64)
  deriving DecidableEq, Repr

/-- The fields of a frame other than its opcode (30_encoding.md R70 to R72). -/
structure Frame where
  fin : Bool
  rsv1 : Bool
  rsv2 : Bool
  rsv3 : Bool
  len : LenField
  /-- The masking key; `some` exactly when the `MASK` bit is 1 (R72, R76). -/
  key : Option Key
  /-- The payload bytes as they stand on the wire: masked when a key is present (R77). -/
  payload : List Byte
  deriving DecidableEq, Repr

/-- The sixteen rows of spec/opcode_table.json (30_encoding.md R78). -/
inductive Instr where
  | cont (f : Frame)
  | text (f : Frame)
  | binary (f : Frame)
  | op3 (f : Frame)
  | op4 (f : Frame)
  | op5 (f : Frame)
  | op6 (f : Frame)
  | op7 (f : Frame)
  | close (f : Frame)
  | ping (f : Frame)
  | pong (f : Frame)
  | op11 (f : Frame)
  | op12 (f : Frame)
  | op13 (f : Frame)
  | op14 (f : Frame)
  | op15 (f : Frame)
  deriving DecidableEq, Repr

/-- The frame fields an instruction carries. -/
def Instr.frame : Instr → Frame
  | .cont f | .text f | .binary f | .op3 f | .op4 f | .op5 f | .op6 f | .op7 f
  | .close f | .ping f | .pong f | .op11 f | .op12 f | .op13 f | .op14 f | .op15 f => f

end Sys2Proof
end

