-- ==== Sys2Proof/WellFormed.lean ====
section
/-! DEFINITION. Which instruction terms are frames: the two checks that a term of Syntax.lean can fail. -/

namespace Sys2Proof

/-- The number of payload bytes a length field announces (30_encoding.md R74, R77). -/
def LenField.count : LenField → Nat
  | .direct n => n.toNat
  | .ext16 n => n.toNat
  | .ext64 n => n.toNat

/-- A direct length is 0..125: 126 and 127 are the markers of the extended forms (30_encoding.md R72). -/
def LenField.wf : LenField → Bool
  | .direct n => n.toNat ≤ 125
  | .ext16 _ => true
  | .ext64 _ => true

/-- A frame has a legal length field and exactly as many payload bytes as it announces (30_encoding.md R70 item 5). -/
def Frame.wf (f : Frame) : Bool := f.len.wf && f.payload.length == f.len.count

/-- A well-formed instruction: every opcode value is a row of the table, so only the frame is checked. -/
def Instr.wf (i : Instr) : Bool := i.frame.wf

end Sys2Proof
end

