-- ==== Sys2Proof/Decode.lean ====
section
/-! DEFINITION. The frame encoding of 30_encoding.md: the decoder, total on any byte string and rejecting by name, and
after it the encoder, both written from the field tables R71 to R77. -/

namespace Sys2Proof

/-- Why a byte string does not begin with a whole frame (42_header_decoder.md R115 "needs more data"): the field whose
bytes ran out. No complete byte string is rejected: all sixteen opcode values are rows of the table (R78). -/
inductive Incomplete where
  | byte0
  | byte1
  | extendedLength
  | maskingKey
  | payload
  deriving DecidableEq, Repr

/-! ## The opcode map -/

/-- A row of spec/opcode_table.json over the 16-bit value of bytes 0 and 1 (format `H16`, R78). -/
structure TableRow where
  mask : BitVec 16
  pattern : BitVec 16
  build : Frame → Instr

/-- The rows of spec/opcode_table.json: mask `0x0F00`, match `value << 8` (R78). -/
def tableRows : List TableRow :=
  [⟨0x0F00, 0x0000, .cont⟩, ⟨0x0F00, 0x0100, .text⟩, ⟨0x0F00, 0x0200, .binary⟩, ⟨0x0F00, 0x0300, .op3⟩,
    ⟨0x0F00, 0x0400, .op4⟩, ⟨0x0F00, 0x0500, .op5⟩, ⟨0x0F00, 0x0600, .op6⟩, ⟨0x0F00, 0x0700, .op7⟩] ++
  [⟨0x0F00, 0x0800, .close⟩, ⟨0x0F00, 0x0900, .ping⟩, ⟨0x0F00, 0x0A00, .pong⟩, ⟨0x0F00, 0x0B00, .op11⟩,
    ⟨0x0F00, 0x0C00, .op12⟩, ⟨0x0F00, 0x0D00, .op13⟩, ⟨0x0F00, 0x0E00, .op14⟩, ⟨0x0F00, 0x0F00, .op15⟩]

/-- The opcode value of an instruction (30_encoding.md R78). -/
def Instr.opcode : Instr → BitVec 4
  | .cont _ => 0
  | .text _ => 1
  | .binary _ => 2
  | .op3 _ => 3
  | .op4 _ => 4
  | .op5 _ => 5
  | .op6 _ => 6
  | .op7 _ => 7
  | .close _ => 8
  | .ping _ => 9
  | .pong _ => 10
  | .op11 _ => 11
  | .op12 _ => 12
  | .op13 _ => 13
  | .op14 _ => 14
  | .op15 _ => 15

/-- The row a 4-bit opcode selects (30_encoding.md R78); the four bits leave no value over. -/
def instrOf (op : BitVec 4) (f : Frame) : Instr :=
  match op.getLsbD 3, op.getLsbD 2, op.getLsbD 1, op.getLsbD 0 with
  | false, false, false, false => .cont f
  | false, false, false, true => .text f
  | false, false, true, false => .binary f
  | false, false, true, true => .op3 f
  | false, true, false, false => .op4 f
  | false, true, false, true => .op5 f
  | false, true, true, false => .op6 f
  | false, true, true, true => .op7 f
  | true, false, false, false => .close f
  | true, false, false, true => .ping f
  | true, false, true, false => .pong f
  | true, false, true, true => .op11 f
  | true, true, false, false => .op12 f
  | true, true, false, true => .op13 f
  | true, true, true, false => .op14 f
  | true, true, true, true => .op15 f

/-! ## Bit fields of the two fixed header bytes -/

/-- `FIN`, byte 0 bit 7 (30_encoding.md R71). -/
def finOf (b : Byte) : Bool := b.getLsbD 7
/-- `RSV1`, byte 0 bit 6. -/
def rsv1Of (b : Byte) : Bool := b.getLsbD 6
/-- `RSV2`, byte 0 bit 5. -/
def rsv2Of (b : Byte) : Bool := b.getLsbD 5
/-- `RSV3`, byte 0 bit 4. -/
def rsv3Of (b : Byte) : Bool := b.getLsbD 4
/-- `OPCODE`, byte 0 bits 3:0. -/
def opcodeOf (b : Byte) : BitVec 4 := b.extractLsb' 0 4
/-- `MASK`, byte 1 bit 7 (30_encoding.md R72). -/
def maskOf (b : Byte) : Bool := b.getLsbD 7
/-- `LEN7`, byte 1 bits 6:0. -/
def len7Of (b : Byte) : BitVec 7 := b.extractLsb' 0 7

/-! ## Big-endian fields (00_scope.md R8) -/

/-- `BE_2(a, b)`: the first byte is the most significant. -/
def be2 (a b : Byte) : BitVec 16 := a ++ b

/-- `BE_8(a .. h)`. -/
def be8 (a b c d e f g h : Byte) : BitVec 64 := a ++ b ++ c ++ d ++ e ++ f ++ g ++ h

/-! ## The decoder -/

/-- The length field that byte 1 announces, and the bytes after it (30_encoding.md R73, R74). -/
def takeLen (len7 : BitVec 7) (bs : List Byte) : Option (LenField × List Byte) :=
  if len7 = 126#7 then
    match bs with
    | a :: b :: rest => some (.ext16 (be2 a b), rest)
    | _ => none
  else if len7 = 127#7 then
    match bs with
    | a :: b :: c :: d :: e :: f :: g :: h :: rest => some (.ext64 (be8 a b c d e f g h), rest)
    | _ => none
  else some (.direct len7, bs)

/-- The masking key, present when the `MASK` bit is 1, and the bytes after it (30_encoding.md R76). -/
def takeKey (mask : Bool) (bs : List Byte) : Option (Option Key × List Byte) :=
  if mask then
    match bs with
    | a :: b :: c :: d :: rest => some (some ⟨a, b, c, d⟩, rest)
    | _ => none
  else some (none, bs)

/-- Exactly `n` payload bytes and the bytes of the next frame (30_encoding.md R70). -/
def takePayload (n : Nat) (bs : List Byte) : Option (List Byte × List Byte) :=
  if n ≤ bs.length then some (bs.take n, bs.drop n) else none

/-- The frame at the front of a byte string and the bytes after it, or the field that is incomplete
(30_encoding.md R70 to R74, R77, R78; 42_header_decoder.md R115). -/
def decode (bs : List Byte) : Except Incomplete (Instr × List Byte) :=
  match bs with
  | [] => .error .byte0
  | [_] => .error .byte1
  | b0 :: b1 :: afterFixed =>
    match takeLen (len7Of b1) afterFixed with
    | none => .error .extendedLength
    | some (len, afterLen) =>
      match takeKey (maskOf b1) afterLen with
      | none => .error .maskingKey
      | some (key, afterKey) =>
        match takePayload len.count afterKey with
        | none => .error .payload
        | some (payload, rest) =>
          .ok (instrOf (opcodeOf b0)
            { fin := finOf b0, rsv1 := rsv1Of b0, rsv2 := rsv2Of b0, rsv3 := rsv3Of b0
              len := len, key := key, payload := payload }, rest)

/-! ## The encoder -/

/-- Byte 0 = `fin<<7 | rsv1<<6 | rsv2<<5 | rsv3<<4 | opcode` (30_encoding.md R71). -/
def byte0 (fin rsv1 rsv2 rsv3 : Bool) (op : BitVec 4) : Byte :=
  BitVec.ofBool fin ++ BitVec.ofBool rsv1 ++ BitVec.ofBool rsv2 ++ BitVec.ofBool rsv3 ++ op

/-- Byte 1 = `maskBit<<7 | lengthField` (30_encoding.md R72). -/
def byte1 (mask : Bool) (len7 : BitVec 7) : Byte := BitVec.ofBool mask ++ len7

/-- The two bytes of a 16-bit big-endian field, most significant first (00_scope.md R8). -/
def bytes2 (n : BitVec 16) : List Byte := [n.extractLsb' 8 8, n.extractLsb' 0 8]

/-- The eight bytes of a 64-bit big-endian field, most significant first (00_scope.md R8). -/
def bytes8 (n : BitVec 64) : List Byte :=
  [n.extractLsb' 56 8, n.extractLsb' 48 8, n.extractLsb' 40 8, n.extractLsb' 32 8,
    n.extractLsb' 24 8, n.extractLsb' 16 8, n.extractLsb' 8 8, n.extractLsb' 0 8]

/-- The value of `LEN7` for a length field: the length itself, 126 or 127 (30_encoding.md R72). -/
def LenField.len7 : LenField → BitVec 7
  | .direct n => n
  | .ext16 _ => 126
  | .ext64 _ => 127

/-- The extended length bytes of a length field (30_encoding.md R73). -/
def LenField.bytes : LenField → List Byte
  | .direct _ => []
  | .ext16 n => bytes2 n
  | .ext64 n => bytes8 n

/-- The four key bytes in wire order (30_encoding.md R76). -/
def Key.bytes (k : Key) : List Byte := [k.k0, k.k1, k.k2, k.k3]

/-- The bytes of an optional key: none when the `MASK` bit is 0. -/
def keyBytes : Option Key → List Byte
  | none => []
  | some k => k.bytes

/-- The header of a frame: byte 0, byte 1, the extended length, the key (30_encoding.md R70 items 1 to 4). -/
def header (op : BitVec 4) (f : Frame) : List Byte :=
  byte0 f.fin f.rsv1 f.rsv2 f.rsv3 op :: byte1 f.key.isSome f.len.len7 :: (f.len.bytes ++ keyBytes f.key)

/-- The bytes of an instruction in wire order (30_encoding.md R70). -/
def encode (i : Instr) : List Byte := header i.opcode i.frame ++ i.frame.payload

/-- Header length `2 + ext(LEN7) + 4*MASK` (30_encoding.md R84). -/
def headerLength (f : Frame) : Nat :=
  2 + (match f.len with
       | .direct _ => 0
       | .ext16 _ => 2
       | .ext64 _ => 8) + (if f.key.isSome then 4 else 0)

/-! ## The opcode table's numbering -/

/-- The 16-bit words of an instruction whose bits are `w`, each laid out as WSFD stores it: format `H16` is
`{byte0, byte1}`, so a word's high byte comes first (30_encoding.md R78; log entry 15). -/
def wordBytes (w k : Nat) : List Byte :=
  [BitVec.ofNat 8 (w >>> (16 * k + 8)), BitVec.ofNat 8 (w >>> (16 * k))]

/-- How many operand bytes follow bytes 0 and 1 of a frame whose operand bytes are all zero: the extended length, the
key, and the payload of a direct length (30_encoding.md R73; an extended length of zeros announces no payload). -/
def zeroOperands (b1 : Byte) : Nat :=
  (if len7Of b1 = 126#7 then 2 else if len7Of b1 = 127#7 then 8 else (len7Of b1).toNat) +
    (if maskOf b1 then 4 else 0)

/-- The bytes of a table word of `nbits` bits, followed by the zero bytes of its operand fields (log entry 15). -/
def tableBytes (nbits w : Nat) : List Byte :=
  (List.range (max 1 ((nbits + 15) / 16))).flatMap (wordBytes (w % 2 ^ nbits)) ++
    List.replicate (zeroOperands (BitVec.ofNat 8 (w % 2 ^ nbits))) 0

/-- The instruction the decoder reads from a word of the opcode table. -/
def decodeTableWord (nbits w : Nat) : Option Instr :=
  match decode (tableBytes nbits w) with
  | .ok (i, _) => some i
  | .error _ => none

end Sys2Proof
end

