-- ==== Sys2Proof/Machine/State.lean ====
section
/-! DEFINITION. The state of WSFD as plain data: everything 10_state.md gives the machine (R20 to R34), the parameters of
00_scope.md R5, and the host's side of the ports (the model's own fields, log entries 2 and 3). -/

namespace Sys2Proof.Machine

/-- A byte buffer as address and byte pairs, addresses strictly rising. An address that is not listed has NO value:
the spec leaves the contents after reset unspecified and no rule reads them (10_state.md R30, R31; log entry 8). -/
abbrev Mem := List Host.Cell

/-- The decoder phase (10_state.md R24). The values 5 to 7 are never taken, and State cannot hold them: DESIGN CHOICE (log
entry 16). -/
inductive Phase where
  | hdr0
  | hdr1
  | extLen
  | maskKey
  | payload
  deriving DecidableEq, Repr

/-- The protocol-error causes 1 to 9 (60_exceptions.md R220). -/
inductive Cause where
  | reservedOpcode
  | fragmentedControl
  | controlTooLong
  | maskMismatch
  | unexpectedContinuation
  | dataWhileOpen
  | nonMinimalLength
  | invalidClose
  | messageTooBig
  deriving DecidableEq, Repr

/-- The event records of the event port (44_parser.md R190). -/
inductive Event where
  | message (opcode : BitVec 4) (rsv1 rsv2 rsv3 : Bool) (payload : List Byte)
  | close (code : BitVec 16) (reason : List Byte)
  | ping (payload : List Byte)
  | pong (payload : List Byte)
  | error (code : BitVec 16) (cause : BitVec 4) (reason : List Byte)
  deriving DecidableEq, Repr

/-- The descriptor of a `FRAME` request (45_encoder.md R200). -/
structure Descriptor where
  fin : Bool
  rsv1 : Bool
  rsv2 : Bool
  rsv3 : Bool
  opcode : BitVec 4
  payloadLength : Nat
  maskingKey : Option Key
  payload : List Byte
  deriving DecidableEq, Repr

/-- The caller-contract violations of the encoder (45_encoder.md R205). -/
inductive Violation where
  | lengthMismatch
  | lengthRange
  | noKey
  deriving DecidableEq, Repr

/-- The host transactions (30_encoding.md R88), and `driveInputs`: the host changes the levels of the configuration
inputs (10_state.md R21; 70_reset_and_hazards.md R252, R255). -/
inductive HostOp where
  | push (b : Byte)
  | parse (chunk : List Byte)
  | drain
  | readStatus (n : Nat)
  | frame (d : Descriptor)
  | reset
  | driveInputs (c : ConfigInputs)
  deriving DecidableEq, Repr

/-- The value of a status register: CR0 and CR2 are 32-bit words, CR1 is a natural number or `INF` (10_state.md R22, R23,
R35; log entry 14). -/
inductive StatusValue where
  | word (v : BitVec 32)
  | limit (n : Option Nat)
  deriving DecidableEq, Repr

/-- An answer to a host transaction: the drained record (44_parser.md R191), a status value or the refusal of a register
that does not exist (10_state.md R35), the encoder's bytes or its contract violation (45_encoder.md R200). -/
inductive Response where
  | drained (e : Event)
  | status (n : Nat) (v : StatusValue)
  | statusRefused (n : Nat)
  | bytes (w : List Byte)
  | violation (v : Violation)
  deriving DecidableEq, Repr

/-- Whose turn a step is (log entry 3): the host's next transaction, one input byte, or a whole frame when one is
waiting at the input port (70_reset_and_hazards.md R260: several bytes at once, with the byte-serial result). -/
inductive Turn where
  | host
  | byte
  | frame
  deriving DecidableEq, Repr

/-- The situations in which the model stops. The spec's own errors are NOT here: a protocol error takes the error entry
R230 and the machine goes on. Each of these is a situation that the rules say never arises, and stopping there is
safe (log entries 8 and 9). -/
inductive Fault where
  /-- Raised by message or control-frame completion when it reads a buffer byte that was never written
  (10_state.md R30, R31: "never read"). Safe. -/
  | unwrittenByte
  /-- Raised by MSG_APPEND at an address `>= MAX_MESSAGE_BYTES` (20_memory.md R59: "never written"). Safe. -/
  | msgBufAddress
  /-- Raised by the payload step at a CTRL_BUF address above 124 (20_memory.md R59: "never written"). Safe. -/
  | ctrlBufAddress
  /-- Raised by the MASKKEY step when KEY_CNT is past KEY[3] (10_state.md R27: four key registers). Safe. -/
  | keyRegister
  /-- Raised by FRAME_COMPLETE of a reserved opcode, for which R172 has no case (44_parser.md R171: "a reserved opcode
  never reaches this step"). Safe. -/
  | reservedFrameComplete
  /-- Raised by CLOSE at frame complete with PLEN = 1 (44_parser.md R180: "PLEN >= 2 here, by check 8"). Safe. -/
  | oneByteClose
  deriving DecidableEq, Repr

/-- The reasons for which the model gives an instruction no meaning. -/
inductive Refusal where
  /-- Raised by exec's arm of an instruction that has no meaning yet. Safe. -/
  | notModelled (mnemonic : String)
  deriving DecidableEq, Repr

/-- The state of one WSFD instance (10_state.md R20) and of the host's side of its ports. -/
structure State where
  /-- The instance's parameters, CR1 among them (00_scope.md R5; 10_state.md R23). -/
  params : Params
  /-- `CR0.REQUIRE_MASKING` (10_state.md R22). -/
  requireMasking : Bool
  /-- `CR0.STRICT_LEN` (10_state.md R22). -/
  strictLen : Bool
  /-- `CR0.TX_MASKING` (10_state.md R22, R42). -/
  txMasking : Bool
  /-- `PHASE` (10_state.md R24). -/
  phase : Phase
  /-- `H_FIN`, `H_RSV1` to `H_RSV3`, `H_OPCODE`, `H_MASK`, `H_LEN7` (10_state.md R25). -/
  hFin : Bool
  hRsv1 : Bool
  hRsv2 : Bool
  hRsv3 : Bool
  hOpcode : BitVec 4
  hMask : Bool
  hLen7 : BitVec 7
  /-- `EXT`, `EXT_NEED`, `EXT_CNT` (10_state.md R26). -/
  ext : Length
  extNeed : BitVec 4
  extCnt : BitVec 4
  /-- `KEY[0]` to `KEY[3]` and `KEY_CNT` (10_state.md R27). -/
  key : Key
  keyCnt : BitVec 3
  /-- `PLEN`, `PCNT` (10_state.md R28). -/
  plen : Length
  pcnt : Length
  /-- `MSG_OPEN`, `MSG_OPCODE`, `MSG_RSV1` to `MSG_RSV3` (10_state.md R29). -/
  msgOpen : Bool
  msgOpcode : BitVec 4
  msgRsv1 : Bool
  msgRsv2 : Bool
  msgRsv3 : Bool
  /-- `MSG_BUF` and `MSG_LEN` (10_state.md R30). -/
  msgBuf : Mem
  msgLen : Nat
  /-- `CTRL_BUF` (10_state.md R31). -/
  ctrlBuf : Mem
  /-- `HALTED` (10_state.md R32). -/
  halted : Bool
  /-- `ERR_CODE`, `ERR_CAUSE` (10_state.md R33). -/
  errCode : BitVec 16
  errCause : BitVec 4
  /-- `EVT`: the records produced and not yet drained, oldest first (10_state.md R34). -/
  evt : List Event
  /-- Host side (log entry 2): the bytes presented at the input port and not yet consumed, oldest first. -/
  inp : List Byte
  /-- Host side: the transactions issued and not yet served, oldest first. -/
  host : List HostOp
  /-- Host side: the answers given so far, oldest first. -/
  resp : List Response
  /-- Host side: the levels of the configuration inputs. -/
  pins : ConfigInputs
  /-- The turns to come (log entry 3); when it is empty a waiting frame is taken whole. -/
  sched : List Turn
  deriving DecidableEq, Repr

/-- The machine right after reset: the values of 10_state.md R41. The configuration comes from the inputs
(log entry 5), the parameters from log entry 6, the host's side is empty (log entries 2 and 3). -/
def State.reset : State where
  params := Config.resetParams
  requireMasking := Config.resetInputs.requireMasking
  strictLen := Config.resetInputs.strictLen.getD true
  txMasking := Config.resetInputs.txMasking
  phase := .hdr0
  hFin := false
  hRsv1 := false
  hRsv2 := false
  hRsv3 := false
  hOpcode := 0
  hMask := false
  hLen7 := 0
  ext := 0
  extNeed := 0
  extCnt := 0
  key := ⟨0, 0, 0, 0⟩
  keyCnt := 0
  plen := 0
  pcnt := 0
  msgOpen := false
  msgOpcode := 0
  msgRsv1 := false
  msgRsv2 := false
  msgRsv3 := false
  msgBuf := []
  msgLen := 0
  ctrlBuf := []
  halted := false
  errCode := 0
  errCause := 0
  evt := []
  inp := []
  host := []
  resp := []
  pins := Config.resetInputs
  sched := []

/-- The three outcomes of a step of this machine. -/
abbrev Result := Host.Outcome State Fault Refusal

end Sys2Proof.Machine
end

