-- ==== Sys2Proof/Machine/Ops.lean ====
section
/-! DEFINITION. The named operations every meaning is built from: sequencing of outcomes, the byte buffers (00_scope.md R10
`BufRead`, `BufWrite`), the event port, the error entry R230 and reset R250. -/

namespace Sys2Proof

/-! ## Key registers -/

/-- `KEY[i mod 4]` (41_mask_engine.md R100). -/
def Key.at (k : Key) (i : Nat) : Byte :=
  match i % 4 with
  | 0 => k.k0
  | 1 => k.k1
  | 2 => k.k2
  | _ => k.k3

/-- The key with register `KEY[i]` replaced; none where there is no register `KEY[i]` (10_state.md R27). -/
def Key.put (k : Key) (i : Nat) (b : Byte) : Option Key :=
  match i with
  | 0 => some { k with k0 := b }
  | 1 => some { k with k1 := b }
  | 2 => some { k with k2 := b }
  | 3 => some { k with k3 := b }
  | _ => none

namespace Machine

/-- Go on with `k` from a next state; a fault or a refusal ends the step. -/
def andThen (r : Result) (k : State → Result) : Result :=
  match r with
  | .next s => k s
  | .fault e => .fault e
  | .refused e => .refused e

/-! ## Byte buffers -/

/-- The canonical form of a buffer: addresses strictly rising. An unlisted address has no value, so no entry can equal
what an unlisted address reads as. -/
def Mem.wf : Mem → Bool
  | [] => true
  | [_] => true
  | (a, _) :: (b, y) :: rest => decide (a < b) && Mem.wf ((b, y) :: rest)

/-- The byte at an address, or none where no byte was written (10_state.md R30, R31; log entry 8). -/
def Mem.read : Mem → Nat → Option Byte
  | [], _ => none
  | (x, b) :: rest, a => if x = a then some b else Mem.read rest a

/-- `BufWrite(buf, a, v)` (00_scope.md R10). -/
def Mem.write : Mem → Nat → Byte → Mem
  | [], a, v => [(a, v)]
  | (x, b) :: rest, a, v =>
    if a < x then (a, v) :: (x, b) :: rest
    else if a = x then (a, v) :: rest
    else (x, b) :: Mem.write rest a v

/-- `BufRead(buf, addr, n)` (00_scope.md R10): none where one of the bytes was never written. -/
def Mem.readBytes (m : Mem) (addr : Nat) : Nat → Option (List Byte)
  | 0 => some []
  | n + 1 =>
    match m.read addr, m.readBytes (addr + 1) n with
    | some b, some bs => some (b :: bs)
    | _, _ => none

/-- Whether an address lies in a buffer of the given size; `none` is unbounded (10_state.md R30). -/
def inBuffer (size : Option Nat) (a : Nat) : Bool :=
  match size with
  | none => true
  | some n => decide (a < n)

/-- The size of CTRL_BUF, 125 bytes (20_memory.md R50). -/
def ctrlBufSize : Nat := 125

/-! ## Events and phase -/

/-- `emit E`: append a record to the tail of EVT (44_parser.md R190). -/
def emit (e : Event) (s : State) : State := { s with evt := s.evt ++ [e] }

/-- The numeric kind code of a record (44_parser.md R190); 5 to 7 are never produced. -/
def Event.kind : Event → BitVec 3
  | .message .. => 0
  | .close .. => 1
  | .ping _ => 2
  | .pong _ => 3
  | .error .. => 4

/-- `phase <- P` (00_scope.md R10). -/
def setPhase (p : Phase) (s : State) : State := { s with phase := p }

/-- The value of the PHASE register (10_state.md R24). -/
def Phase.code : Phase → BitVec 3
  | .hdr0 => 0
  | .hdr1 => 1
  | .extLen => 2
  | .maskKey => 3
  | .payload => 4

/-! ## The error entry -/

/-- Cause numbers (60_exceptions.md R220). -/
def Cause.code : Cause → BitVec 4
  | .reservedOpcode => 1
  | .fragmentedControl => 2
  | .controlTooLong => 3
  | .maskMismatch => 4
  | .unexpectedContinuation => 5
  | .dataWhileOpen => 6
  | .nonMinimalLength => 7
  | .invalidClose => 8
  | .messageTooBig => 9

/-- The status code of a cause: 1002, or TOO_BIG_CODE for cause 9 (60_exceptions.md R220, R230). -/
def statusCode (c : Cause) (s : State) : BitVec 16 :=
  if c = .messageTooBig then s.params.tooBigCode else 1002#16

/-- The text "invalid close frame" (60_exceptions.md R220, cause 8) as ASCII bytes. PRESUMED (log entry 7): the spec gives
the text and not its bytes; 95_test_vectors.md writes quoted strings as ASCII. -/
def invalidCloseText : List Byte :=
  [0x69, 0x6E, 0x76, 0x61, 0x6C, 0x69, 0x64, 0x20, 0x63, 0x6C, 0x6F, 0x73, 0x65, 0x20, 0x66, 0x72, 0x61, 0x6D, 0x65]

/-- `REASON_TEXT(cause)`: open but for cause 8 (60_exceptions.md R220; log entry 7). -/
def reasonText (c : Cause) : List Byte :=
  if c = .invalidClose then invalidCloseText else Config.reasonText c.code.toNat

/-- `raise ProtocolError(cause)`, the error entry (60_exceptions.md R230): one Error record, the error registers, the
halt, and PHASE back to HDR0; every other register and both buffers keep their values. There is no return from
it but reset (R232). -/
def raiseError (c : Cause) (s : State) : State :=
  { emit (.error (statusCode c s) c.code (reasonText c)) s with
    errCode := statusCode c s
    errCause := c.code
    halted := true
    phase := .hdr0 }

/-! ## Reset -/

/-- `RESET` (70_reset_and_hazards.md R250): the configuration is sampled from the inputs, every other register takes its
value of 10_state.md R41, EVT is emptied. The parameters are constants; the host's side of the ports is not WSFD
state and stays (log entry 13). -/
def applyReset (s : State) : State :=
  { State.reset with
    params := s.params
    requireMasking := s.pins.requireMasking
    strictLen := s.pins.strictLen.getD true
    txMasking := s.pins.txMasking
    inp := s.inp
    host := s.host
    resp := s.resp
    pins := s.pins
    sched := s.sched }

end Machine
end Sys2Proof
end

