-- ==== Sys2Proof/Machine/Operands.lean ====
section
/-! DEFINITION. The operand forms of a frame: the length field in its three encodings, the header registers that a whole
header leaves, minimality, and the waiting input. -/

namespace Sys2Proof

/-- `PLEN` of a length field: zero-extended and unscaled (30_encoding.md R74). -/
def LenField.plen : LenField → Length
  | .direct n => n.setWidth 64
  | .ext16 n => n.setWidth 64
  | .ext64 n => n

/-- `EXT` after the extended length bytes of a length field (42_header_decoder.md R111, R112). -/
def LenField.ext : LenField → Length
  | .direct _ => 0
  | .ext16 n => n.setWidth 64
  | .ext64 n => n

/-- `EXT_NEED` of a length field: 0, 2 or 8 (42_header_decoder.md R111). -/
def LenField.need : LenField → BitVec 4
  | .direct _ => 0
  | .ext16 _ => 2
  | .ext64 _ => 8

namespace Machine

/-- `EXT_NEED` as byte 1 selects it (42_header_decoder.md R111). -/
def extNeedOf (len7 : BitVec 7) : BitVec 4 :=
  if len7.toNat ≤ 125 then 0 else if len7 = 126#7 then 2 else 8

/-- One more byte of a big-endian field: `EXT * 256 + b` (42_header_decoder.md R112), at the 64 bits of EXT, DESIGN CHOICE (log
entry 10). -/
def shiftIn (ext : Length) (b : Byte) : Length := ext * 256#64 + b.setWidth 64

/-- Whether a length encoding is minimal (30_encoding.md R75). -/
def minimalLength (len7 : BitVec 7) (plen : Length) : Bool :=
  decide (len7.toNat ≤ 125) || (decide (len7 = 126#7) && decide (126 ≤ plen.toNat)) ||
    (decide (len7 = 127#7) && decide (65536 ≤ plen.toNat))

/-- The decoder registers that the header of a frame leaves (42_header_decoder.md R110 to R114): all at once, as the byte
steps leave them one by one. A frame without a key leaves the key registers as they were (10_state.md R27). -/
def loadHeader (op : BitVec 4) (f : Frame) (s : State) : State :=
  { s with
    hFin := f.fin
    hRsv1 := f.rsv1
    hRsv2 := f.rsv2
    hRsv3 := f.rsv3
    hOpcode := op
    hMask := f.key.isSome
    hLen7 := f.len.len7
    ext := f.len.ext
    extNeed := f.len.need
    extCnt := f.len.need
    key := f.key.getD s.key
    keyCnt := if f.key.isSome then 4 else 0
    plen := f.len.plen }

end Machine
end Sys2Proof
end

