-- ==== Sys2Proof/Machine/Flags.lean ====
section
/-! DEFINITION. Every condition and status computation of the spec: the opcode classes R79, the nine checks R120 to R128 in
the order R119, the status registers CR0 to CR2, the level outputs R240 and the back-pressure condition R68. -/

namespace Sys2Proof.Machine

/-! ## Opcode classes (30_encoding.md R79) -/

/-- Opcodes 8, 9, 10. -/
def isControl (op : BitVec 4) : Bool := op == 8 || op == 9 || op == 10
/-- Opcodes 1, 2. -/
def isData (op : BitVec 4) : Bool := op == 1 || op == 2
/-- Opcode 0. -/
def isCont (op : BitVec 4) : Bool := op == 0
/-- Opcodes 3 to 7 and 11 to 15. -/
def isReserved (op : BitVec 4) : Bool :=
  (decide (3 ≤ op.toNat) && decide (op.toNat ≤ 7)) || decide (11 ≤ op.toNat)

/-! ## The checks (42_header_decoder.md R120 to R128) -/

/-- Whether `MSG_LEN + PLEN` exceeds the limit (42_header_decoder.md R128); with `INF` it never does. -/
def tooBig (limit : Option Nat) (n : Nat) : Bool :=
  match limit with
  | none => false
  | some m => decide (m < n)

/-- The condition of each check, on the header registers, CR0, CR1, MSG_OPEN and MSG_LEN. -/
def checkFails (c : Cause) (s : State) : Bool :=
  match c with
  | .reservedOpcode => isReserved s.hOpcode
  | .fragmentedControl => isControl s.hOpcode && !s.hFin
  | .controlTooLong => isControl s.hOpcode && decide (125 < s.plen.toNat)
  | .maskMismatch => s.hMask != s.requireMasking
  | .unexpectedContinuation => isCont s.hOpcode && !s.msgOpen
  | .dataWhileOpen => isData s.hOpcode && s.msgOpen
  | .nonMinimalLength => s.strictLen && !minimalLength s.hLen7 s.plen
  | .invalidClose => s.hOpcode == 8 && s.plen == 1
  | .messageTooBig =>
    (isData s.hOpcode || isCont s.hOpcode) && tooBig s.params.maxMessageBytes (s.msgLen + s.plen.toNat)

/-- The checks in the order of R119. -/
def checkOrder : List Cause :=
  [.reservedOpcode, .fragmentedControl, .controlTooLong, .maskMismatch, .unexpectedContinuation, .dataWhileOpen,
    .nonMinimalLength, .invalidClose, .messageTooBig]

/-- `VALIDATE()`: the first check whose condition holds, none for a valid frame (42_header_decoder.md R119, R129). -/
def validate (s : State) : Option Cause := checkOrder.find? (fun c => checkFails c s)

/-! ## Status registers and outputs -/

/-- `CR0` (10_state.md R22): bit 0 REQUIRE_MASKING, bit 1 STRICT_LEN, bit 2 TX_MASKING, the rest read 0. -/
def cr0 (s : State) : BitVec 32 :=
  0#29 ++ BitVec.ofBool s.txMasking ++ BitVec.ofBool s.strictLen ++ BitVec.ofBool s.requireMasking

/-- `CR1` (10_state.md R23): MAX_MESSAGE_BYTES. -/
def cr1 (s : State) : Option Nat := s.params.maxMessageBytes

/-- `CR2` (10_state.md R35): bit 0 HALTED, bit 1 MSG_OPEN, bits 4:2 PHASE, bits 8:5 ERR_CAUSE, bits 15:9 read 0, bits 31:16
ERR_CODE. -/
def cr2 (s : State) : BitVec 32 :=
  s.errCode ++ 0#7 ++ s.errCause ++ s.phase.code ++ BitVec.ofBool s.msgOpen ++ BitVec.ofBool s.halted

/-- The value READ_STATUS(n) returns; none where there is no register (10_state.md R35). -/
def statusValue (n : Nat) (s : State) : Option StatusValue :=
  match n with
  | 0 => some (.word (cr0 s))
  | 1 => some (.limit (cr1 s))
  | 2 => some (.word (cr2 s))
  | _ => none

/-- The optional level output "EVT not empty" (60_exceptions.md R240). -/
def evtNotEmpty (s : State) : Bool := !s.evt.isEmpty

/-- The optional level output HALTED (60_exceptions.md R240). -/
def haltedOutput (s : State) : Bool := s.halted

/-- Whether the input port accepts a byte: EVT is not full, or the instance is halted (20_memory.md R68). -/
def portOpen (s : State) : Bool :=
  s.halted || (match s.params.evtDepth with
    | none => true
    | some d => decide (s.evt.length < d))

end Sys2Proof.Machine
end

