-- ==== Sys2Proof/Machine/Mask.lean ====
section
/-! DEFINITION. The XOR masking engine (41_mask_engine.md). -/

namespace Sys2Proof.Machine

/-- The masking transform from key index `i` on (41_mask_engine.md R100, R105): byte `j` of the payload is combined with
`key[(i + j) mod 4]`. -/
def maskFrom (k : Key) (i : Nat) : List Byte → List Byte
  | [] => []
  | b :: bs => (b ^^^ k.at i) :: maskFrom k (i + 1) bs

/-- `MASK_APPLY(payload, key)` (41_mask_engine.md R100). -/
def maskApply (payload : List Byte) (k : Key) : List Byte := maskFrom k 0 payload

/-- `UNMASK_BYTE(w)` (41_mask_engine.md R102): the key index is `PCNT mod 4` (R101); without a mask KEY is not read. -/
def unmaskByte (w : Byte) (s : State) : Byte :=
  if s.hMask then w ^^^ s.key.at s.pcnt.toNat else w

/-- The application bytes of a frame's payload (30_encoding.md R77). -/
def appPayload (f : Frame) : List Byte :=
  match f.key with
  | none => f.payload
  | some k => maskApply f.payload k

end Sys2Proof.Machine
end

