-- ==== Sys2Proof/Machine/Reassembler.lean ====
section
/-! DEFINITION. The reassembly buffer (43_reassembler.md). Control frames never come here (R140). -/

namespace Sys2Proof.Machine

/-- `MSG_OPEN_AS(op, r1, r2, r3)` (43_reassembler.md R141): the buffer and its length keep the frame's payload. -/
def msgOpenAs (op : BitVec 4) (r1 r2 r3 : Bool) (s : State) : State :=
  { s with msgOpen := true, msgOpcode := op, msgRsv1 := r1, msgRsv2 := r2, msgRsv3 := r3 }

/-- `MSG_APPEND(v)` (43_reassembler.md R142). The address is always inside the buffer after check 9 (20_memory.md R59); an
address outside it stops (log entry 9). -/
def msgAppend (v : Byte) (s : State) : Result :=
  if inBuffer s.params.maxMessageBytes s.msgLen then
    .next { s with msgBuf := s.msgBuf.write s.msgLen v, msgLen := s.msgLen + 1 }
  else .fault .msgBufAddress

/-- The register writes of `MSG_COMPLETE` (43_reassembler.md R143): every reassembler register to 0; the contents of
MSG_BUF stay. -/
def msgClear (s : State) : State :=
  { s with
    msgOpen := false
    msgOpcode := 0
    msgRsv1 := false
    msgRsv2 := false
    msgRsv3 := false
    msgLen := 0 }

/-- `emit Message(MSG_COMPLETE(op, r1, r2, r3))` (43_reassembler.md R143; 44_parser.md R173 to R175). -/
def emitMessage (op : BitVec 4) (r1 r2 r3 : Bool) (s : State) : Result :=
  match s.msgBuf.readBytes 0 s.msgLen with
  | none => .fault .unwrittenByte
  | some payload => .next (emit (.message op r1 r2 r3 payload) (msgClear s))

end Sys2Proof.Machine
end

