-- ==== Sys2Proof/Machine/Payload.lean ====
section
/-! DEFINITION. The payload part of a frame (44_parser.md R171) and the shape every frame meaning has: the header, the checks,
the payload, the opcode's rule at frame complete (42_header_decoder.md R116; 44_parser.md R172). -/

namespace Sys2Proof.Machine

/-- `BufWrite(CTRL_BUF, PCNT, v)` (44_parser.md R171). The address is always below 125 after check 3 (20_memory.md R59);
an address outside the buffer stops (log entry 9). -/
def ctrlStore (v : Byte) (s : State) : Result :=
  if inBuffer (some ctrlBufSize) s.pcnt.toNat then
    .next { s with ctrlBuf := s.ctrlBuf.write s.pcnt.toNat v }
  else .fault .ctrlBufAddress

/-- `PCNT <- PCNT + 1` (44_parser.md R171); it wraps at 64 bits, DESIGN CHOICE (log entry 10), in no state of the invariant. -/
def countByte (s : State) : State := { s with pcnt := s.pcnt + 1 }

/-- One payload byte, before the test for the frame's end (44_parser.md R171): unmask, store, count. -/
def payloadStore (w : Byte) (s : State) : Result :=
  andThen (if isControl s.hOpcode then ctrlStore (unmaskByte w s) s else msgAppend (unmaskByte w s) s)
    (fun t => .next (countByte t))

/-- The payload bytes of a frame, in order. -/
def storeAll : List Byte → State → Result
  | [], s => .next s
  | w :: ws, s => andThen (payloadStore w s) (storeAll ws)

/-- The end of `FRAME_COMPLETE()` (44_parser.md R172): the opcode's rule, then `phase <- HDR0`. -/
def finishFrame (rule : State → Result) (s : State) : Result :=
  andThen (rule s) (fun t => .next (setPhase .hdr0 t))

/-- `PCNT <- 0` at header complete (42_header_decoder.md R116). -/
def startPayload (s : State) : State := { s with pcnt := 0 }

/-- A whole frame with opcode `op` whose rule at frame complete is `rule`: while halted its bytes are discarded
(44_parser.md R160); otherwise the header registers are loaded, the first failing check takes the error entry and the
rest of the frame is discarded (42_header_decoder.md R116, R119), and a valid frame stores its payload and completes
(44_parser.md R171, R172). -/
def runFrame (op : BitVec 4) (rule : State → Result) (f : Frame) (s : State) : Result :=
  if s.halted then .next s
  else
    match validate (loadHeader op f s) with
    | some c => .next (raiseError c (loadHeader op f s))
    | none => andThen (storeAll f.payload (startPayload (loadHeader op f s))) (finishFrame rule)

end Sys2Proof.Machine
end

