-- ==== Sys2Proof/Machine/Control.lean ====
section
/-! DEFINITION. The control frames CLOSE, PING and PONG (44_parser.md R180 to R182). They read CTRL_BUF and write EVT only: no
reassembler register (R177), no HALTED and no automatic reaction (R183). -/

namespace Sys2Proof.Machine

/-- The status code reported for a close frame without payload, "no status received" (44_parser.md R180). -/
def noStatusCode : BitVec 16 := 1005

/-- `CLOSE` at frame complete (44_parser.md R180). PLEN is not 1 here, by check 8; with it the model stops (log entry 9). -/
def closeComplete (s : State) : Result :=
  if s.plen = 0 then .next (emit (.close noStatusCode []) s)
  else if s.plen = 1 then .fault .oneByteClose
  else
    match s.ctrlBuf.read 0, s.ctrlBuf.read 1, s.ctrlBuf.readBytes 2 (s.plen.toNat - 2) with
    | some c0, some c1, some reason => .next (emit (.close (be2 c0 c1) reason) s)
    | _, _, _ => .fault .unwrittenByte

/-- `PING` at frame complete (44_parser.md R181): one Ping record and no Pong. -/
def pingComplete (s : State) : Result :=
  match s.ctrlBuf.readBytes 0 s.plen.toNat with
  | some payload => .next (emit (.ping payload) s)
  | none => .fault .unwrittenByte

/-- `PONG` at frame complete (44_parser.md R182): reported whether or not a ping was sent. -/
def pongComplete (s : State) : Result :=
  match s.ctrlBuf.readBytes 0 s.plen.toNat with
  | some payload => .next (emit (.pong payload) s)
  | none => .fault .unwrittenByte

/-- The frame `CLOSE` (opcode 8). -/
def execClose (f : Frame) (s : State) : Result := runFrame 8 closeComplete f s

/-- The frame `PING` (opcode 9). -/
def execPing (f : Frame) (s : State) : Result := runFrame 9 pingComplete f s

/-- The frame `PONG` (opcode 10). -/
def execPong (f : Frame) (s : State) : Result := runFrame 10 pongComplete f s

end Sys2Proof.Machine
end

