-- ==== Sys2Proof/Machine/Data.lean ====
section
/-! DEFINITION. The data and continuation frames TEXT, BINARY and CONT (44_parser.md R173 to R175). -/

namespace Sys2Proof.Machine

/-- `TEXT` at frame complete (44_parser.md R173). -/
def textComplete (s : State) : Result :=
  if s.hFin then emitMessage 1 s.hRsv1 s.hRsv2 s.hRsv3 s
  else .next (msgOpenAs 1 s.hRsv1 s.hRsv2 s.hRsv3 s)

/-- `BINARY` at frame complete (44_parser.md R174). -/
def binaryComplete (s : State) : Result :=
  if s.hFin then emitMessage 2 s.hRsv1 s.hRsv2 s.hRsv3 s
  else .next (msgOpenAs 2 s.hRsv1 s.hRsv2 s.hRsv3 s)

/-- `CONT` at frame complete (44_parser.md R175): the message carries the opcode and RSV bits of its initiating frame
(43_reassembler.md R145). -/
def contComplete (s : State) : Result :=
  if s.hFin then emitMessage s.msgOpcode s.msgRsv1 s.msgRsv2 s.msgRsv3 s
  else .next s

/-- The frame `TEXT` (opcode 1). -/
def execText (f : Frame) (s : State) : Result := runFrame 1 textComplete f s

/-- The frame `BINARY` (opcode 2). -/
def execBinary (f : Frame) (s : State) : Result := runFrame 2 binaryComplete f s

/-- The frame `CONT` (opcode 0). -/
def execCont (f : Frame) (s : State) : Result := runFrame 0 contComplete f s

end Sys2Proof.Machine
end

