-- ==== Sys2Proof/Machine/Reserved.lean ====
section
/-! DEFINITION. The reserved opcodes 3 to 7 and 11 to 15 (30_encoding.md R80): at header complete each takes the error entry with
cause 1, whatever its other fields are (42_header_decoder.md R120). -/

namespace Sys2Proof.Machine

/-- A frame with a reserved opcode: the header is decoded, check 1 fails, the error entry is taken and the payload is
discarded (42_header_decoder.md R119, R120; 60_exceptions.md R230); while halted the bytes are discarded (44_parser.md
R160). -/
def reservedFrame (op : BitVec 4) (f : Frame) (s : State) : Result :=
  if s.halted then .next s else .next (raiseError .reservedOpcode (loadHeader op f s))

/-- The frame `OP3`. -/
def execOp3 (f : Frame) (s : State) : Result := reservedFrame 3 f s
/-- The frame `OP4`. -/
def execOp4 (f : Frame) (s : State) : Result := reservedFrame 4 f s
/-- The frame `OP5`. -/
def execOp5 (f : Frame) (s : State) : Result := reservedFrame 5 f s
/-- The frame `OP6`. -/
def execOp6 (f : Frame) (s : State) : Result := reservedFrame 6 f s
/-- The frame `OP7`. -/
def execOp7 (f : Frame) (s : State) : Result := reservedFrame 7 f s
/-- The frame `OP11`. -/
def execOp11 (f : Frame) (s : State) : Result := reservedFrame 11 f s
/-- The frame `OP12`. -/
def execOp12 (f : Frame) (s : State) : Result := reservedFrame 12 f s
/-- The frame `OP13`. -/
def execOp13 (f : Frame) (s : State) : Result := reservedFrame 13 f s
/-- The frame `OP14`. -/
def execOp14 (f : Frame) (s : State) : Result := reservedFrame 14 f s
/-- The frame `OP15`. -/
def execOp15 (f : Frame) (s : State) : Result := reservedFrame 15 f s

end Sys2Proof.Machine
end

