-- ==== Sys2Proof/Machine/Dispatch.lean ====
section
/-! DEFINITION. One arm per row of spec/opcode_table.json. -/

namespace Sys2Proof.Machine

/-- What a frame does to the machine (30_encoding.md R78): all its bytes at once, DESIGN CHOICE (log entries 1 and 20). -/
def exec (i : Instr) (s : State) : Host.Outcome State Fault Refusal :=
  match i with
  | .cont f => Sys2Proof.Machine.execCont f s
  | .text f => Sys2Proof.Machine.execText f s
  | .binary f => Sys2Proof.Machine.execBinary f s
  | .op3 f => Sys2Proof.Machine.execOp3 f s
  | .op4 f => Sys2Proof.Machine.execOp4 f s
  | .op5 f => Sys2Proof.Machine.execOp5 f s
  | .op6 f => Sys2Proof.Machine.execOp6 f s
  | .op7 f => Sys2Proof.Machine.execOp7 f s
  | .close f => Sys2Proof.Machine.execClose f s
  | .ping f => Sys2Proof.Machine.execPing f s
  | .pong f => Sys2Proof.Machine.execPong f s
  | .op11 f => Sys2Proof.Machine.execOp11 f s
  | .op12 f => Sys2Proof.Machine.execOp12 f s
  | .op13 f => Sys2Proof.Machine.execOp13 f s
  | .op14 f => Sys2Proof.Machine.execOp14 f s
  | .op15 f => Sys2Proof.Machine.execOp15 f s

end Sys2Proof.Machine
end

