-- ==== Sys2Proof/Machine/Encoder.lean ====
section
/-! DEFINITION. The transmit frame encoder (45_encoder.md): a function of the descriptor and TX_MASKING alone (R42, R207). -/

namespace Sys2Proof.Machine

/-- The contract violation of a descriptor, the first in the order of 45_encoder.md R205. -/
def violation (tx : Bool) (d : Descriptor) : Option Violation :=
  if d.payloadLength ≠ d.payload.length then some .lengthMismatch
  else if 2 ^ 64 ≤ d.payloadLength then some .lengthRange
  else if tx && d.maskingKey.isNone then some .noKey
  else none

/-- The minimal length field of a length below 2^64 (45_encoder.md R201, R202). -/
def minimalField (n : Nat) : LenField :=
  if n < 126 then .direct (BitVec.ofNat 7 n)
  else if n ≤ 65535 then .ext16 (BitVec.ofNat 16 n)
  else .ext64 (BitVec.ofNat 64 n)

/-- The key field and the payload as they go out (45_encoder.md R201, R203; 41_mask_engine.md R103): the mask bit is
TX_MASKING, a key in the descriptor is ignored without it. -/
def txPayload (tx : Bool) (d : Descriptor) : List Byte :=
  match tx, d.maskingKey with
  | true, some k => k.bytes ++ maskApply d.payload k
  | _, _ => d.payload

/-- The wire bytes of a descriptor without violation (45_encoder.md R201). -/
def wireBytes (tx : Bool) (d : Descriptor) : List Byte :=
  byte0 d.fin d.rsv1 d.rsv2 d.rsv3 d.opcode :: byte1 tx (minimalField d.payloadLength).len7 ::
    ((minimalField d.payloadLength).bytes ++ txPayload tx d)

/-- `FRAME(d)` (45_encoder.md R200): the wire bytes, or the contract violation and no bytes. -/
def frameResponse (tx : Bool) (d : Descriptor) : Response :=
  match violation tx d with
  | some v => .violation v
  | none => .bytes (wireBytes tx d)

end Sys2Proof.Machine
end

