-- ==== Sys2Proof/Machine/Parser.lean ====
section
/-! DEFINITION. The byte-serial decoder: the byte steps of 42_header_decoder.md R110 to R116 and 44_parser.md R171, R172, and PUSH
(R160), PARSE (R161). -/

namespace Sys2Proof.Machine

/-- The opcode's rule at frame complete (44_parser.md R172). R172 has no case for a reserved opcode, and none gets here
(R171); the model stops there (log entry 9). -/
def frameRule (op : BitVec 4) : State → Result :=
  if op = 1 then textComplete
  else if op = 2 then binaryComplete
  else if op = 0 then contComplete
  else if op = 8 then closeComplete
  else if op = 9 then pingComplete
  else if op = 10 then pongComplete
  else fun _ => .fault .reservedFrameComplete

/-- `FRAME_COMPLETE()` (44_parser.md R172). -/
def frameComplete (s : State) : Result := finishFrame (frameRule s.hOpcode) s

/-- `HEADER_COMPLETE` (42_header_decoder.md R116). -/
def headerComplete (s : State) : Result :=
  match validate s with
  | some c => .next (raiseError c s)
  | none =>
    if s.plen = 0 then frameComplete (startPayload s)
    else .next (setPhase .payload (startPayload s))

/-- `HDR0` step (42_header_decoder.md R110). -/
def hdr0Step (b : Byte) (s : State) : Result :=
  .next { s with
    hFin := finOf b
    hRsv1 := rsv1Of b
    hRsv2 := rsv2Of b
    hRsv3 := rsv3Of b
    hOpcode := opcodeOf b
    phase := .hdr1 }

/-- The register writes of the `HDR1` step (42_header_decoder.md R111): PLEN is written in the direct form only. -/
def loadByte1 (b : Byte) (s : State) : State :=
  { s with
    hMask := maskOf b
    hLen7 := len7Of b
    ext := 0
    extCnt := 0
    keyCnt := 0
    extNeed := extNeedOf (len7Of b)
    plen := if (len7Of b).toNat ≤ 125 then (len7Of b).setWidth 64 else s.plen }

/-- `HDR1` step (42_header_decoder.md R111). -/
def hdr1Step (b : Byte) (s : State) : Result :=
  if 0 < (extNeedOf (len7Of b)).toNat then .next (setPhase .extLen (loadByte1 b s))
  else if maskOf b then .next (setPhase .maskKey (loadByte1 b s))
  else headerComplete (loadByte1 b s)

/-- The register writes of the `EXTLEN` step that do not depend on the field's end (42_header_decoder.md R112). -/
def loadExtByte (b : Byte) (s : State) : State :=
  { s with ext := shiftIn s.ext b, extCnt := s.extCnt + 1 }

/-- `PLEN <- EXT` at the last extended-length byte (42_header_decoder.md R112). -/
def latchLength (s : State) : State := { s with plen := s.ext }

/-- What follows the last extended-length byte (42_header_decoder.md R112). -/
def lengthDone (s : State) : Result :=
  if s.hMask then .next (setPhase .maskKey s) else headerComplete s

/-- `EXTLEN` step (42_header_decoder.md R112). -/
def extLenStep (b : Byte) (s : State) : Result :=
  if (loadExtByte b s).extCnt = s.extNeed then lengthDone (latchLength (loadExtByte b s))
  else .next (loadExtByte b s)

/-- `MASKKEY` step (42_header_decoder.md R113). There is no register past KEY[3] (log entry 9). -/
def maskKeyStep (b : Byte) (s : State) : Result :=
  match s.key.put s.keyCnt.toNat b with
  | none => .fault .keyRegister
  | some k =>
    if s.keyCnt + 1 = 4 then headerComplete { s with key := k, keyCnt := s.keyCnt + 1 }
    else .next { s with key := k, keyCnt := s.keyCnt + 1 }

/-- `PAYLOAD` step (44_parser.md R171). -/
def payloadStep (b : Byte) (s : State) : Result :=
  andThen (payloadStore b s) (fun t => if t.pcnt = t.plen then frameComplete t else .next t)

/-- `PUSH(b)` (44_parser.md R160): while halted the byte is discarded, otherwise PHASE selects the byte step. -/
def pushByte (b : Byte) (s : State) : Result :=
  if s.halted then .next s
  else
    match s.phase with
    | .hdr0 => hdr0Step b s
    | .hdr1 => hdr1Step b s
    | .extLen => extLenStep b s
    | .maskKey => maskKeyStep b s
    | .payload => payloadStep b s

/-- `PARSE(chunk)` (44_parser.md R161): PUSH of each byte, in order. -/
def pushAll : List Byte → State → Result
  | [], s => .next s
  | b :: bs, s => andThen (pushByte b s) (pushAll bs)

end Sys2Proof.Machine
end

