-- ==== Sys2Proof/Machine/HostPort.lean ====
section
/-! DEFINITION. The host transactions (30_encoding.md R88) and the input port. The host's pending transactions, its bytes at the
input port and the answers it was given are plain data of State (log entry 2). -/

namespace Sys2Proof.Machine

/-- Append an answer for the host. -/
def answer (r : Response) (s : State) : State := { s with resp := s.resp ++ [r] }

/-- `DRAIN` (44_parser.md R191): the head record leaves EVT and goes to the host. With EVT empty there is no step: the
host waits (log entry 12). -/
def drain (s : State) : State :=
  match s.evt with
  | [] => s
  | e :: rest => answer (.drained e) { s with evt := rest }

/-- `READ_STATUS(n)` (10_state.md R35): the register's value, or its refusal with no effect (log entry 14). -/
def readStatus (n : Nat) (s : State) : State :=
  match statusValue n s with
  | some v => answer (.status n v) s
  | none => answer (.statusRefused n) s

/-- `FRAME(d)` (45_encoder.md R200): the answer is the only effect. -/
def frameRequest (d : Descriptor) (s : State) : State := answer (frameResponse s.txMasking d) s

/-- The bytes of a PUSH or a PARSE are presented at the input port (44_parser.md R160, R161; log entry 2). -/
def present (bs : List Byte) (s : State) : State := { s with inp := s.inp ++ bs }

/-- One host transaction. `driveInputs` changes the configuration inputs and no register: they are sampled at reset
only (10_state.md R21; 70_reset_and_hazards.md R255). -/
def serve (op : HostOp) (s : State) : State :=
  match op with
  | .push b => present [b] s
  | .parse chunk => present chunk s
  | .drain => drain s
  | .readStatus n => readStatus n s
  | .frame d => frameRequest d s
  | .reset => applyReset s
  | .driveInputs c => { s with pins := c }

/-- Whether a transaction can be served now: a drain waits while EVT is empty (44_parser.md R191), every other one is
allowed at all times (60_exceptions.md R241). -/
def canServe (op : HostOp) (s : State) : Bool :=
  match op with
  | .drain => !s.evt.isEmpty
  | .push _ => true
  | .parse _ => true
  | .readStatus _ => true
  | .frame _ => true
  | .reset => true
  | .driveInputs _ => true

/-- Whether the host has a transaction that can be served. -/
def hostReady (s : State) : Bool :=
  match s.host with
  | [] => false
  | op :: _ => canServe op s

/-- Serve the host's oldest transaction; with none there is nothing to do. -/
def serveHost (s : State) : State :=
  match s.host with
  | [] => s
  | op :: rest => serve op { s with host := rest }

/-- Whether the decoder can consume a byte: one waits and the port is open (20_memory.md R68). -/
def inputReady (s : State) : Bool := !s.inp.isEmpty && portOpen s

/-- Consume the oldest waiting byte (44_parser.md R160). -/
def byteTurn (s : State) : Result :=
  match s.inp with
  | [] => .next s
  | b :: rest => pushByte b { s with inp := rest }

/-- The whole frame at the front of the input port, when the decoder stands at a frame boundary (70_reset_and_hazards.md
R260: several bytes at once). -/
def fetch (s : State) : Option (Instr × List Byte) :=
  if s.phase = .hdr0 then
    match decode s.inp with
    | .ok r => some r
    | .error _ => none
  else none

/-- Whose turn it is: the head of the schedule, a waiting frame when the schedule is empty (log entry 3). -/
def turnOf (s : State) : Turn :=
  match s.sched with
  | [] => .frame
  | t :: _ => t

/-- The schedule moves on. -/
def nextTurn (s : State) : State := { s with sched := s.sched.tail }

end Sys2Proof.Machine
end

