-- ==== Sys2Proof/Machine/Step.lean ====
section
/-! DEFINITION. One step of the machine: the port whose turn it is moves (log entry 3). Waiting is a step that changes nothing
(60_exceptions.md R245; log entry 12). -/

namespace Sys2Proof.Machine

/-- The decoder takes the whole frame that waits at the input port, or one byte when there is no whole frame or
it stands inside one (44_parser.md R160; 70_reset_and_hazards.md R260). -/
def frameTurn (s : State) : Result :=
  match fetch s with
  | some (i, rest) => exec i { s with inp := rest }
  | none => byteTurn s

/-- The decoder's turn: one byte or one frame. -/
def decoderTurn (t : Turn) (s : State) : Result :=
  match t with
  | .byte => byteTurn s
  | .frame => frameTurn s
  | .host => frameTurn s

/-- One step. On the host's turn its oldest transaction is served, and the decoder moves if there is none that can be;
on the decoder's turn a byte or a frame is consumed, and the host moves if the decoder cannot. -/
def step (s : State) : Host.Outcome State Fault Refusal :=
  if turnOf s = .host then
    if hostReady (nextTurn s) then .next (serveHost (nextTurn s))
    else if inputReady (nextTurn s) then decoderTurn .frame (nextTurn s)
    else .next (nextTurn s)
  else
    if inputReady (nextTurn s) then decoderTurn (turnOf s) (nextTurn s)
    else if hostReady (nextTurn s) then .next (serveHost (nextTurn s))
    else .next (nextTurn s)

/-- The state with the frame of a table word at the front of the input port, the decoder at a frame boundary and the
next turn a frame turn; where the event port is full its depth is lifted, so that the port accepts the frame (log
entry 4). A word with no whole frame leaves its bytes at the port. -/
def State.withFetchWord (s : State) (nbits w : Nat) : State :=
  { s with
    inp := (match decodeTableWord nbits w with
      | some i => encode i
      | none => tableBytes nbits w) ++ s.inp
    phase := .hdr0
    sched := .frame :: s.sched
    params := if portOpen s then s.params else { s.params with evtDepth := none } }

end Sys2Proof.Machine
end

