-- ==== Sys2Proof/Machine/Assemble.lean ====
section
/-! DEFINITION. The spec's frame notation (30_encoding.md R86, R87), as a function from its fields to an instruction: a convenience
for writing frames, WSFD sees only the bytes. -/

namespace Sys2Proof.Machine

/-- The forced length forms `len=7`, `len=16`, `len=64`; `minimal` when the notation gives none (30_encoding.md R86). -/
inductive LenForm where
  | minimal
  | seven
  | sixteen
  | sixtyFour
  deriving DecidableEq, Repr

/-- The fields of the notation: the opcode name, `.nf`, `rsv=`, `len=`, `key=`, and the application payload. -/
structure FrameNote where
  op : BitVec 4
  nf : Bool := false
  rsv1 : Bool := false
  rsv2 : Bool := false
  rsv3 : Bool := false
  len : LenForm := .minimal
  key : Option Key := none
  payload : List Byte := []
  deriving DecidableEq, Repr

/-- The length field of a form; none where the form cannot hold the length (log entry 19). -/
def lenFieldOf (form : LenForm) (n : Nat) : Option LenField :=
  match form with
  | .minimal => if n < 2 ^ 64 then some (minimalField n) else none
  | .seven => if n ≤ 125 then some (.direct (BitVec.ofNat 7 n)) else none
  | .sixteen => if n ≤ 65535 then some (.ext16 (BitVec.ofNat 16 n)) else none
  | .sixtyFour => if n < 2 ^ 64 then some (.ext64 (BitVec.ofNat 64 n)) else none

/-- The frame a notation stands for (30_encoding.md R86): `key=` masks the payload, without it the payload goes in clear. -/
def assemble (n : FrameNote) : Option Instr :=
  (lenFieldOf n.len n.payload.length).map fun len =>
    instrOf n.op
      { fin := !n.nf, rsv1 := n.rsv1, rsv2 := n.rsv2, rsv3 := n.rsv3, len := len, key := n.key
        payload := match n.key with
          | none => n.payload
          | some k => maskApply n.payload k }

/-- The pseudo-frame `CLOSE code=<n> "<reason>"` (30_encoding.md R87). -/
def closeNote (code : BitVec 16) (reason : List Byte) : FrameNote :=
  { op := 8, payload := bytes2 code ++ reason }

end Sys2Proof.Machine
end

