-- ==== Sys2Proof/Safety.lean ====
section
/-! DEFINITION. What counts as a safe run of WSFD, in the terms the statements use: the invariant of 10_state.md R43 made
inductive, and which registers two states share. -/

namespace Sys2Proof.Machine

/-- Every byte below `n` of a buffer was written (10_state.md R30, R31). -/
def Mem.filled (m : Mem) (n : Nat) : Prop := ∀ a, a < n → (m.read a).isSome = true

/-- A buffer in canonical form whose written addresses lie inside its size (20_memory.md R59). -/
structure Mem.Good (m : Mem) (size : Option Nat) : Prop where
  wf : m.wf = true
  inside : ∀ a, (m.read a).isSome = true → inBuffer size a = true

/-- The invariant of the decoder: 10_state.md R43 items 2 to 7, item 1 everywhere but between the write of PLEN and the clearing
of PCNT (DEDUCED, log entry 11), and what the rules keep besides, so that every byte step keeps it. -/
structure State.DecoderInv (s : State) : Prop where
  /-- R43 item 1. In MASKKEY, and in a halt that came before PCNT was cleared, PLEN is a new frame's and PCNT an old one's
  (42_header_decoder.md R111, R112, R116; log entry 11). -/
  pcnt_le : s.phase ≠ .maskKey → s.halted = false → s.pcnt.toNat ≤ s.plen.toNat
  /-- R43 item 2. -/
  pcnt_lt : s.phase = .payload → s.pcnt.toNat < s.plen.toNat
  /-- R43 item 2. -/
  control_len : s.phase = .payload → isControl s.hOpcode = true → s.plen.toNat ≤ 125
  /-- R43 item 3. -/
  ext_need : s.extNeed = 0 ∨ s.extNeed = 2 ∨ s.extNeed = 8
  /-- R43 item 3. -/
  ext_cnt : s.extCnt.toNat ≤ s.extNeed.toNat
  /-- R43 item 3. -/
  key_cnt : s.keyCnt.toNat ≤ 4
  /-- R43 item 4. -/
  msg_opcode : s.msgOpen = true → isData s.msgOpcode = true
  /-- R43 item 5. -/
  msg_len_zero : s.msgOpen = false → ¬(s.phase = .payload ∧ isData s.hOpcode = true) → s.msgLen = 0
  /-- R43 item 6. -/
  msg_limit : ∀ m, s.params.maxMessageBytes = some m → s.msgLen ≤ m
  /-- R43 item 7. -/
  halted_iff : s.halted = false ↔ s.errCause = 0
  /-- The error entry leaves PHASE at HDR0 (60_exceptions.md R230). -/
  halted_phase : s.halted = true → s.phase = .hdr0
  /-- In EXTLEN a length byte is still to come (42_header_decoder.md R118). -/
  ext_more : s.phase = .extLen → s.extCnt.toNat < s.extNeed.toNat
  /-- In EXTLEN no key byte has come (42_header_decoder.md R111, R113). -/
  ext_key : s.phase = .extLen → s.keyCnt = 0
  /-- In MASKKEY a key byte is still to come (42_header_decoder.md R118). -/
  key_more : s.phase = .maskKey → s.keyCnt.toNat < 4
  /-- A reserved opcode never reaches the payload (44_parser.md R171). -/
  payload_opcode : s.phase = .payload → isReserved s.hOpcode = false
  /-- A close frame in its payload has at least two payload bytes (44_parser.md R180). -/
  payload_close : s.phase = .payload → s.hOpcode = 8 → s.plen ≠ 1
  /-- MSG_OPEN is 0 inside a data frame (44_parser.md R173). -/
  payload_data : s.phase = .payload → isData s.hOpcode = true → s.msgOpen = false
  /-- MSG_OPEN is 1 inside a continuation frame (44_parser.md R175). -/
  payload_cont : s.phase = .payload → isCont s.hOpcode = true → s.msgOpen = true
  /-- The rest of an admitted frame fits into MSG_BUF (20_memory.md R59). -/
  payload_room : s.phase = .payload → isControl s.hOpcode = false →
    ∀ m, s.params.maxMessageBytes = some m → s.msgLen + (s.plen.toNat - s.pcnt.toNat) ≤ m
  /-- MSG_BUF is canonical and inside its size. -/
  msg_buf : s.msgBuf.Good s.params.maxMessageBytes
  /-- CTRL_BUF is canonical and inside its size. -/
  ctrl_buf : s.ctrlBuf.Good (some ctrlBufSize)
  /-- The bytes of the open message were written (10_state.md R30). -/
  msg_filled : s.msgBuf.filled s.msgLen
  /-- The control payload received so far was written (10_state.md R31). -/
  ctrl_filled : s.phase = .payload → isControl s.hOpcode = true → s.ctrlBuf.filled s.pcnt.toNat

/-- The invariant of every reachable state: that of the decoder and that of the event port. -/
structure State.Inv (s : State) : Prop extends s.DecoderInv where
  /-- EVT never holds more than EVT_DEPTH records (20_memory.md R68). -/
  evt_depth : ∀ d, s.params.evtDepth = some d → s.evt.length ≤ d

/-- A step or a run is safe when it ends in a next state that meets the invariant. -/
def Safe (r : Result) : Prop := ∃ t, r = .next t ∧ t.Inv

/-- The two states agree in the configuration registers and the parameters (10_state.md R21 to R23). -/
structure SameConfig (s t : State) : Prop where
  params : t.params = s.params
  requireMasking : t.requireMasking = s.requireMasking
  strictLen : t.strictLen = s.strictLen
  txMasking : t.txMasking = s.txMasking

/-- The two states agree in the header, length, key and payload-counter registers and PHASE (10_state.md R24 to R28). -/
structure SameHeader (s t : State) : Prop where
  phase : t.phase = s.phase
  hFin : t.hFin = s.hFin
  hRsv1 : t.hRsv1 = s.hRsv1
  hRsv2 : t.hRsv2 = s.hRsv2
  hRsv3 : t.hRsv3 = s.hRsv3
  hOpcode : t.hOpcode = s.hOpcode
  hMask : t.hMask = s.hMask
  hLen7 : t.hLen7 = s.hLen7
  ext : t.ext = s.ext
  extNeed : t.extNeed = s.extNeed
  extCnt : t.extCnt = s.extCnt
  key : t.key = s.key
  keyCnt : t.keyCnt = s.keyCnt
  plen : t.plen = s.plen
  pcnt : t.pcnt = s.pcnt

/-- The two states agree in the open-message registers (10_state.md R29) and in MSG_LEN (R30). -/
structure SameMessage (s t : State) : Prop where
  msgOpen : t.msgOpen = s.msgOpen
  msgOpcode : t.msgOpcode = s.msgOpcode
  msgRsv1 : t.msgRsv1 = s.msgRsv1
  msgRsv2 : t.msgRsv2 = s.msgRsv2
  msgRsv3 : t.msgRsv3 = s.msgRsv3
  msgLen : t.msgLen = s.msgLen

/-- The two states agree in HALTED, ERR_CODE and ERR_CAUSE (10_state.md R32, R33). -/
structure SameError (s t : State) : Prop where
  halted : t.halted = s.halted
  errCode : t.errCode = s.errCode
  errCause : t.errCause = s.errCause

/-- The two states agree in the host's side of the ports and in the schedule (log entries 2 and 3). -/
structure SameHostSide (s t : State) : Prop where
  inp : t.inp = s.inp
  host : t.host = s.host
  resp : t.resp = s.resp
  pins : t.pins = s.pins
  sched : t.sched = s.sched

/-- The two states agree in every register of WSFD and in both buffers; EVT and the host's side may differ. -/
structure SameRegisters (s t : State) : Prop where
  config : SameConfig s t
  header : SameHeader s t
  message : SameMessage s t
  error : SameError s t
  msgBuf : t.msgBuf = s.msgBuf
  ctrlBuf : t.ctrlBuf = s.ctrlBuf

end Sys2Proof.Machine
end

