-- ==== Sys2Proof/Certificates/Slice0/Obligations.lean ====
section
/-! DEFINITION. The statements about WSFD: each formalises a numbered rule of spec/ or is derived from the sections its entry in
OBLIGATIONS.json names. The words they share come first. -/

namespace Sys2Proof.Claim

open Sys2Proof.Machine

/-- ShortestForm length encoding, read off 30_encoding.md R75. -/
def ShortestForm : LenField → Prop
  | .direct _ => True
  | .ext16 n => 126 ≤ n.toNat
  | .ext64 n => 65536 ≤ n.toNat

/-- A well-formed frame that reaches a running decoder with the right mask bit and, under STRICT_LEN, a minimal length:
checks 4 and 7 pass (42_header_decoder.md R123, R126). -/
structure Accepted (f : Frame) (s : State) : Prop where
  wf : f.wf = true
  running : s.halted = false
  mask : f.key.isSome = s.requireMasking
  minimal : s.strictLen = true → ShortestForm f.len

/-- A control frame that also passes checks 2 and 3 (42_header_decoder.md R121, R122). -/
structure AcceptedControl (f : Frame) (s : State) : Prop extends Accepted f s where
  fin : f.fin = true
  short : f.payload.length ≤ 125

/-- `n` more payload bytes keep the message within MAX_MESSAGE_BYTES: check 9 passes (42_header_decoder.md R128). -/
def Fits (s : State) (n : Nat) : Prop := ∀ m, s.params.maxMessageBytes = some m → s.msgLen + n ≤ m

/-- The error entry of 60_exceptions.md R230 was taken: exactly one Error record, the error registers, the halt, PHASE at
HDR0; the open message, both buffers, the payload counter, the configuration and the host's side are as before. -/
def StopsWithError (cause : BitVec 4) (code : BitVec 16) (reason : List Byte) (s : State) (r : Result) : Prop :=
  ∃ t, r = .next t ∧ t.evt = s.evt ++ [.error code cause reason] ∧ t.errCode = code ∧ t.errCause = cause ∧
    t.halted = true ∧ t.phase = .hdr0 ∧ SameConfig s t ∧ SameMessage s t ∧ t.msgBuf = s.msgBuf ∧
    t.ctrlBuf = s.ctrlBuf ∧ t.pcnt = s.pcnt ∧ SameHostSide s t

/-- No message is open and every reassembler register reads 0 (43_reassembler.md R143). -/
def MessageClosed (t : State) : Prop :=
  t.msgOpen = false ∧ t.msgOpcode = 0 ∧ t.msgRsv1 = false ∧ t.msgRsv2 = false ∧ t.msgRsv3 = false ∧ t.msgLen = 0

/-- The open-message registers hold these values (43_reassembler.md R141). -/
def MessageOpenAs (op : BitVec 4) (r1 r2 r3 : Bool) (t : State) : Prop :=
  t.msgOpen = true ∧ t.msgOpcode = op ∧ t.msgRsv1 = r1 ∧ t.msgRsv2 = r2 ∧ t.msgRsv3 = r3

/-- An event sequence grew by at most one record at its tail (20_memory.md R68). -/
def AtMostOneMore (old new : List Event) : Prop := ∃ more : List Event, new = old ++ more ∧ more.length ≤ 1

/-- The row of 30_encoding.md R78 by its opcode value. -/
def rowOf (n : Nat) (f : Frame) : Instr :=
  match n with
  | 0 => .cont f
  | 1 => .text f
  | 2 => .binary f
  | 3 => .op3 f
  | 4 => .op4 f
  | 5 => .op5 f
  | 6 => .op6 f
  | 7 => .op7 f
  | 8 => .close f
  | 9 => .ping f
  | 10 => .pong f
  | 11 => .op11 f
  | 12 => .op12 f
  | 13 => .op13 f
  | 14 => .op14 f
  | _ => .op15 f

/-- The ten frames with a reserved opcode (30_encoding.md R80). -/
def reservedFrames (f : Frame) : List Instr :=
  [.op3 f, .op4 f, .op5 f, .op6 f, .op7 f, .op11 f, .op12 f, .op13 f, .op14 f, .op15 f]

/-- The three control frames (30_encoding.md R79). -/
def controlFrames (f : Frame) : List Instr := [.close f, .ping f, .pong f]

/-- The two data frames (30_encoding.md R79). -/
def dataFrames (f : Frame) : List Instr := [.text f, .binary f]

/-- Frames one after another. -/
def runFrames : List Instr → State → Result
  | [], s => .next s
  | i :: is, s => andThen (exec i s) (runFrames is)

/-- The record of a close frame with this application payload (44_parser.md R180). -/
def closeEvents : List Byte → List Event
  | [] => [.close 1005 []]
  | [_] => []
  | c0 :: c1 :: reason => [.close (BitVec.ofNat 16 (c0.toNat * 256 + c1.toNat)) reason]

/-- The record a control frame adds in its place (44_parser.md R177). -/
def controlEvents : Instr → List Event
  | .close f => closeEvents (appPayload f)
  | .ping f => [.ping (appPayload f)]
  | .pong f => [.pong (appPayload f)]
  | _ => []

/-- The bytes a frame between the first and the last fragment adds to the message (43_reassembler.md R144). -/
def fragmentBytes : Instr → List Byte
  | .cont f => appPayload f
  | _ => []

/-- What may stand between the first and the last fragment of a message: continuation frames with FIN = 0 and valid control
frames (44_parser.md R195). -/
def MayInterleave (s : State) : Instr → Prop
  | .cont f => Accepted f s ∧ f.fin = false
  | .close f => AcceptedControl f s ∧ f.payload.length ≠ 1
  | .ping f => AcceptedControl f s
  | .pong f => AcceptedControl f s
  | _ => False

/-- The event that matches a descriptor with FIN = 1 (44_parser.md R193). -/
def eventsOf (d : Descriptor) : List Event :=
  if d.opcode = 8 then closeEvents d.payload
  else if d.opcode = 9 then [.ping d.payload]
  else if d.opcode = 10 then [.pong d.payload]
  else [.message d.opcode d.rsv1 d.rsv2 d.rsv3 d.payload]

/-- The key and the payload as they go out: masked when TX_MASKING is 1 (45_encoder.md R201). -/
def keyAndPayload : Bool → Option Key → List Byte → List Byte
  | true, some k, p => [k.k0, k.k1, k.k2, k.k3] ++ maskApply p k
  | _, _, p => p

/-- The number of a phase (10_state.md R24). -/
def phaseNumber : Phase → Nat
  | .hdr0 => 0
  | .hdr1 => 1
  | .extLen => 2
  | .maskKey => 3
  | .payload => 4

end Sys2Proof.Claim

open Sys2Proof Sys2Proof.Machine Sys2Proof.Claim

/-! ## Encoding -/

/-- Decoding the bytes of a well-formed instruction gives the instruction back, and leaves the bytes after it
(30_encoding.md R70 to R78). -/
def Obligations.DecodeOfEncodeIsTheInstruction : Prop :=
  ∀ (i : Instr) (rest : List Byte), i.wf = true → decode (encode i ++ rest) = .ok (i, rest)

/-- What the decoder accepts is well-formed and encodes to the very bytes it was read from (30_encoding.md R70 to R78). -/
def Obligations.EncodeOfDecodeIsTheBytes : Prop :=
  ∀ (bs rest : List Byte) (i : Instr), decode bs = .ok (i, rest) → i.wf = true ∧ encode i ++ rest = bs

/-- No proper beginning of a frame decodes: the decoder needs more data until the last payload byte (42_header_decoder.md
R115; 30_encoding.md R70). -/
def Obligations.BeginningOfAFrameNeedsMoreData : Prop :=
  ∀ (i : Instr) (front back : List Byte), i.wf = true → encode i = front ++ back → back ≠ [] →
    ∃ e, decode front = .error e

/-- The row is selected by bits 11:8 of the 16-bit word alone, and every header field is its own bits (30_encoding.md R71,
R72, R78). -/
def Obligations.TableWordSelectsRowAndFields : Prop :=
  ∀ w : Nat, w < 65536 → ∃ f : Frame, decodeTableWord 16 w = some (rowOf (w / 256 % 16) f) ∧
    f.fin = w.testBit 15 ∧ f.rsv1 = w.testBit 14 ∧ f.rsv2 = w.testBit 13 ∧ f.rsv3 = w.testBit 12 ∧
    f.key.isSome = w.testBit 7 ∧ f.len.len7.toNat = w % 128

/-- Frames of 95_test_vectors.md written out byte by byte decode to the instructions they stand for: S1, S3's header, V-M11's
first frame, V-L4's length form, V-E1, an empty pong. -/
def Obligations.WrittenOutFramesDecode : Prop :=
  decode [0x81, 0x02, 0x68, 0x69] =
      .ok (.text ⟨true, false, false, false, .direct 2, none, [0x68, 0x69]⟩, []) ∧
    decode [0x88, 0x02, 0x03, 0xE8, 0xFF] =
      .ok (.close ⟨true, false, false, false, .direct 2, none, [0x03, 0xE8]⟩, [0xFF]) ∧
    decode [0x01, 0x83, 0x01, 0x02, 0x03, 0x04, 0x49, 0x67, 0x6F] =
      .ok (.text ⟨false, false, false, false, .direct 3, some ⟨1, 2, 3, 4⟩, [0x49, 0x67, 0x6F]⟩, []) ∧
    decode [0xB0, 0x7E, 0x00, 0x01, 0x42] =
      .ok (.cont ⟨true, false, true, true, .ext16 1, none, [0x42]⟩, []) ∧
    decode [0x83, 0x00] = .ok (.op3 ⟨true, false, false, false, .direct 0, none, []⟩, []) ∧
    decode [0x8A, 0x00] = .ok (.pong ⟨true, false, false, false, .direct 0, none, []⟩, []) ∧
    decode [0x82, 0x7E, 0x00] = .error .extendedLength

/-- PLEN is the 7-bit length, the big-endian 16-bit length or the big-endian 64-bit length, zero-extended, and the frame has
exactly that many payload bytes (30_encoding.md R74). -/
def Obligations.PayloadLengthIsAssembledBigEndian : Prop :=
  ∀ (bs rest : List Byte) (i : Instr), decode bs = .ok (i, rest) →
    let at' := fun k => (bs.getD k 0).toNat
    let l7 := at' 1 % 128
    i.frame.payload.length = i.frame.len.plen.toNat ∧
    (l7 ≤ 125 → i.frame.len.plen.toNat = l7) ∧
    (l7 = 126 → i.frame.len.plen.toNat = at' 2 * 256 + at' 3) ∧
    (l7 = 127 → i.frame.len.plen.toNat =
      at' 2 * 256 ^ 7 + at' 3 * 256 ^ 6 + at' 4 * 256 ^ 5 + at' 5 * 256 ^ 4 + at' 6 * 256 ^ 3 + at' 7 * 256 ^ 2 +
        at' 8 * 256 + at' 9)

/-- Header length `2 + ext(LEN7) + 4*MASK`, frame length header length plus PLEN (30_encoding.md R84). -/
def Obligations.FrameLengthIsHeaderPlusPayload : Prop :=
  ∀ i : Instr, i.wf = true →
    let ext := if i.frame.len.len7.toNat ≤ 125 then 0 else if i.frame.len.len7.toNat = 126 then 2 else 8
    (header i.opcode i.frame).length = 2 + ext + 4 * i.frame.key.isSome.toNat ∧
      (encode i).length = (header i.opcode i.frame).length + i.frame.len.plen.toNat

/-! ## The byte-serial decoder -/

/-- The HDR0 step accepts every byte, writes the five header registers and PHASE, and nothing else
(42_header_decoder.md R110). -/
def Obligations.FirstHeaderByteFillsItsRegisters : Prop :=
  ∀ (b : Byte) (s : State), s.halted = false → s.phase = .hdr0 →
    pushByte b s = .next { s with
      hFin := b.toNat.testBit 7, hRsv1 := b.toNat.testBit 6, hRsv2 := b.toNat.testBit 5,
      hRsv3 := b.toNat.testBit 4, hOpcode := BitVec.ofNat 4 (b.toNat % 16), phase := .hdr1 }

/-- The byte-serial steps leave PLEN equal to the value that R74 gives for the same length bytes (42_header_decoder.md R114):
with a mask bit the decoder then waits for the key, without one PLEN keeps that value through header complete. -/
def Obligations.SerialLengthAssemblyGivesPlen : Prop :=
  ∀ (len : LenField) (s : State), len.wf = true → s.halted = false → s.phase = .hdr1 →
    (∃ t, pushAll (byte1 true len.len7 :: len.bytes) s = .next t ∧ t.plen.toNat = len.count ∧
      t.phase = .maskKey ∧ t.keyCnt = 0 ∧ t.key = s.key ∧ t.hMask = true ∧ t.hLen7 = len.len7) ∧
    (∀ t, pushAll (byte1 false len.len7 :: len.bytes) s = .next t →
      t.plen.toNat = len.count ∧ t.hMask = false ∧ t.hLen7 = len.len7 ∧ t.key = s.key)

/-- The decoder phase transitions (42_header_decoder.md R118): each row of the table, for a byte step that answers a next
state. -/
def Obligations.PhaseTransitionTable : Prop :=
  ∀ (b : Byte) (s t : State), s.halted = false → pushByte b s = .next t →
    let l7 := b.toNat % 128
    let headerDone := (t.halted = true ∧ t.phase = .hdr0) ∨
      (t.halted = false ∧ 0 < t.plen.toNat ∧ t.phase = .payload) ∨
      (t.halted = false ∧ t.plen.toNat = 0 ∧ t.phase = .hdr0)
    (s.phase = .hdr0 → t.phase = .hdr1) ∧
    (s.phase = .hdr1 → 126 ≤ l7 → t.phase = .extLen) ∧
    (s.phase = .hdr1 → l7 ≤ 125 → b.toNat.testBit 7 = true → t.phase = .maskKey) ∧
    (s.phase = .hdr1 → l7 ≤ 125 → b.toNat.testBit 7 = false → headerDone) ∧
    (s.phase = .extLen → s.extCnt.toNat + 1 < s.extNeed.toNat → t.phase = .extLen) ∧
    (s.phase = .extLen → s.extCnt.toNat + 1 = s.extNeed.toNat → s.hMask = true → t.phase = .maskKey) ∧
    (s.phase = .extLen → s.extCnt.toNat + 1 = s.extNeed.toNat → s.hMask = false → headerDone) ∧
    (s.phase = .maskKey → s.keyCnt.toNat + 1 < 4 → t.phase = .maskKey) ∧
    (s.phase = .maskKey → s.keyCnt.toNat + 1 = 4 → headerDone) ∧
    (s.phase = .payload → s.pcnt.toNat + 1 < s.plen.toNat → t.phase = .payload) ∧
    (s.phase = .payload → s.pcnt.toNat + 1 = s.plen.toNat → t.phase = .hdr0)

/-- Chunk-boundary invariance (44_parser.md R162): PARSE(a) and then PARSE(b) is PARSE(a ++ b), from every state. -/
def Obligations.ParseOfConcatenation : Prop :=
  ∀ (a b : List Byte) (s : State), pushAll (a ++ b) s = andThen (pushAll a s) (pushAll b)

/-- The meaning of a whole frame is what PUSH of its bytes one by one does, in every state at a frame boundary: the
byte-serial result of 70_reset_and_hazards.md R260 and 41_mask_engine.md R106. -/
def Obligations.FrameMeaningIsByteSerial : Prop :=
  ∀ (i : Instr) (s : State), i.wf = true → s.phase = .hdr0 → exec i s = pushAll (encode i) s

/-- What a byte step does depends neither on the records that wait in EVT nor on EVT_DEPTH: the records it appends and
every other register are the same (44_parser.md R163). -/
def Obligations.PushIgnoresEventPort : Prop :=
  ∀ (b : Byte) (s t : State) (queue : List Event) (depth : Option Nat), pushByte b s = .next t →
    ∃ more : List Event, t.evt = s.evt ++ more ∧
      pushByte b { s with evt := queue, params := { s.params with evtDepth := depth } } =
        .next { t with evt := queue ++ more, params := { t.params with evtDepth := depth } }

/-! ## Steps -/

/-- When a whole frame waits at the port of a decoder at a frame boundary and it is the frame's turn, the step is the
frame's meaning, with the frame's bytes consumed and the schedule moved on. The turns are the model's (log entry 3). -/
def Obligations.StepRunsTheWaitingFrame : Prop :=
  ∀ (s : State) (i : Instr) (rest : List Byte), i.wf = true → s.inp = encode i ++ rest → s.phase = .hdr0 →
    turnOf s = .frame → portOpen s = true →
    step s = exec i { s with inp := rest, sched := s.sched.tail }

/-- On a byte's turn an open port consumes exactly one byte, by PUSH (44_parser.md R160; 20_memory.md R68). -/
def Obligations.StepPushesOneByte : Prop :=
  ∀ (s : State) (b : Byte) (rest : List Byte), s.inp = b :: rest → turnOf s = .byte → portOpen s = true →
    step s = pushByte b { s with inp := rest, sched := s.sched.tail }

/-- While EVT holds EVT_DEPTH records and the block is not halted, no byte is consumed and none is lost, no register changes,
and no record is dropped or reordered: the only change of EVT is a drain from its head (20_memory.md R68;
70_reset_and_hazards.md R256). -/
def Obligations.FullEventPortHoldsTheInput : Prop :=
  ∀ (s : State) (d : Nat), s.params.evtDepth = some d → d ≤ s.evt.length → s.halted = false →
    s.host.head? ≠ some .reset →
    ∃ t, step s = .next t ∧ s.inp <+: t.inp ∧ SameRegisters s t ∧
      (t.evt = s.evt ∨ ∃ e, s.evt = e :: t.evt ∧ t.resp = s.resp ++ [.drained e])

/-- A step other than RESET appends at most one record to EVT, or drains one from its head (20_memory.md R61, R67, R68;
60_exceptions.md R226). -/
def Obligations.StepAppendsAtMostOneRecord : Prop :=
  ∀ s t : State, step s = .next t → s.host.head? ≠ some .reset →
    AtMostOneMore s.evt t.evt ∨ ∃ e, s.evt = e :: t.evt ∧ t.resp = s.resp ++ [.drained e]

/-- Configuration changes at RESET only, where it is sampled from the inputs (10_state.md R21). -/
def Obligations.ConfigurationChangesOnlyAtReset : Prop :=
  (∀ s t : State, step s = .next t → s.host.head? ≠ some .reset → SameConfig s t) ∧
    (∀ (s : State) (c : ConfigInputs), SameRegisters s (serve (.driveInputs c) s)) ∧
    (∀ s : State, (serve .reset s).requireMasking = s.pins.requireMasking ∧
      (serve .reset s).strictLen = s.pins.strictLen.getD true ∧ (serve .reset s).txMasking = s.pins.txMasking)

/-- HALTED is set by the error entry only: a step that halts the block appends one Error record whose code and cause are the
error registers, and leaves PHASE at HDR0 (10_state.md R39; 60_exceptions.md R230). -/
def Obligations.OnlyTheErrorEntryHalts : Prop :=
  ∀ s t : State, step s = .next t → s.halted = false → t.halted = true →
    ∃ c : Cause, t.errCause = c.code ∧ t.errCode = statusCode c s ∧ t.phase = .hdr0 ∧
      t.evt = s.evt ++ [.error (statusCode c s) c.code (reasonText c)]

/-! ## The invariant -/

/-- The state after reset meets the invariant (10_state.md R43), and so does what RESET leaves of any state, with any inputs and
parameters (70_reset_and_hazards.md R250). -/
def Obligations.ResetMeetsTheInvariant : Prop := State.reset.Inv ∧ ∀ s : State, (serve .reset s).Inv

/-- Every step from a state that meets the invariant leads to one that meets it: the bytes, the host's transactions, the
schedule, the configuration and the parameters are whatever they are (10_state.md R43, R30, R31; 20_memory.md R59). -/
def Obligations.EveryStepKeepsTheInvariant : Prop :=
  ∀ s t : State, s.Inv → step s = .next t → t.Inv

/-- From every state that meets the invariant the machine goes on, with every byte and every transaction: no fault and no
refusal (44_parser.md R160 "PUSH is total"). -/
def Obligations.EveryStepGoesOn : Prop :=
  ∀ s : State, s.Inv → ∃ t, step s = .next t

/-- `PCNT <= PLEN` (10_state.md R43 item 1) is not kept by the steps as R111 and R116 write them: after a frame of three
payload bytes, the header of a masked frame of two leaves PCNT at 3 and PLEN at 2 until header complete, and the error entry
of a reserved frame of two keeps them so. Everywhere else the invariant states item 1 (log entry 11). -/
def Obligations.StalePayloadCounterInAHeader : Prop :=
  (∃ t, pushAll [0x82, 0x03, 0x01, 0x02, 0x03, 0x81, 0x82] State.reset = .next t ∧ t.phase = .maskKey ∧
    t.plen.toNat < t.pcnt.toNat) ∧
  (∃ t, pushAll [0x82, 0x03, 0x01, 0x02, 0x03, 0x83, 0x02] State.reset = .next t ∧ t.halted = true ∧
    t.plen.toNat < t.pcnt.toNat)

/-! ## The error entry -/

/-- `raise ProtocolError(cause)` (60_exceptions.md R230). -/
def Obligations.ErrorEntryRecordsAndHalts : Prop :=
  ∀ (c : Cause) (s : State),
    StopsWithError c.code (if c.code = 9 then s.params.tooBigCode else 1002) (reasonText c) s (.next (raiseError c s)) ∧
      SameHeader { s with phase := .hdr0 } (raiseError c s)

/-- While HALTED every PUSH and every frame is discarded and nothing changes (44_parser.md R160; 60_exceptions.md R231). -/
def Obligations.HaltedInputIsDiscarded : Prop :=
  ∀ s : State, s.halted = true → (∀ b, pushByte b s = .next s) ∧ (∀ i, exec i s = .next s)

/-- Halted is terminal (60_exceptions.md R231): every PUSH discards its byte; every step other than RESET goes on with no
register changed, HALTED among them, and no record appended; RESET clears HALTED. -/
def Obligations.HaltedUntilReset : Prop :=
  (∀ (s : State) (b : Byte), s.halted = true → pushByte b s = .next s) ∧
  (∀ s : State, s.halted = true → s.host.head? ≠ some .reset →
    ∃ t, step s = .next t ∧ SameRegisters s t ∧
      (t.evt = s.evt ∨ ∃ e, s.evt = e :: t.evt ∧ t.resp = s.resp ++ [.drained e])) ∧
    (∀ s : State, (serve .reset s).halted = false)

/-- The error reported is the first in the order of the causes: VALIDATE answers the cause whose condition holds while no
smaller cause's does, and none exactly when no condition holds (42_header_decoder.md R119; 60_exceptions.md R225). -/
def Obligations.FirstFailingCheckIsReported : Prop :=
  ∀ s : State,
    (∀ c, validate s = some c ↔
      checkFails c s = true ∧ ∀ d : Cause, d.code.toNat < c.code.toNat → checkFails d s = false) ∧
    (validate s = none ↔ ∀ c, checkFails c s = false) ∧
    (∀ c, validate s = some c → headerComplete s = .next (raiseError c s))

/-- RSV bits are never an error: no check looks at them (30_encoding.md R81). -/
def Obligations.RsvBitsAreNeverAnError : Prop :=
  ∀ (s : State) (r1 r2 r3 : Bool), validate { s with hRsv1 := r1, hRsv2 := r2, hRsv3 := r3 } = validate s

/-- Check 1 (42_header_decoder.md R120): a frame with a reserved opcode completes with cause 1, whatever FIN, MASK, the RSV
bits and the length are, and whether or not a message is open. -/
def Obligations.ReservedOpcodeFrameEffect : Prop :=
  ∀ (f : Frame) (s : State), s.halted = false → ∀ i ∈ reservedFrames f,
    StopsWithError 1 1002 (reasonText .reservedOpcode) s (exec i s)

/-- Check 2 (42_header_decoder.md R121). -/
def Obligations.FragmentedControlFrameIsRejected : Prop :=
  ∀ (f : Frame) (s : State), s.halted = false → f.fin = false → ∀ i ∈ controlFrames f,
    StopsWithError 2 1002 (reasonText .fragmentedControl) s (exec i s)

/-- Check 3 (42_header_decoder.md R122): it reads the decoded PLEN, not LEN7. -/
def Obligations.LongControlFrameIsRejected : Prop :=
  ∀ (f : Frame) (s : State), s.halted = false → f.fin = true → 125 < f.len.count → ∀ i ∈ controlFrames f,
    StopsWithError 3 1002 (reasonText .controlTooLong) s (exec i s)

/-- Check 4 (42_header_decoder.md R123): it applies to every frame that no earlier check stops. -/
def Obligations.WrongMaskBitIsRejected : Prop :=
  ∀ (f : Frame) (s : State), s.halted = false → f.key.isSome ≠ s.requireMasking →
    (∀ i ∈ .cont f :: dataFrames f, StopsWithError 4 1002 (reasonText .maskMismatch) s (exec i s)) ∧
    (f.fin = true → f.len.count ≤ 125 → ∀ i ∈ controlFrames f,
      StopsWithError 4 1002 (reasonText .maskMismatch) s (exec i s))

/-- Check 5 (42_header_decoder.md R124): whether FIN is 0 or 1. -/
def Obligations.ContinuationWithoutMessageIsRejected : Prop :=
  ∀ (f : Frame) (s : State), s.halted = false → f.key.isSome = s.requireMasking → s.msgOpen = false →
    StopsWithError 5 1002 (reasonText .unexpectedContinuation) s (exec (.cont f) s)

/-- Check 6 (42_header_decoder.md R125): whether FIN is 0 or 1, and whatever the opcodes are. -/
def Obligations.DataFrameInsideMessageIsRejected : Prop :=
  ∀ (f : Frame) (s : State), s.halted = false → f.key.isSome = s.requireMasking → s.msgOpen = true →
    ∀ i ∈ dataFrames f, StopsWithError 6 1002 (reasonText .dataWhileOpen) s (exec i s)

/-- Check 7 (42_header_decoder.md R126): under STRICT_LEN a length encoding that is not minimal, for every opcode. -/
def Obligations.NonMinimalLengthIsRejected : Prop :=
  ∀ (f : Frame) (s : State), s.halted = false → f.key.isSome = s.requireMasking → s.strictLen = true →
    ¬ShortestForm f.len →
    (s.msgOpen = true → StopsWithError 7 1002 (reasonText .nonMinimalLength) s (exec (.cont f) s)) ∧
    (s.msgOpen = false → ∀ i ∈ dataFrames f,
      StopsWithError 7 1002 (reasonText .nonMinimalLength) s (exec i s)) ∧
    (f.fin = true → f.len.count ≤ 125 → ∀ i ∈ controlFrames f,
      StopsWithError 7 1002 (reasonText .nonMinimalLength) s (exec i s))

/-- Check 8 (42_header_decoder.md R127), with the reason text "invalid close frame". That the text's bytes are ASCII is the
model's choice (log entry 7). -/
def Obligations.OneByteCloseIsRejected : Prop :=
  ∀ (f : Frame) (s : State), AcceptedControl f s → f.payload.length = 1 →
    StopsWithError 8 1002 ("invalid close frame".toList.map fun c => BitVec.ofNat 8 c.toNat) s (exec (.close f) s)

/-- Check 9 (42_header_decoder.md R128), with the code TOO_BIG_CODE. -/
def Obligations.TooBigMessageIsRejected : Prop :=
  ∀ (f : Frame) (s : State) (m : Nat), Accepted f s → s.params.maxMessageBytes = some m →
    m < s.msgLen + f.payload.length →
    (s.msgOpen = true → StopsWithError 9 s.params.tooBigCode (reasonText .messageTooBig) s (exec (.cont f) s)) ∧
    (s.msgOpen = false → ∀ i ∈ dataFrames f,
      StopsWithError 9 s.params.tooBigCode (reasonText .messageTooBig) s (exec i s))

/-! ## The frames -/

/-- TEXT (44_parser.md R173): with FIN = 1 the message is delivered whole, with FIN = 0 it is opened and its payload kept; a
TEXT frame that halts a running decoder does so with cause 4, 6, 7 or 9. -/
def Obligations.TextFrameEffect : Prop :=
  (∀ (f : Frame) (s : State), Accepted f s → s.msgOpen = false → s.msgLen = 0 → Fits s f.payload.length →
    (f.fin = true → ∃ t, exec (.text f) s = .next t ∧
      t.evt = s.evt ++ [.message 1 f.rsv1 f.rsv2 f.rsv3 (appPayload f)] ∧ MessageClosed t ∧ t.phase = .hdr0 ∧
      SameError s t) ∧
    (f.fin = false → ∃ t, exec (.text f) s = .next t ∧ t.evt = s.evt ∧
      MessageOpenAs 1 f.rsv1 f.rsv2 f.rsv3 t ∧ t.msgLen = f.payload.length ∧
      t.msgBuf.readBytes 0 t.msgLen = some (appPayload f) ∧ t.phase = .hdr0 ∧ SameError s t)) ∧
  (∀ (f : Frame) (s t : State), s.halted = false → exec (.text f) s = .next t → t.halted = true →
    t.errCause = 4 ∨ t.errCause = 6 ∨ t.errCause = 7 ∨ t.errCause = 9)

/-- BINARY (44_parser.md R174): as TEXT, with opcode 2. -/
def Obligations.BinaryFrameEffect : Prop :=
  (∀ (f : Frame) (s : State), Accepted f s → s.msgOpen = false → s.msgLen = 0 → Fits s f.payload.length →
    (f.fin = true → ∃ t, exec (.binary f) s = .next t ∧
      t.evt = s.evt ++ [.message 2 f.rsv1 f.rsv2 f.rsv3 (appPayload f)] ∧ MessageClosed t ∧ t.phase = .hdr0 ∧
      SameError s t) ∧
    (f.fin = false → ∃ t, exec (.binary f) s = .next t ∧ t.evt = s.evt ∧
      MessageOpenAs 2 f.rsv1 f.rsv2 f.rsv3 t ∧ t.msgLen = f.payload.length ∧
      t.msgBuf.readBytes 0 t.msgLen = some (appPayload f) ∧ t.phase = .hdr0 ∧ SameError s t)) ∧
  (∀ (f : Frame) (s t : State), s.halted = false → exec (.binary f) s = .next t → t.halted = true →
    t.errCause = 4 ∨ t.errCause = 6 ∨ t.errCause = 7 ∨ t.errCause = 9)

/-- CONT (44_parser.md R175): its payload is appended; with FIN = 1 the message is delivered with the opcode and RSV bits of
its initiating frame and closed, with FIN = 0 it stays open; the causes are 4, 5, 7 and 9. -/
def Obligations.ContinuationFrameEffect : Prop :=
  (∀ (f : Frame) (s : State) (old : List Byte), Accepted f s → s.msgOpen = true → Fits s f.payload.length →
    s.msgBuf.readBytes 0 s.msgLen = some old →
    (f.fin = true → ∃ t, exec (.cont f) s = .next t ∧
      t.evt = s.evt ++ [.message s.msgOpcode s.msgRsv1 s.msgRsv2 s.msgRsv3 (old ++ appPayload f)] ∧
      MessageClosed t ∧ t.phase = .hdr0 ∧ SameError s t) ∧
    (f.fin = false → ∃ t, exec (.cont f) s = .next t ∧ t.evt = s.evt ∧
      MessageOpenAs s.msgOpcode s.msgRsv1 s.msgRsv2 s.msgRsv3 t ∧ t.msgLen = s.msgLen + f.payload.length ∧
      t.msgBuf.readBytes 0 t.msgLen = some (old ++ appPayload f) ∧ t.phase = .hdr0 ∧ SameError s t)) ∧
  (∀ (f : Frame) (s t : State), s.halted = false → exec (.cont f) s = .next t → t.halted = true →
    t.errCause = 4 ∨ t.errCause = 5 ∨ t.errCause = 7 ∨ t.errCause = 9)

/-- CLOSE (44_parser.md R180): an empty payload reports 1005 with an empty reason, otherwise the code is the first two bytes
big-endian and the reason the rest, whatever they are; decoding goes on; the causes are 2, 3, 4, 7 and 8. -/
def Obligations.CloseFrameEffect : Prop :=
  (∀ (f : Frame) (s : State), AcceptedControl f s → f.payload.length ≠ 1 →
    ∃ t, exec (.close f) s = .next t ∧ t.evt = s.evt ++ closeEvents (appPayload f) ∧ SameMessage s t ∧
      t.msgBuf = s.msgBuf ∧ t.phase = .hdr0 ∧ SameError s t) ∧
  (∀ (f : Frame) (s t : State), s.halted = false → exec (.close f) s = .next t → t.halted = true →
    t.errCause = 2 ∨ t.errCause = 3 ∨ t.errCause = 4 ∨ t.errCause = 7 ∨ t.errCause = 8)

/-- PING (44_parser.md R181): one Ping record with the payload and never a Pong; the causes are 2, 3, 4 and 7. -/
def Obligations.PingFrameEffect : Prop :=
  (∀ (f : Frame) (s : State), AcceptedControl f s →
    ∃ t, exec (.ping f) s = .next t ∧ t.evt = s.evt ++ [.ping (appPayload f)] ∧ SameMessage s t ∧
      t.msgBuf = s.msgBuf ∧ t.phase = .hdr0 ∧ SameError s t) ∧
  (∀ (f : Frame) (s t : State), s.halted = false → exec (.ping f) s = .next t → t.halted = true →
    t.errCause = 2 ∨ t.errCause = 3 ∨ t.errCause = 4 ∨ t.errCause = 7)

/-- PONG (44_parser.md R182): one Pong record, whether or not a ping was sent; the causes are 2, 3, 4 and 7. -/
def Obligations.PongFrameEffect : Prop :=
  (∀ (f : Frame) (s : State), AcceptedControl f s →
    ∃ t, exec (.pong f) s = .next t ∧ t.evt = s.evt ++ [.pong (appPayload f)] ∧ SameMessage s t ∧
      t.msgBuf = s.msgBuf ∧ t.phase = .hdr0 ∧ SameError s t) ∧
  (∀ (f : Frame) (s t : State), s.halted = false → exec (.pong f) s = .next t → t.halted = true →
    t.errCause = 2 ∨ t.errCause = 3 ∨ t.errCause = 4 ∨ t.errCause = 7)

/-- The header registers of every frame a running decoder takes, rejected frames included, hold the frame's own fields, and
KEY keeps its value when the frame has no key (42_header_decoder.md R110 to R113; 10_state.md R27; 60_exceptions.md R221).
PCNT counts the payload of a valid frame and keeps its value for a rejected one (42_header_decoder.md R116). -/
def Obligations.EveryFrameLeavesItsFieldsInTheHeader : Prop :=
  ∀ (i : Instr) (s t : State), i.wf = true → s.halted = false → exec i s = .next t →
    let f := i.frame
    t.hFin = f.fin ∧ t.hRsv1 = f.rsv1 ∧ t.hRsv2 = f.rsv2 ∧ t.hRsv3 = f.rsv3 ∧ t.hOpcode = i.opcode ∧
    t.hMask = f.key.isSome ∧ t.hLen7 = f.len.len7 ∧ t.plen.toNat = f.payload.length ∧
    t.key = f.key.getD s.key ∧ t.keyCnt.toNat = 4 * f.key.isSome.toNat ∧
    t.extNeed.toNat = f.len.bytes.length ∧ t.extCnt = t.extNeed ∧
    t.ext.toNat = (if f.len.len7.toNat ≤ 125 then 0 else f.payload.length) ∧
    (t.halted = true → t.pcnt = s.pcnt) ∧ (t.halted = false → t.pcnt = t.plen)

/-- The frame of CONT, TEXT and BINARY: they store at MSG_LEN and the addresses after it, one byte for each payload byte, and
nowhere else; a rejected one stores nothing and keeps the open message; CTRL_BUF, the configuration and the host's side
never change, the key only when the frame has one, the error registers only with the halt (10_state.md R36;
43_reassembler.md R142; 60_exceptions.md R230). -/
def Obligations.DataFramesChangeOnlyTheirOwn : Prop :=
  ∀ (f : Frame) (s t : State), f.wf = true → ∀ i ∈ .cont f :: dataFrames f, exec i s = .next t →
    SameConfig s t ∧ SameHostSide s t ∧ t.ctrlBuf = s.ctrlBuf ∧ AtMostOneMore s.evt t.evt ∧
    (∀ a, a < s.msgLen ∨ s.msgLen + f.payload.length ≤ a → t.msgBuf.read a = s.msgBuf.read a) ∧
    (t.halted = true → t.msgBuf = s.msgBuf ∧ SameMessage s t) ∧
    (t.halted = s.halted → SameError s t) ∧ (f.key = none → t.key = s.key)

/-- The frame of CLOSE, PING and PONG: they store at the CTRL_BUF addresses from 0 on, one byte for each payload byte, and
nowhere else; a rejected one stores nothing; no reassembler register and no byte of MSG_BUF changes, nor the
configuration, nor the host's side, the key only when the frame has one, the error registers only with the halt
(43_reassembler.md R140; 44_parser.md R177). -/
def Obligations.ControlFramesChangeOnlyTheirOwn : Prop :=
  ∀ (f : Frame) (s t : State), f.wf = true → ∀ i ∈ controlFrames f, exec i s = .next t →
    SameConfig s t ∧ SameHostSide s t ∧ SameMessage s t ∧ t.msgBuf = s.msgBuf ∧ AtMostOneMore s.evt t.evt ∧
    (∀ a, f.payload.length ≤ a → t.ctrlBuf.read a = s.ctrlBuf.read a) ∧
    (t.halted = true → t.ctrlBuf = s.ctrlBuf) ∧
    (t.halted = s.halted → SameError s t) ∧ (f.key = none → t.key = s.key)

/-- Interleaving (44_parser.md R177): after a valid control frame, the next continuation frame does to the message, to its
buffer and to the events what it does without the control frame. -/
def Obligations.ControlFrameLeavesTheMessageAlone : Prop :=
  ∀ (c f : Frame) (s u t : State), c.wf = true → f.wf = true → ∀ i ∈ controlFrames c,
    exec i s = .next u → u.halted = false → exec (.cont f) u = .next t →
    ∃ v more, exec (.cont f) s = .next v ∧ SameMessage v t ∧ t.msgBuf = v.msgBuf ∧ SameError v t ∧
      v.evt = s.evt ++ more ∧ t.evt = u.evt ++ more

/-- Fragmentation (44_parser.md R195): an initiating frame with FIN = 0, continuation frames with FIN = 0 and valid control
frames in any order, and a continuation frame with FIN = 1 yield each control frame's own record in its place and exactly
one Message, with the initiating frame's opcode and RSV bits and the concatenated payload. -/
def Obligations.FragmentedMessageIsDeliveredOnce : Prop :=
  ∀ (first last : Frame) (between : List Instr) (s : State), Accepted first s → first.fin = false →
    (∀ i ∈ between, MayInterleave s i) → Accepted last s → last.fin = true → s.msgOpen = false → s.msgLen = 0 →
    Fits s (first.payload.length + (between.flatMap fragmentBytes).length + last.payload.length) →
    ∀ (op : BitVec 4) (i : Instr), (op = 1 ∧ i = .text first) ∨ (op = 2 ∧ i = .binary first) →
      ∃ t, runFrames (i :: between ++ [.cont last]) s = .next t ∧
        t.evt = s.evt ++ between.flatMap controlEvents ++
          [.message op first.rsv1 first.rsv2 first.rsv3
            (appPayload first ++ between.flatMap fragmentBytes ++ appPayload last)] ∧
        MessageClosed t ∧ t.halted = false

/-! ## The masking engine -/

/-- `MASK_APPLY` (41_mask_engine.md R100): as many bytes as the payload has, byte `i` combined with `key[i mod 4]`. -/
def Obligations.MaskApplyIsBytewiseXor : Prop :=
  ∀ (p : List Byte) (k : Key), (maskApply p k).length = p.length ∧
    ∀ i, i < p.length →
      (maskApply p k).getD i 0 = p.getD i 0 ^^^ [k.k0, k.k1, k.k2, k.k3].getD (i % 4) 0

/-- The masking transform is its own inverse (41_mask_engine.md R104). -/
def Obligations.MaskApplyIsSelfInverse : Prop :=
  ∀ (p : List Byte) (k : Key), maskApply (maskApply p k) k = p

/-- The split law (41_mask_engine.md R105). -/
def Obligations.MaskApplySplits : Prop :=
  ∀ (a b : List Byte) (k : Key),
    (a.length % 4 = 0 → maskApply (a ++ b) k = maskApply a k ++ maskApply b k) ∧
    maskApply (a ++ b) k = maskApply a k ++ maskFrom k (a.length % 4) b

/-! ## The encoder -/

/-- The wire bytes of `FRAME(d)` (45_encoder.md R201), byte by byte, for every descriptor without violation. -/
def Obligations.FrameRequestGivesTheWireBytes : Prop :=
  ∀ (tx : Bool) (d : Descriptor), d.payloadLength = d.payload.length → d.payloadLength < 2 ^ 64 →
    (tx = true → d.maskingKey.isSome = true) →
    let n := d.payloadLength
    let m := 128 * tx.toNat
    let b := fun v : Nat => (BitVec.ofNat 8 v : Byte)
    frameResponse tx d = .bytes (
      [b (128 * d.fin.toNat + 64 * d.rsv1.toNat + 32 * d.rsv2.toNat + 16 * d.rsv3.toNat + d.opcode.toNat)] ++
      (if n < 126 then [b (m + n)]
       else if n ≤ 65535 then [b (m + 126), b (n / 256), b n]
       else [b (m + 127), b (n / 2 ^ 56), b (n / 2 ^ 48), b (n / 2 ^ 40), b (n / 2 ^ 32), b (n / 2 ^ 24),
         b (n / 2 ^ 16), b (n / 2 ^ 8), b n]) ++
      keyAndPayload tx d.maskingKey d.payload)

/-- The contract violations and their order (45_encoder.md R205). -/
def Obligations.ContractViolationsInOrder : Prop :=
  ∀ (tx : Bool) (d : Descriptor),
    (frameResponse tx d = .violation .lengthMismatch ↔ d.payloadLength ≠ d.payload.length) ∧
    (frameResponse tx d = .violation .lengthRange ↔
      d.payloadLength = d.payload.length ∧ 2 ^ 64 ≤ d.payloadLength) ∧
    (frameResponse tx d = .violation .noKey ↔
      d.payloadLength = d.payload.length ∧ d.payloadLength < 2 ^ 64 ∧ tx = true ∧ d.maskingKey = none)

/-- Output length (45_encoder.md R204). -/
def Obligations.FrameRequestOutputLength : Prop :=
  ∀ (tx : Bool) (d : Descriptor) (w : List Byte), frameResponse tx d = .bytes w →
    w.length = 2 + (if d.payloadLength < 126 then 0 else if d.payloadLength ≤ 65535 then 2 else 8) +
      4 * tx.toNat + d.payloadLength

/-- The encoder's output is one whole frame with the descriptor's fields, the mask bit TX_MASKING, a minimal length and the
descriptor's payload, whatever the descriptor's opcode and FIN are (45_encoder.md R202, R203, R206). -/
def Obligations.FrameRequestOutputDecodes : Prop :=
  ∀ (tx : Bool) (d : Descriptor) (w rest : List Byte), frameResponse tx d = .bytes w →
    ∃ f : Frame, decode (w ++ rest) = .ok (instrOf d.opcode f, rest) ∧ f.fin = d.fin ∧ f.rsv1 = d.rsv1 ∧
      f.rsv2 = d.rsv2 ∧ f.rsv3 = d.rsv3 ∧ f.key = (if tx then d.maskingKey else none) ∧ ShortestForm f.len ∧
      appPayload f = d.payload

/-- Round trip, unmasked and masked (44_parser.md R193, R194): the encoder's bytes, pushed into a decoder whose REQUIRE_MASKING is
the encoder's TX_MASKING, append exactly the event that matches the descriptor. -/
def Obligations.EncodedFrameComesBackAsItsEvent : Prop :=
  ∀ (tx : Bool) (d : Descriptor) (w : List Byte) (s : State), frameResponse tx d = .bytes w → d.fin = true →
    (d.opcode = 1 ∨ d.opcode = 2 ∨ d.opcode = 8 ∨ d.opcode = 9 ∨ d.opcode = 10) →
    (isControl d.opcode = true → d.payload.length ≤ 125) → (d.opcode = 8 → d.payload.length ≠ 1) →
    (isData d.opcode = true → Fits s d.payload.length) →
    s.halted = false → s.phase = .hdr0 → s.requireMasking = tx → s.msgOpen = false → s.msgLen = 0 →
    ∃ t, pushAll w s = .next t ∧ t.evt = s.evt ++ eventsOf d ∧ t.halted = false

/-! ## The host's ports -/

/-- No host transaction but RESET changes a register or a buffer, and none but RESET and DRAIN changes EVT: status reads, FRAME,
driving the inputs and presenting bytes have no other effect (20_memory.md R57, R66, R67; 10_state.md R35, R42). PUSH and PARSE
present their bytes behind the waiting ones, in order (44_parser.md R160, R161; log entry 2). FRAME is answered with what
the encoder makes of the descriptor under CR0.TX_MASKING (10_state.md R22; 45_encoder.md R200, R203). On the host's turn a
step serves its oldest transaction: every one at all times (60_exceptions.md R241), but for a DRAIN, which waits for a record
(44_parser.md R191; log entries 2 and 3). -/
def Obligations.HostTransactionsLeaveTheRegisters : Prop :=
  (∀ (op : HostOp) (s : State), op ≠ .reset →
    SameRegisters s (serve op s) ∧ (op ≠ .drain → (serve op s).evt = s.evt)) ∧
  (∀ (b : Byte) (s : State), serve (.push b) s = { s with inp := s.inp ++ [b] }) ∧
  (∀ (c : List Byte) (s : State), serve (.parse c) s = { s with inp := s.inp ++ c }) ∧
  (∀ (d : Descriptor) (s : State),
    serve (.frame d) s = { s with resp := s.resp ++ [frameResponse s.txMasking d] }) ∧
  (∀ (c : ConfigInputs) (s : State), serve (.driveInputs c) s = { s with pins := c }) ∧
  (∀ (s : State) (op : HostOp) (rest : List HostOp), turnOf s = .host → s.host = op :: rest →
    (op = .drain → s.evt ≠ []) → step s = .next (serve op { s with host := rest, sched := s.sched.tail }))

/-- DRAIN (44_parser.md R191): on the host's turn the head record leaves EVT and is returned, with no other effect; with EVT
empty the host waits and its transaction stays. -/
def Obligations.DrainTakesTheHeadRecord : Prop :=
  ∀ (s : State) (rest : List HostOp), turnOf s = .host → s.host = .drain :: rest →
    (∀ e es, s.evt = e :: es →
      ∃ t, step s = .next t ∧ t.evt = es ∧ t.resp = s.resp ++ [.drained e] ∧ t.host = rest ∧ t.inp = s.inp ∧
        SameRegisters s t) ∧
    (s.evt = [] → s.inp = [] →
      ∃ t, step s = .next t ∧ t.evt = [] ∧ t.resp = s.resp ∧ t.host = s.host ∧ SameRegisters s t)

/-- READ_STATUS (10_state.md R35): CR0 with its fields in place (R22), CR1 (R23), CR2 with its fields in place, reserved bits 0, and
the refusal of every other register; the answer is the only effect. That a refused read is answered "refused", and CR1 as a
natural number or INF, is the model's choice (DESIGN CHOICE, log entry 14). -/
def Obligations.StatusReadsShowTheirFields : Prop :=
  ∀ s : State,
    (∃ v : BitVec 32, serve (.readStatus 0) s = answer (.status 0 (.word v)) s ∧
      v.toNat = s.requireMasking.toNat + 2 * s.strictLen.toNat + 4 * s.txMasking.toNat) ∧
    serve (.readStatus 1) s = answer (.status 1 (.limit s.params.maxMessageBytes)) s ∧
    (∃ v : BitVec 32, serve (.readStatus 2) s = answer (.status 2 (.word v)) s ∧
      v.toNat = s.halted.toNat + 2 * s.msgOpen.toNat + 4 * phaseNumber s.phase + 32 * s.errCause.toNat +
        65536 * s.errCode.toNat) ∧
    (∀ n, 3 ≤ n → serve (.readStatus n) s = answer (.statusRefused n) s)

/-- RESET on the host's turn (70_reset_and_hazards.md R250; 10_state.md R41): the configuration from the inputs, every register
of the table at its value, EVT empty; the parameters stay. -/
def Obligations.ResetGivesTheTabledValues : Prop :=
  ∀ (s : State) (rest : List HostOp), turnOf s = .host → s.host = .reset :: rest →
    ∃ t, step s = .next t ∧ t.requireMasking = s.pins.requireMasking ∧ t.strictLen = s.pins.strictLen.getD true ∧
      t.txMasking = s.pins.txMasking ∧ t.params = s.params ∧ t.phase = .hdr0 ∧ t.hFin = false ∧ t.hRsv1 = false ∧
      t.hRsv2 = false ∧ t.hRsv3 = false ∧ t.hOpcode = 0 ∧ t.hMask = false ∧ t.hLen7 = 0 ∧ t.ext = 0 ∧
      t.extNeed = 0 ∧ t.extCnt = 0 ∧ t.key = ⟨0, 0, 0, 0⟩ ∧ t.keyCnt = 0 ∧ t.plen = 0 ∧ t.pcnt = 0 ∧
      MessageClosed t ∧ t.halted = false ∧ t.errCode = 0 ∧ t.errCause = 0 ∧ t.evt = []
end

