-- ==== Sys2Proof/Laws/State.lean ====
section
/-! SUPPORT. One lemma per field of State per update of it: what the field holds after the update. -/

namespace Sys2Proof.Machine

variable (s : State)

/-! ## `emit` -/

@[simp] theorem emit_params (e : Event) : (emit e s).params = s.params := rfl
@[simp] theorem emit_requireMasking (e : Event) : (emit e s).requireMasking = s.requireMasking := rfl
@[simp] theorem emit_strictLen (e : Event) : (emit e s).strictLen = s.strictLen := rfl
@[simp] theorem emit_txMasking (e : Event) : (emit e s).txMasking = s.txMasking := rfl
@[simp] theorem emit_phase (e : Event) : (emit e s).phase = s.phase := rfl
@[simp] theorem emit_hFin (e : Event) : (emit e s).hFin = s.hFin := rfl
@[simp] theorem emit_hRsv1 (e : Event) : (emit e s).hRsv1 = s.hRsv1 := rfl
@[simp] theorem emit_hRsv2 (e : Event) : (emit e s).hRsv2 = s.hRsv2 := rfl
@[simp] theorem emit_hRsv3 (e : Event) : (emit e s).hRsv3 = s.hRsv3 := rfl
@[simp] theorem emit_hOpcode (e : Event) : (emit e s).hOpcode = s.hOpcode := rfl
@[simp] theorem emit_hMask (e : Event) : (emit e s).hMask = s.hMask := rfl
@[simp] theorem emit_hLen7 (e : Event) : (emit e s).hLen7 = s.hLen7 := rfl
@[simp] theorem emit_ext (e : Event) : (emit e s).ext = s.ext := rfl
@[simp] theorem emit_extNeed (e : Event) : (emit e s).extNeed = s.extNeed := rfl
@[simp] theorem emit_extCnt (e : Event) : (emit e s).extCnt = s.extCnt := rfl
@[simp] theorem emit_key (e : Event) : (emit e s).key = s.key := rfl
@[simp] theorem emit_keyCnt (e : Event) : (emit e s).keyCnt = s.keyCnt := rfl
@[simp] theorem emit_plen (e : Event) : (emit e s).plen = s.plen := rfl
@[simp] theorem emit_pcnt (e : Event) : (emit e s).pcnt = s.pcnt := rfl
@[simp] theorem emit_msgOpen (e : Event) : (emit e s).msgOpen = s.msgOpen := rfl
@[simp] theorem emit_msgOpcode (e : Event) : (emit e s).msgOpcode = s.msgOpcode := rfl
@[simp] theorem emit_msgRsv1 (e : Event) : (emit e s).msgRsv1 = s.msgRsv1 := rfl
@[simp] theorem emit_msgRsv2 (e : Event) : (emit e s).msgRsv2 = s.msgRsv2 := rfl
@[simp] theorem emit_msgRsv3 (e : Event) : (emit e s).msgRsv3 = s.msgRsv3 := rfl
@[simp] theorem emit_msgBuf (e : Event) : (emit e s).msgBuf = s.msgBuf := rfl
@[simp] theorem emit_msgLen (e : Event) : (emit e s).msgLen = s.msgLen := rfl
@[simp] theorem emit_ctrlBuf (e : Event) : (emit e s).ctrlBuf = s.ctrlBuf := rfl
@[simp] theorem emit_halted (e : Event) : (emit e s).halted = s.halted := rfl
@[simp] theorem emit_errCode (e : Event) : (emit e s).errCode = s.errCode := rfl
@[simp] theorem emit_errCause (e : Event) : (emit e s).errCause = s.errCause := rfl
@[simp] theorem emit_evt (e : Event) : (emit e s).evt = s.evt ++ [e] := rfl
@[simp] theorem emit_inp (e : Event) : (emit e s).inp = s.inp := rfl
@[simp] theorem emit_host (e : Event) : (emit e s).host = s.host := rfl
@[simp] theorem emit_resp (e : Event) : (emit e s).resp = s.resp := rfl
@[simp] theorem emit_pins (e : Event) : (emit e s).pins = s.pins := rfl
@[simp] theorem emit_sched (e : Event) : (emit e s).sched = s.sched := rfl

/-! ## `setPhase` -/

@[simp] theorem setPhase_params (p : Phase) : (setPhase p s).params = s.params := rfl
@[simp] theorem setPhase_requireMasking (p : Phase) : (setPhase p s).requireMasking = s.requireMasking := rfl
@[simp] theorem setPhase_strictLen (p : Phase) : (setPhase p s).strictLen = s.strictLen := rfl
@[simp] theorem setPhase_txMasking (p : Phase) : (setPhase p s).txMasking = s.txMasking := rfl
@[simp] theorem setPhase_phase (p : Phase) : (setPhase p s).phase = p := rfl
@[simp] theorem setPhase_hFin (p : Phase) : (setPhase p s).hFin = s.hFin := rfl
@[simp] theorem setPhase_hRsv1 (p : Phase) : (setPhase p s).hRsv1 = s.hRsv1 := rfl
@[simp] theorem setPhase_hRsv2 (p : Phase) : (setPhase p s).hRsv2 = s.hRsv2 := rfl
@[simp] theorem setPhase_hRsv3 (p : Phase) : (setPhase p s).hRsv3 = s.hRsv3 := rfl
@[simp] theorem setPhase_hOpcode (p : Phase) : (setPhase p s).hOpcode = s.hOpcode := rfl
@[simp] theorem setPhase_hMask (p : Phase) : (setPhase p s).hMask = s.hMask := rfl
@[simp] theorem setPhase_hLen7 (p : Phase) : (setPhase p s).hLen7 = s.hLen7 := rfl
@[simp] theorem setPhase_ext (p : Phase) : (setPhase p s).ext = s.ext := rfl
@[simp] theorem setPhase_extNeed (p : Phase) : (setPhase p s).extNeed = s.extNeed := rfl
@[simp] theorem setPhase_extCnt (p : Phase) : (setPhase p s).extCnt = s.extCnt := rfl
@[simp] theorem setPhase_key (p : Phase) : (setPhase p s).key = s.key := rfl
@[simp] theorem setPhase_keyCnt (p : Phase) : (setPhase p s).keyCnt = s.keyCnt := rfl
@[simp] theorem setPhase_plen (p : Phase) : (setPhase p s).plen = s.plen := rfl
@[simp] theorem setPhase_pcnt (p : Phase) : (setPhase p s).pcnt = s.pcnt := rfl
@[simp] theorem setPhase_msgOpen (p : Phase) : (setPhase p s).msgOpen = s.msgOpen := rfl
@[simp] theorem setPhase_msgOpcode (p : Phase) : (setPhase p s).msgOpcode = s.msgOpcode := rfl
@[simp] theorem setPhase_msgRsv1 (p : Phase) : (setPhase p s).msgRsv1 = s.msgRsv1 := rfl
@[simp] theorem setPhase_msgRsv2 (p : Phase) : (setPhase p s).msgRsv2 = s.msgRsv2 := rfl
@[simp] theorem setPhase_msgRsv3 (p : Phase) : (setPhase p s).msgRsv3 = s.msgRsv3 := rfl
@[simp] theorem setPhase_msgBuf (p : Phase) : (setPhase p s).msgBuf = s.msgBuf := rfl
@[simp] theorem setPhase_msgLen (p : Phase) : (setPhase p s).msgLen = s.msgLen := rfl
@[simp] theorem setPhase_ctrlBuf (p : Phase) : (setPhase p s).ctrlBuf = s.ctrlBuf := rfl
@[simp] theorem setPhase_halted (p : Phase) : (setPhase p s).halted = s.halted := rfl
@[simp] theorem setPhase_errCode (p : Phase) : (setPhase p s).errCode = s.errCode := rfl
@[simp] theorem setPhase_errCause (p : Phase) : (setPhase p s).errCause = s.errCause := rfl
@[simp] theorem setPhase_evt (p : Phase) : (setPhase p s).evt = s.evt := rfl
@[simp] theorem setPhase_inp (p : Phase) : (setPhase p s).inp = s.inp := rfl
@[simp] theorem setPhase_host (p : Phase) : (setPhase p s).host = s.host := rfl
@[simp] theorem setPhase_resp (p : Phase) : (setPhase p s).resp = s.resp := rfl
@[simp] theorem setPhase_pins (p : Phase) : (setPhase p s).pins = s.pins := rfl
@[simp] theorem setPhase_sched (p : Phase) : (setPhase p s).sched = s.sched := rfl

/-! ## `raiseError` -/

@[simp] theorem raiseError_params (c : Cause) : (raiseError c s).params = s.params := rfl
@[simp] theorem raiseError_requireMasking (c : Cause) : (raiseError c s).requireMasking = s.requireMasking := rfl
@[simp] theorem raiseError_strictLen (c : Cause) : (raiseError c s).strictLen = s.strictLen := rfl
@[simp] theorem raiseError_txMasking (c : Cause) : (raiseError c s).txMasking = s.txMasking := rfl
@[simp] theorem raiseError_phase (c : Cause) : (raiseError c s).phase = .hdr0 := rfl
@[simp] theorem raiseError_hFin (c : Cause) : (raiseError c s).hFin = s.hFin := rfl
@[simp] theorem raiseError_hRsv1 (c : Cause) : (raiseError c s).hRsv1 = s.hRsv1 := rfl
@[simp] theorem raiseError_hRsv2 (c : Cause) : (raiseError c s).hRsv2 = s.hRsv2 := rfl
@[simp] theorem raiseError_hRsv3 (c : Cause) : (raiseError c s).hRsv3 = s.hRsv3 := rfl
@[simp] theorem raiseError_hOpcode (c : Cause) : (raiseError c s).hOpcode = s.hOpcode := rfl
@[simp] theorem raiseError_hMask (c : Cause) : (raiseError c s).hMask = s.hMask := rfl
@[simp] theorem raiseError_hLen7 (c : Cause) : (raiseError c s).hLen7 = s.hLen7 := rfl
@[simp] theorem raiseError_ext (c : Cause) : (raiseError c s).ext = s.ext := rfl
@[simp] theorem raiseError_extNeed (c : Cause) : (raiseError c s).extNeed = s.extNeed := rfl
@[simp] theorem raiseError_extCnt (c : Cause) : (raiseError c s).extCnt = s.extCnt := rfl
@[simp] theorem raiseError_key (c : Cause) : (raiseError c s).key = s.key := rfl
@[simp] theorem raiseError_keyCnt (c : Cause) : (raiseError c s).keyCnt = s.keyCnt := rfl
@[simp] theorem raiseError_plen (c : Cause) : (raiseError c s).plen = s.plen := rfl
@[simp] theorem raiseError_pcnt (c : Cause) : (raiseError c s).pcnt = s.pcnt := rfl
@[simp] theorem raiseError_msgOpen (c : Cause) : (raiseError c s).msgOpen = s.msgOpen := rfl
@[simp] theorem raiseError_msgOpcode (c : Cause) : (raiseError c s).msgOpcode = s.msgOpcode := rfl
@[simp] theorem raiseError_msgRsv1 (c : Cause) : (raiseError c s).msgRsv1 = s.msgRsv1 := rfl
@[simp] theorem raiseError_msgRsv2 (c : Cause) : (raiseError c s).msgRsv2 = s.msgRsv2 := rfl
@[simp] theorem raiseError_msgRsv3 (c : Cause) : (raiseError c s).msgRsv3 = s.msgRsv3 := rfl
@[simp] theorem raiseError_msgBuf (c : Cause) : (raiseError c s).msgBuf = s.msgBuf := rfl
@[simp] theorem raiseError_msgLen (c : Cause) : (raiseError c s).msgLen = s.msgLen := rfl
@[simp] theorem raiseError_ctrlBuf (c : Cause) : (raiseError c s).ctrlBuf = s.ctrlBuf := rfl
@[simp] theorem raiseError_halted (c : Cause) : (raiseError c s).halted = true := rfl
@[simp] theorem raiseError_errCode (c : Cause) : (raiseError c s).errCode = statusCode c s := rfl
@[simp] theorem raiseError_errCause (c : Cause) : (raiseError c s).errCause = c.code := rfl
@[simp] theorem raiseError_evt (c : Cause) : (raiseError c s).evt = s.evt ++ [.error (statusCode c s) c.code (reasonText c)] := rfl
@[simp] theorem raiseError_inp (c : Cause) : (raiseError c s).inp = s.inp := rfl
@[simp] theorem raiseError_host (c : Cause) : (raiseError c s).host = s.host := rfl
@[simp] theorem raiseError_resp (c : Cause) : (raiseError c s).resp = s.resp := rfl
@[simp] theorem raiseError_pins (c : Cause) : (raiseError c s).pins = s.pins := rfl
@[simp] theorem raiseError_sched (c : Cause) : (raiseError c s).sched = s.sched := rfl

/-! ## `loadHeader` -/

@[simp] theorem loadHeader_params (op : BitVec 4) (f : Frame) : (loadHeader op f s).params = s.params := rfl
@[simp] theorem loadHeader_requireMasking (op : BitVec 4) (f : Frame) : (loadHeader op f s).requireMasking = s.requireMasking := rfl
@[simp] theorem loadHeader_strictLen (op : BitVec 4) (f : Frame) : (loadHeader op f s).strictLen = s.strictLen := rfl
@[simp] theorem loadHeader_txMasking (op : BitVec 4) (f : Frame) : (loadHeader op f s).txMasking = s.txMasking := rfl
@[simp] theorem loadHeader_phase (op : BitVec 4) (f : Frame) : (loadHeader op f s).phase = s.phase := rfl
@[simp] theorem loadHeader_hFin (op : BitVec 4) (f : Frame) : (loadHeader op f s).hFin = f.fin := rfl
@[simp] theorem loadHeader_hRsv1 (op : BitVec 4) (f : Frame) : (loadHeader op f s).hRsv1 = f.rsv1 := rfl
@[simp] theorem loadHeader_hRsv2 (op : BitVec 4) (f : Frame) : (loadHeader op f s).hRsv2 = f.rsv2 := rfl
@[simp] theorem loadHeader_hRsv3 (op : BitVec 4) (f : Frame) : (loadHeader op f s).hRsv3 = f.rsv3 := rfl
@[simp] theorem loadHeader_hOpcode (op : BitVec 4) (f : Frame) : (loadHeader op f s).hOpcode = op := rfl
@[simp] theorem loadHeader_hMask (op : BitVec 4) (f : Frame) : (loadHeader op f s).hMask = f.key.isSome := rfl
@[simp] theorem loadHeader_hLen7 (op : BitVec 4) (f : Frame) : (loadHeader op f s).hLen7 = f.len.len7 := rfl
@[simp] theorem loadHeader_ext (op : BitVec 4) (f : Frame) : (loadHeader op f s).ext = f.len.ext := rfl
@[simp] theorem loadHeader_extNeed (op : BitVec 4) (f : Frame) : (loadHeader op f s).extNeed = f.len.need := rfl
@[simp] theorem loadHeader_extCnt (op : BitVec 4) (f : Frame) : (loadHeader op f s).extCnt = f.len.need := rfl
@[simp] theorem loadHeader_key (op : BitVec 4) (f : Frame) : (loadHeader op f s).key = f.key.getD s.key := rfl
@[simp] theorem loadHeader_keyCnt (op : BitVec 4) (f : Frame) : (loadHeader op f s).keyCnt = if f.key.isSome then 4 else 0 := rfl
@[simp] theorem loadHeader_plen (op : BitVec 4) (f : Frame) : (loadHeader op f s).plen = f.len.plen := rfl
@[simp] theorem loadHeader_pcnt (op : BitVec 4) (f : Frame) : (loadHeader op f s).pcnt = s.pcnt := rfl
@[simp] theorem loadHeader_msgOpen (op : BitVec 4) (f : Frame) : (loadHeader op f s).msgOpen = s.msgOpen := rfl
@[simp] theorem loadHeader_msgOpcode (op : BitVec 4) (f : Frame) : (loadHeader op f s).msgOpcode = s.msgOpcode := rfl
@[simp] theorem loadHeader_msgRsv1 (op : BitVec 4) (f : Frame) : (loadHeader op f s).msgRsv1 = s.msgRsv1 := rfl
@[simp] theorem loadHeader_msgRsv2 (op : BitVec 4) (f : Frame) : (loadHeader op f s).msgRsv2 = s.msgRsv2 := rfl
@[simp] theorem loadHeader_msgRsv3 (op : BitVec 4) (f : Frame) : (loadHeader op f s).msgRsv3 = s.msgRsv3 := rfl
@[simp] theorem loadHeader_msgBuf (op : BitVec 4) (f : Frame) : (loadHeader op f s).msgBuf = s.msgBuf := rfl
@[simp] theorem loadHeader_msgLen (op : BitVec 4) (f : Frame) : (loadHeader op f s).msgLen = s.msgLen := rfl
@[simp] theorem loadHeader_ctrlBuf (op : BitVec 4) (f : Frame) : (loadHeader op f s).ctrlBuf = s.ctrlBuf := rfl
@[simp] theorem loadHeader_halted (op : BitVec 4) (f : Frame) : (loadHeader op f s).halted = s.halted := rfl
@[simp] theorem loadHeader_errCode (op : BitVec 4) (f : Frame) : (loadHeader op f s).errCode = s.errCode := rfl
@[simp] theorem loadHeader_errCause (op : BitVec 4) (f : Frame) : (loadHeader op f s).errCause = s.errCause := rfl
@[simp] theorem loadHeader_evt (op : BitVec 4) (f : Frame) : (loadHeader op f s).evt = s.evt := rfl
@[simp] theorem loadHeader_inp (op : BitVec 4) (f : Frame) : (loadHeader op f s).inp = s.inp := rfl
@[simp] theorem loadHeader_host (op : BitVec 4) (f : Frame) : (loadHeader op f s).host = s.host := rfl
@[simp] theorem loadHeader_resp (op : BitVec 4) (f : Frame) : (loadHeader op f s).resp = s.resp := rfl
@[simp] theorem loadHeader_pins (op : BitVec 4) (f : Frame) : (loadHeader op f s).pins = s.pins := rfl
@[simp] theorem loadHeader_sched (op : BitVec 4) (f : Frame) : (loadHeader op f s).sched = s.sched := rfl

/-! ## `startPayload` -/

@[simp] theorem startPayload_params : (startPayload s).params = s.params := rfl
@[simp] theorem startPayload_requireMasking : (startPayload s).requireMasking = s.requireMasking := rfl
@[simp] theorem startPayload_strictLen : (startPayload s).strictLen = s.strictLen := rfl
@[simp] theorem startPayload_txMasking : (startPayload s).txMasking = s.txMasking := rfl
@[simp] theorem startPayload_phase : (startPayload s).phase = s.phase := rfl
@[simp] theorem startPayload_hFin : (startPayload s).hFin = s.hFin := rfl
@[simp] theorem startPayload_hRsv1 : (startPayload s).hRsv1 = s.hRsv1 := rfl
@[simp] theorem startPayload_hRsv2 : (startPayload s).hRsv2 = s.hRsv2 := rfl
@[simp] theorem startPayload_hRsv3 : (startPayload s).hRsv3 = s.hRsv3 := rfl
@[simp] theorem startPayload_hOpcode : (startPayload s).hOpcode = s.hOpcode := rfl
@[simp] theorem startPayload_hMask : (startPayload s).hMask = s.hMask := rfl
@[simp] theorem startPayload_hLen7 : (startPayload s).hLen7 = s.hLen7 := rfl
@[simp] theorem startPayload_ext : (startPayload s).ext = s.ext := rfl
@[simp] theorem startPayload_extNeed : (startPayload s).extNeed = s.extNeed := rfl
@[simp] theorem startPayload_extCnt : (startPayload s).extCnt = s.extCnt := rfl
@[simp] theorem startPayload_key : (startPayload s).key = s.key := rfl
@[simp] theorem startPayload_keyCnt : (startPayload s).keyCnt = s.keyCnt := rfl
@[simp] theorem startPayload_plen : (startPayload s).plen = s.plen := rfl
@[simp] theorem startPayload_pcnt : (startPayload s).pcnt = 0 := rfl
@[simp] theorem startPayload_msgOpen : (startPayload s).msgOpen = s.msgOpen := rfl
@[simp] theorem startPayload_msgOpcode : (startPayload s).msgOpcode = s.msgOpcode := rfl
@[simp] theorem startPayload_msgRsv1 : (startPayload s).msgRsv1 = s.msgRsv1 := rfl
@[simp] theorem startPayload_msgRsv2 : (startPayload s).msgRsv2 = s.msgRsv2 := rfl
@[simp] theorem startPayload_msgRsv3 : (startPayload s).msgRsv3 = s.msgRsv3 := rfl
@[simp] theorem startPayload_msgBuf : (startPayload s).msgBuf = s.msgBuf := rfl
@[simp] theorem startPayload_msgLen : (startPayload s).msgLen = s.msgLen := rfl
@[simp] theorem startPayload_ctrlBuf : (startPayload s).ctrlBuf = s.ctrlBuf := rfl
@[simp] theorem startPayload_halted : (startPayload s).halted = s.halted := rfl
@[simp] theorem startPayload_errCode : (startPayload s).errCode = s.errCode := rfl
@[simp] theorem startPayload_errCause : (startPayload s).errCause = s.errCause := rfl
@[simp] theorem startPayload_evt : (startPayload s).evt = s.evt := rfl
@[simp] theorem startPayload_inp : (startPayload s).inp = s.inp := rfl
@[simp] theorem startPayload_host : (startPayload s).host = s.host := rfl
@[simp] theorem startPayload_resp : (startPayload s).resp = s.resp := rfl
@[simp] theorem startPayload_pins : (startPayload s).pins = s.pins := rfl
@[simp] theorem startPayload_sched : (startPayload s).sched = s.sched := rfl

/-! ## `countByte` -/

@[simp] theorem countByte_params : (countByte s).params = s.params := rfl
@[simp] theorem countByte_requireMasking : (countByte s).requireMasking = s.requireMasking := rfl
@[simp] theorem countByte_strictLen : (countByte s).strictLen = s.strictLen := rfl
@[simp] theorem countByte_txMasking : (countByte s).txMasking = s.txMasking := rfl
@[simp] theorem countByte_phase : (countByte s).phase = s.phase := rfl
@[simp] theorem countByte_hFin : (countByte s).hFin = s.hFin := rfl
@[simp] theorem countByte_hRsv1 : (countByte s).hRsv1 = s.hRsv1 := rfl
@[simp] theorem countByte_hRsv2 : (countByte s).hRsv2 = s.hRsv2 := rfl
@[simp] theorem countByte_hRsv3 : (countByte s).hRsv3 = s.hRsv3 := rfl
@[simp] theorem countByte_hOpcode : (countByte s).hOpcode = s.hOpcode := rfl
@[simp] theorem countByte_hMask : (countByte s).hMask = s.hMask := rfl
@[simp] theorem countByte_hLen7 : (countByte s).hLen7 = s.hLen7 := rfl
@[simp] theorem countByte_ext : (countByte s).ext = s.ext := rfl
@[simp] theorem countByte_extNeed : (countByte s).extNeed = s.extNeed := rfl
@[simp] theorem countByte_extCnt : (countByte s).extCnt = s.extCnt := rfl
@[simp] theorem countByte_key : (countByte s).key = s.key := rfl
@[simp] theorem countByte_keyCnt : (countByte s).keyCnt = s.keyCnt := rfl
@[simp] theorem countByte_plen : (countByte s).plen = s.plen := rfl
@[simp] theorem countByte_pcnt : (countByte s).pcnt = s.pcnt + 1 := rfl
@[simp] theorem countByte_msgOpen : (countByte s).msgOpen = s.msgOpen := rfl
@[simp] theorem countByte_msgOpcode : (countByte s).msgOpcode = s.msgOpcode := rfl
@[simp] theorem countByte_msgRsv1 : (countByte s).msgRsv1 = s.msgRsv1 := rfl
@[simp] theorem countByte_msgRsv2 : (countByte s).msgRsv2 = s.msgRsv2 := rfl
@[simp] theorem countByte_msgRsv3 : (countByte s).msgRsv3 = s.msgRsv3 := rfl
@[simp] theorem countByte_msgBuf : (countByte s).msgBuf = s.msgBuf := rfl
@[simp] theorem countByte_msgLen : (countByte s).msgLen = s.msgLen := rfl
@[simp] theorem countByte_ctrlBuf : (countByte s).ctrlBuf = s.ctrlBuf := rfl
@[simp] theorem countByte_halted : (countByte s).halted = s.halted := rfl
@[simp] theorem countByte_errCode : (countByte s).errCode = s.errCode := rfl
@[simp] theorem countByte_errCause : (countByte s).errCause = s.errCause := rfl
@[simp] theorem countByte_evt : (countByte s).evt = s.evt := rfl
@[simp] theorem countByte_inp : (countByte s).inp = s.inp := rfl
@[simp] theorem countByte_host : (countByte s).host = s.host := rfl
@[simp] theorem countByte_resp : (countByte s).resp = s.resp := rfl
@[simp] theorem countByte_pins : (countByte s).pins = s.pins := rfl
@[simp] theorem countByte_sched : (countByte s).sched = s.sched := rfl

/-! ## `msgOpenAs` -/

@[simp] theorem msgOpenAs_params (op : BitVec 4) (r1 r2 r3 : Bool) : (msgOpenAs op r1 r2 r3 s).params = s.params := rfl
@[simp] theorem msgOpenAs_requireMasking (op : BitVec 4) (r1 r2 r3 : Bool) : (msgOpenAs op r1 r2 r3 s).requireMasking = s.requireMasking := rfl
@[simp] theorem msgOpenAs_strictLen (op : BitVec 4) (r1 r2 r3 : Bool) : (msgOpenAs op r1 r2 r3 s).strictLen = s.strictLen := rfl
@[simp] theorem msgOpenAs_txMasking (op : BitVec 4) (r1 r2 r3 : Bool) : (msgOpenAs op r1 r2 r3 s).txMasking = s.txMasking := rfl
@[simp] theorem msgOpenAs_phase (op : BitVec 4) (r1 r2 r3 : Bool) : (msgOpenAs op r1 r2 r3 s).phase = s.phase := rfl
@[simp] theorem msgOpenAs_hFin (op : BitVec 4) (r1 r2 r3 : Bool) : (msgOpenAs op r1 r2 r3 s).hFin = s.hFin := rfl
@[simp] theorem msgOpenAs_hRsv1 (op : BitVec 4) (r1 r2 r3 : Bool) : (msgOpenAs op r1 r2 r3 s).hRsv1 = s.hRsv1 := rfl
@[simp] theorem msgOpenAs_hRsv2 (op : BitVec 4) (r1 r2 r3 : Bool) : (msgOpenAs op r1 r2 r3 s).hRsv2 = s.hRsv2 := rfl
@[simp] theorem msgOpenAs_hRsv3 (op : BitVec 4) (r1 r2 r3 : Bool) : (msgOpenAs op r1 r2 r3 s).hRsv3 = s.hRsv3 := rfl
@[simp] theorem msgOpenAs_hOpcode (op : BitVec 4) (r1 r2 r3 : Bool) : (msgOpenAs op r1 r2 r3 s).hOpcode = s.hOpcode := rfl
@[simp] theorem msgOpenAs_hMask (op : BitVec 4) (r1 r2 r3 : Bool) : (msgOpenAs op r1 r2 r3 s).hMask = s.hMask := rfl
@[simp] theorem msgOpenAs_hLen7 (op : BitVec 4) (r1 r2 r3 : Bool) : (msgOpenAs op r1 r2 r3 s).hLen7 = s.hLen7 := rfl
@[simp] theorem msgOpenAs_ext (op : BitVec 4) (r1 r2 r3 : Bool) : (msgOpenAs op r1 r2 r3 s).ext = s.ext := rfl
@[simp] theorem msgOpenAs_extNeed (op : BitVec 4) (r1 r2 r3 : Bool) : (msgOpenAs op r1 r2 r3 s).extNeed = s.extNeed := rfl
@[simp] theorem msgOpenAs_extCnt (op : BitVec 4) (r1 r2 r3 : Bool) : (msgOpenAs op r1 r2 r3 s).extCnt = s.extCnt := rfl
@[simp] theorem msgOpenAs_key (op : BitVec 4) (r1 r2 r3 : Bool) : (msgOpenAs op r1 r2 r3 s).key = s.key := rfl
@[simp] theorem msgOpenAs_keyCnt (op : BitVec 4) (r1 r2 r3 : Bool) : (msgOpenAs op r1 r2 r3 s).keyCnt = s.keyCnt := rfl
@[simp] theorem msgOpenAs_plen (op : BitVec 4) (r1 r2 r3 : Bool) : (msgOpenAs op r1 r2 r3 s).plen = s.plen := rfl
@[simp] theorem msgOpenAs_pcnt (op : BitVec 4) (r1 r2 r3 : Bool) : (msgOpenAs op r1 r2 r3 s).pcnt = s.pcnt := rfl
@[simp] theorem msgOpenAs_msgOpen (op : BitVec 4) (r1 r2 r3 : Bool) : (msgOpenAs op r1 r2 r3 s).msgOpen = true := rfl
@[simp] theorem msgOpenAs_msgOpcode (op : BitVec 4) (r1 r2 r3 : Bool) : (msgOpenAs op r1 r2 r3 s).msgOpcode = op := rfl
@[simp] theorem msgOpenAs_msgRsv1 (op : BitVec 4) (r1 r2 r3 : Bool) : (msgOpenAs op r1 r2 r3 s).msgRsv1 = r1 := rfl
@[simp] theorem msgOpenAs_msgRsv2 (op : BitVec 4) (r1 r2 r3 : Bool) : (msgOpenAs op r1 r2 r3 s).msgRsv2 = r2 := rfl
@[simp] theorem msgOpenAs_msgRsv3 (op : BitVec 4) (r1 r2 r3 : Bool) : (msgOpenAs op r1 r2 r3 s).msgRsv3 = r3 := rfl
@[simp] theorem msgOpenAs_msgBuf (op : BitVec 4) (r1 r2 r3 : Bool) : (msgOpenAs op r1 r2 r3 s).msgBuf = s.msgBuf := rfl
@[simp] theorem msgOpenAs_msgLen (op : BitVec 4) (r1 r2 r3 : Bool) : (msgOpenAs op r1 r2 r3 s).msgLen = s.msgLen := rfl
@[simp] theorem msgOpenAs_ctrlBuf (op : BitVec 4) (r1 r2 r3 : Bool) : (msgOpenAs op r1 r2 r3 s).ctrlBuf = s.ctrlBuf := rfl
@[simp] theorem msgOpenAs_halted (op : BitVec 4) (r1 r2 r3 : Bool) : (msgOpenAs op r1 r2 r3 s).halted = s.halted := rfl
@[simp] theorem msgOpenAs_errCode (op : BitVec 4) (r1 r2 r3 : Bool) : (msgOpenAs op r1 r2 r3 s).errCode = s.errCode := rfl
@[simp] theorem msgOpenAs_errCause (op : BitVec 4) (r1 r2 r3 : Bool) : (msgOpenAs op r1 r2 r3 s).errCause = s.errCause := rfl
@[simp] theorem msgOpenAs_evt (op : BitVec 4) (r1 r2 r3 : Bool) : (msgOpenAs op r1 r2 r3 s).evt = s.evt := rfl
@[simp] theorem msgOpenAs_inp (op : BitVec 4) (r1 r2 r3 : Bool) : (msgOpenAs op r1 r2 r3 s).inp = s.inp := rfl
@[simp] theorem msgOpenAs_host (op : BitVec 4) (r1 r2 r3 : Bool) : (msgOpenAs op r1 r2 r3 s).host = s.host := rfl
@[simp] theorem msgOpenAs_resp (op : BitVec 4) (r1 r2 r3 : Bool) : (msgOpenAs op r1 r2 r3 s).resp = s.resp := rfl
@[simp] theorem msgOpenAs_pins (op : BitVec 4) (r1 r2 r3 : Bool) : (msgOpenAs op r1 r2 r3 s).pins = s.pins := rfl
@[simp] theorem msgOpenAs_sched (op : BitVec 4) (r1 r2 r3 : Bool) : (msgOpenAs op r1 r2 r3 s).sched = s.sched := rfl

/-! ## `msgClear` -/

@[simp] theorem msgClear_params : (msgClear s).params = s.params := rfl
@[simp] theorem msgClear_requireMasking : (msgClear s).requireMasking = s.requireMasking := rfl
@[simp] theorem msgClear_strictLen : (msgClear s).strictLen = s.strictLen := rfl
@[simp] theorem msgClear_txMasking : (msgClear s).txMasking = s.txMasking := rfl
@[simp] theorem msgClear_phase : (msgClear s).phase = s.phase := rfl
@[simp] theorem msgClear_hFin : (msgClear s).hFin = s.hFin := rfl
@[simp] theorem msgClear_hRsv1 : (msgClear s).hRsv1 = s.hRsv1 := rfl
@[simp] theorem msgClear_hRsv2 : (msgClear s).hRsv2 = s.hRsv2 := rfl
@[simp] theorem msgClear_hRsv3 : (msgClear s).hRsv3 = s.hRsv3 := rfl
@[simp] theorem msgClear_hOpcode : (msgClear s).hOpcode = s.hOpcode := rfl
@[simp] theorem msgClear_hMask : (msgClear s).hMask = s.hMask := rfl
@[simp] theorem msgClear_hLen7 : (msgClear s).hLen7 = s.hLen7 := rfl
@[simp] theorem msgClear_ext : (msgClear s).ext = s.ext := rfl
@[simp] theorem msgClear_extNeed : (msgClear s).extNeed = s.extNeed := rfl
@[simp] theorem msgClear_extCnt : (msgClear s).extCnt = s.extCnt := rfl
@[simp] theorem msgClear_key : (msgClear s).key = s.key := rfl
@[simp] theorem msgClear_keyCnt : (msgClear s).keyCnt = s.keyCnt := rfl
@[simp] theorem msgClear_plen : (msgClear s).plen = s.plen := rfl
@[simp] theorem msgClear_pcnt : (msgClear s).pcnt = s.pcnt := rfl
@[simp] theorem msgClear_msgOpen : (msgClear s).msgOpen = false := rfl
@[simp] theorem msgClear_msgOpcode : (msgClear s).msgOpcode = 0 := rfl
@[simp] theorem msgClear_msgRsv1 : (msgClear s).msgRsv1 = false := rfl
@[simp] theorem msgClear_msgRsv2 : (msgClear s).msgRsv2 = false := rfl
@[simp] theorem msgClear_msgRsv3 : (msgClear s).msgRsv3 = false := rfl
@[simp] theorem msgClear_msgBuf : (msgClear s).msgBuf = s.msgBuf := rfl
@[simp] theorem msgClear_msgLen : (msgClear s).msgLen = 0 := rfl
@[simp] theorem msgClear_ctrlBuf : (msgClear s).ctrlBuf = s.ctrlBuf := rfl
@[simp] theorem msgClear_halted : (msgClear s).halted = s.halted := rfl
@[simp] theorem msgClear_errCode : (msgClear s).errCode = s.errCode := rfl
@[simp] theorem msgClear_errCause : (msgClear s).errCause = s.errCause := rfl
@[simp] theorem msgClear_evt : (msgClear s).evt = s.evt := rfl
@[simp] theorem msgClear_inp : (msgClear s).inp = s.inp := rfl
@[simp] theorem msgClear_host : (msgClear s).host = s.host := rfl
@[simp] theorem msgClear_resp : (msgClear s).resp = s.resp := rfl
@[simp] theorem msgClear_pins : (msgClear s).pins = s.pins := rfl
@[simp] theorem msgClear_sched : (msgClear s).sched = s.sched := rfl

/-! ## `loadByte1` -/

@[simp] theorem loadByte1_params (b : Byte) : (loadByte1 b s).params = s.params := rfl
@[simp] theorem loadByte1_requireMasking (b : Byte) : (loadByte1 b s).requireMasking = s.requireMasking := rfl
@[simp] theorem loadByte1_strictLen (b : Byte) : (loadByte1 b s).strictLen = s.strictLen := rfl
@[simp] theorem loadByte1_txMasking (b : Byte) : (loadByte1 b s).txMasking = s.txMasking := rfl
@[simp] theorem loadByte1_phase (b : Byte) : (loadByte1 b s).phase = s.phase := rfl
@[simp] theorem loadByte1_hFin (b : Byte) : (loadByte1 b s).hFin = s.hFin := rfl
@[simp] theorem loadByte1_hRsv1 (b : Byte) : (loadByte1 b s).hRsv1 = s.hRsv1 := rfl
@[simp] theorem loadByte1_hRsv2 (b : Byte) : (loadByte1 b s).hRsv2 = s.hRsv2 := rfl
@[simp] theorem loadByte1_hRsv3 (b : Byte) : (loadByte1 b s).hRsv3 = s.hRsv3 := rfl
@[simp] theorem loadByte1_hOpcode (b : Byte) : (loadByte1 b s).hOpcode = s.hOpcode := rfl
@[simp] theorem loadByte1_hMask (b : Byte) : (loadByte1 b s).hMask = maskOf b := rfl
@[simp] theorem loadByte1_hLen7 (b : Byte) : (loadByte1 b s).hLen7 = len7Of b := rfl
@[simp] theorem loadByte1_ext (b : Byte) : (loadByte1 b s).ext = 0 := rfl
@[simp] theorem loadByte1_extNeed (b : Byte) : (loadByte1 b s).extNeed = extNeedOf (len7Of b) := rfl
@[simp] theorem loadByte1_extCnt (b : Byte) : (loadByte1 b s).extCnt = 0 := rfl
@[simp] theorem loadByte1_key (b : Byte) : (loadByte1 b s).key = s.key := rfl
@[simp] theorem loadByte1_keyCnt (b : Byte) : (loadByte1 b s).keyCnt = 0 := rfl
@[simp] theorem loadByte1_plen (b : Byte) : (loadByte1 b s).plen = if (len7Of b).toNat ≤ 125 then (len7Of b).setWidth 64 else s.plen := rfl
@[simp] theorem loadByte1_pcnt (b : Byte) : (loadByte1 b s).pcnt = s.pcnt := rfl
@[simp] theorem loadByte1_msgOpen (b : Byte) : (loadByte1 b s).msgOpen = s.msgOpen := rfl
@[simp] theorem loadByte1_msgOpcode (b : Byte) : (loadByte1 b s).msgOpcode = s.msgOpcode := rfl
@[simp] theorem loadByte1_msgRsv1 (b : Byte) : (loadByte1 b s).msgRsv1 = s.msgRsv1 := rfl
@[simp] theorem loadByte1_msgRsv2 (b : Byte) : (loadByte1 b s).msgRsv2 = s.msgRsv2 := rfl
@[simp] theorem loadByte1_msgRsv3 (b : Byte) : (loadByte1 b s).msgRsv3 = s.msgRsv3 := rfl
@[simp] theorem loadByte1_msgBuf (b : Byte) : (loadByte1 b s).msgBuf = s.msgBuf := rfl
@[simp] theorem loadByte1_msgLen (b : Byte) : (loadByte1 b s).msgLen = s.msgLen := rfl
@[simp] theorem loadByte1_ctrlBuf (b : Byte) : (loadByte1 b s).ctrlBuf = s.ctrlBuf := rfl
@[simp] theorem loadByte1_halted (b : Byte) : (loadByte1 b s).halted = s.halted := rfl
@[simp] theorem loadByte1_errCode (b : Byte) : (loadByte1 b s).errCode = s.errCode := rfl
@[simp] theorem loadByte1_errCause (b : Byte) : (loadByte1 b s).errCause = s.errCause := rfl
@[simp] theorem loadByte1_evt (b : Byte) : (loadByte1 b s).evt = s.evt := rfl
@[simp] theorem loadByte1_inp (b : Byte) : (loadByte1 b s).inp = s.inp := rfl
@[simp] theorem loadByte1_host (b : Byte) : (loadByte1 b s).host = s.host := rfl
@[simp] theorem loadByte1_resp (b : Byte) : (loadByte1 b s).resp = s.resp := rfl
@[simp] theorem loadByte1_pins (b : Byte) : (loadByte1 b s).pins = s.pins := rfl
@[simp] theorem loadByte1_sched (b : Byte) : (loadByte1 b s).sched = s.sched := rfl

/-! ## `loadExtByte` -/

@[simp] theorem loadExtByte_params (b : Byte) : (loadExtByte b s).params = s.params := rfl
@[simp] theorem loadExtByte_requireMasking (b : Byte) : (loadExtByte b s).requireMasking = s.requireMasking := rfl
@[simp] theorem loadExtByte_strictLen (b : Byte) : (loadExtByte b s).strictLen = s.strictLen := rfl
@[simp] theorem loadExtByte_txMasking (b : Byte) : (loadExtByte b s).txMasking = s.txMasking := rfl
@[simp] theorem loadExtByte_phase (b : Byte) : (loadExtByte b s).phase = s.phase := rfl
@[simp] theorem loadExtByte_hFin (b : Byte) : (loadExtByte b s).hFin = s.hFin := rfl
@[simp] theorem loadExtByte_hRsv1 (b : Byte) : (loadExtByte b s).hRsv1 = s.hRsv1 := rfl
@[simp] theorem loadExtByte_hRsv2 (b : Byte) : (loadExtByte b s).hRsv2 = s.hRsv2 := rfl
@[simp] theorem loadExtByte_hRsv3 (b : Byte) : (loadExtByte b s).hRsv3 = s.hRsv3 := rfl
@[simp] theorem loadExtByte_hOpcode (b : Byte) : (loadExtByte b s).hOpcode = s.hOpcode := rfl
@[simp] theorem loadExtByte_hMask (b : Byte) : (loadExtByte b s).hMask = s.hMask := rfl
@[simp] theorem loadExtByte_hLen7 (b : Byte) : (loadExtByte b s).hLen7 = s.hLen7 := rfl
@[simp] theorem loadExtByte_ext (b : Byte) : (loadExtByte b s).ext = shiftIn s.ext b := rfl
@[simp] theorem loadExtByte_extNeed (b : Byte) : (loadExtByte b s).extNeed = s.extNeed := rfl
@[simp] theorem loadExtByte_extCnt (b : Byte) : (loadExtByte b s).extCnt = s.extCnt + 1 := rfl
@[simp] theorem loadExtByte_key (b : Byte) : (loadExtByte b s).key = s.key := rfl
@[simp] theorem loadExtByte_keyCnt (b : Byte) : (loadExtByte b s).keyCnt = s.keyCnt := rfl
@[simp] theorem loadExtByte_plen (b : Byte) : (loadExtByte b s).plen = s.plen := rfl
@[simp] theorem loadExtByte_pcnt (b : Byte) : (loadExtByte b s).pcnt = s.pcnt := rfl
@[simp] theorem loadExtByte_msgOpen (b : Byte) : (loadExtByte b s).msgOpen = s.msgOpen := rfl
@[simp] theorem loadExtByte_msgOpcode (b : Byte) : (loadExtByte b s).msgOpcode = s.msgOpcode := rfl
@[simp] theorem loadExtByte_msgRsv1 (b : Byte) : (loadExtByte b s).msgRsv1 = s.msgRsv1 := rfl
@[simp] theorem loadExtByte_msgRsv2 (b : Byte) : (loadExtByte b s).msgRsv2 = s.msgRsv2 := rfl
@[simp] theorem loadExtByte_msgRsv3 (b : Byte) : (loadExtByte b s).msgRsv3 = s.msgRsv3 := rfl
@[simp] theorem loadExtByte_msgBuf (b : Byte) : (loadExtByte b s).msgBuf = s.msgBuf := rfl
@[simp] theorem loadExtByte_msgLen (b : Byte) : (loadExtByte b s).msgLen = s.msgLen := rfl
@[simp] theorem loadExtByte_ctrlBuf (b : Byte) : (loadExtByte b s).ctrlBuf = s.ctrlBuf := rfl
@[simp] theorem loadExtByte_halted (b : Byte) : (loadExtByte b s).halted = s.halted := rfl
@[simp] theorem loadExtByte_errCode (b : Byte) : (loadExtByte b s).errCode = s.errCode := rfl
@[simp] theorem loadExtByte_errCause (b : Byte) : (loadExtByte b s).errCause = s.errCause := rfl
@[simp] theorem loadExtByte_evt (b : Byte) : (loadExtByte b s).evt = s.evt := rfl
@[simp] theorem loadExtByte_inp (b : Byte) : (loadExtByte b s).inp = s.inp := rfl
@[simp] theorem loadExtByte_host (b : Byte) : (loadExtByte b s).host = s.host := rfl
@[simp] theorem loadExtByte_resp (b : Byte) : (loadExtByte b s).resp = s.resp := rfl
@[simp] theorem loadExtByte_pins (b : Byte) : (loadExtByte b s).pins = s.pins := rfl
@[simp] theorem loadExtByte_sched (b : Byte) : (loadExtByte b s).sched = s.sched := rfl

/-! ## `latchLength` -/

@[simp] theorem latchLength_params : (latchLength s).params = s.params := rfl
@[simp] theorem latchLength_requireMasking : (latchLength s).requireMasking = s.requireMasking := rfl
@[simp] theorem latchLength_strictLen : (latchLength s).strictLen = s.strictLen := rfl
@[simp] theorem latchLength_txMasking : (latchLength s).txMasking = s.txMasking := rfl
@[simp] theorem latchLength_phase : (latchLength s).phase = s.phase := rfl
@[simp] theorem latchLength_hFin : (latchLength s).hFin = s.hFin := rfl
@[simp] theorem latchLength_hRsv1 : (latchLength s).hRsv1 = s.hRsv1 := rfl
@[simp] theorem latchLength_hRsv2 : (latchLength s).hRsv2 = s.hRsv2 := rfl
@[simp] theorem latchLength_hRsv3 : (latchLength s).hRsv3 = s.hRsv3 := rfl
@[simp] theorem latchLength_hOpcode : (latchLength s).hOpcode = s.hOpcode := rfl
@[simp] theorem latchLength_hMask : (latchLength s).hMask = s.hMask := rfl
@[simp] theorem latchLength_hLen7 : (latchLength s).hLen7 = s.hLen7 := rfl
@[simp] theorem latchLength_ext : (latchLength s).ext = s.ext := rfl
@[simp] theorem latchLength_extNeed : (latchLength s).extNeed = s.extNeed := rfl
@[simp] theorem latchLength_extCnt : (latchLength s).extCnt = s.extCnt := rfl
@[simp] theorem latchLength_key : (latchLength s).key = s.key := rfl
@[simp] theorem latchLength_keyCnt : (latchLength s).keyCnt = s.keyCnt := rfl
@[simp] theorem latchLength_plen : (latchLength s).plen = s.ext := rfl
@[simp] theorem latchLength_pcnt : (latchLength s).pcnt = s.pcnt := rfl
@[simp] theorem latchLength_msgOpen : (latchLength s).msgOpen = s.msgOpen := rfl
@[simp] theorem latchLength_msgOpcode : (latchLength s).msgOpcode = s.msgOpcode := rfl
@[simp] theorem latchLength_msgRsv1 : (latchLength s).msgRsv1 = s.msgRsv1 := rfl
@[simp] theorem latchLength_msgRsv2 : (latchLength s).msgRsv2 = s.msgRsv2 := rfl
@[simp] theorem latchLength_msgRsv3 : (latchLength s).msgRsv3 = s.msgRsv3 := rfl
@[simp] theorem latchLength_msgBuf : (latchLength s).msgBuf = s.msgBuf := rfl
@[simp] theorem latchLength_msgLen : (latchLength s).msgLen = s.msgLen := rfl
@[simp] theorem latchLength_ctrlBuf : (latchLength s).ctrlBuf = s.ctrlBuf := rfl
@[simp] theorem latchLength_halted : (latchLength s).halted = s.halted := rfl
@[simp] theorem latchLength_errCode : (latchLength s).errCode = s.errCode := rfl
@[simp] theorem latchLength_errCause : (latchLength s).errCause = s.errCause := rfl
@[simp] theorem latchLength_evt : (latchLength s).evt = s.evt := rfl
@[simp] theorem latchLength_inp : (latchLength s).inp = s.inp := rfl
@[simp] theorem latchLength_host : (latchLength s).host = s.host := rfl
@[simp] theorem latchLength_resp : (latchLength s).resp = s.resp := rfl
@[simp] theorem latchLength_pins : (latchLength s).pins = s.pins := rfl
@[simp] theorem latchLength_sched : (latchLength s).sched = s.sched := rfl

/-! ## `answer` -/

@[simp] theorem answer_params (r : Response) : (answer r s).params = s.params := rfl
@[simp] theorem answer_requireMasking (r : Response) : (answer r s).requireMasking = s.requireMasking := rfl
@[simp] theorem answer_strictLen (r : Response) : (answer r s).strictLen = s.strictLen := rfl
@[simp] theorem answer_txMasking (r : Response) : (answer r s).txMasking = s.txMasking := rfl
@[simp] theorem answer_phase (r : Response) : (answer r s).phase = s.phase := rfl
@[simp] theorem answer_hFin (r : Response) : (answer r s).hFin = s.hFin := rfl
@[simp] theorem answer_hRsv1 (r : Response) : (answer r s).hRsv1 = s.hRsv1 := rfl
@[simp] theorem answer_hRsv2 (r : Response) : (answer r s).hRsv2 = s.hRsv2 := rfl
@[simp] theorem answer_hRsv3 (r : Response) : (answer r s).hRsv3 = s.hRsv3 := rfl
@[simp] theorem answer_hOpcode (r : Response) : (answer r s).hOpcode = s.hOpcode := rfl
@[simp] theorem answer_hMask (r : Response) : (answer r s).hMask = s.hMask := rfl
@[simp] theorem answer_hLen7 (r : Response) : (answer r s).hLen7 = s.hLen7 := rfl
@[simp] theorem answer_ext (r : Response) : (answer r s).ext = s.ext := rfl
@[simp] theorem answer_extNeed (r : Response) : (answer r s).extNeed = s.extNeed := rfl
@[simp] theorem answer_extCnt (r : Response) : (answer r s).extCnt = s.extCnt := rfl
@[simp] theorem answer_key (r : Response) : (answer r s).key = s.key := rfl
@[simp] theorem answer_keyCnt (r : Response) : (answer r s).keyCnt = s.keyCnt := rfl
@[simp] theorem answer_plen (r : Response) : (answer r s).plen = s.plen := rfl
@[simp] theorem answer_pcnt (r : Response) : (answer r s).pcnt = s.pcnt := rfl
@[simp] theorem answer_msgOpen (r : Response) : (answer r s).msgOpen = s.msgOpen := rfl
@[simp] theorem answer_msgOpcode (r : Response) : (answer r s).msgOpcode = s.msgOpcode := rfl
@[simp] theorem answer_msgRsv1 (r : Response) : (answer r s).msgRsv1 = s.msgRsv1 := rfl
@[simp] theorem answer_msgRsv2 (r : Response) : (answer r s).msgRsv2 = s.msgRsv2 := rfl
@[simp] theorem answer_msgRsv3 (r : Response) : (answer r s).msgRsv3 = s.msgRsv3 := rfl
@[simp] theorem answer_msgBuf (r : Response) : (answer r s).msgBuf = s.msgBuf := rfl
@[simp] theorem answer_msgLen (r : Response) : (answer r s).msgLen = s.msgLen := rfl
@[simp] theorem answer_ctrlBuf (r : Response) : (answer r s).ctrlBuf = s.ctrlBuf := rfl
@[simp] theorem answer_halted (r : Response) : (answer r s).halted = s.halted := rfl
@[simp] theorem answer_errCode (r : Response) : (answer r s).errCode = s.errCode := rfl
@[simp] theorem answer_errCause (r : Response) : (answer r s).errCause = s.errCause := rfl
@[simp] theorem answer_evt (r : Response) : (answer r s).evt = s.evt := rfl
@[simp] theorem answer_inp (r : Response) : (answer r s).inp = s.inp := rfl
@[simp] theorem answer_host (r : Response) : (answer r s).host = s.host := rfl
@[simp] theorem answer_resp (r : Response) : (answer r s).resp = s.resp ++ [r] := rfl
@[simp] theorem answer_pins (r : Response) : (answer r s).pins = s.pins := rfl
@[simp] theorem answer_sched (r : Response) : (answer r s).sched = s.sched := rfl

/-! ## `present` -/

@[simp] theorem present_params (bs : List Byte) : (present bs s).params = s.params := rfl
@[simp] theorem present_requireMasking (bs : List Byte) : (present bs s).requireMasking = s.requireMasking := rfl
@[simp] theorem present_strictLen (bs : List Byte) : (present bs s).strictLen = s.strictLen := rfl
@[simp] theorem present_txMasking (bs : List Byte) : (present bs s).txMasking = s.txMasking := rfl
@[simp] theorem present_phase (bs : List Byte) : (present bs s).phase = s.phase := rfl
@[simp] theorem present_hFin (bs : List Byte) : (present bs s).hFin = s.hFin := rfl
@[simp] theorem present_hRsv1 (bs : List Byte) : (present bs s).hRsv1 = s.hRsv1 := rfl
@[simp] theorem present_hRsv2 (bs : List Byte) : (present bs s).hRsv2 = s.hRsv2 := rfl
@[simp] theorem present_hRsv3 (bs : List Byte) : (present bs s).hRsv3 = s.hRsv3 := rfl
@[simp] theorem present_hOpcode (bs : List Byte) : (present bs s).hOpcode = s.hOpcode := rfl
@[simp] theorem present_hMask (bs : List Byte) : (present bs s).hMask = s.hMask := rfl
@[simp] theorem present_hLen7 (bs : List Byte) : (present bs s).hLen7 = s.hLen7 := rfl
@[simp] theorem present_ext (bs : List Byte) : (present bs s).ext = s.ext := rfl
@[simp] theorem present_extNeed (bs : List Byte) : (present bs s).extNeed = s.extNeed := rfl
@[simp] theorem present_extCnt (bs : List Byte) : (present bs s).extCnt = s.extCnt := rfl
@[simp] theorem present_key (bs : List Byte) : (present bs s).key = s.key := rfl
@[simp] theorem present_keyCnt (bs : List Byte) : (present bs s).keyCnt = s.keyCnt := rfl
@[simp] theorem present_plen (bs : List Byte) : (present bs s).plen = s.plen := rfl
@[simp] theorem present_pcnt (bs : List Byte) : (present bs s).pcnt = s.pcnt := rfl
@[simp] theorem present_msgOpen (bs : List Byte) : (present bs s).msgOpen = s.msgOpen := rfl
@[simp] theorem present_msgOpcode (bs : List Byte) : (present bs s).msgOpcode = s.msgOpcode := rfl
@[simp] theorem present_msgRsv1 (bs : List Byte) : (present bs s).msgRsv1 = s.msgRsv1 := rfl
@[simp] theorem present_msgRsv2 (bs : List Byte) : (present bs s).msgRsv2 = s.msgRsv2 := rfl
@[simp] theorem present_msgRsv3 (bs : List Byte) : (present bs s).msgRsv3 = s.msgRsv3 := rfl
@[simp] theorem present_msgBuf (bs : List Byte) : (present bs s).msgBuf = s.msgBuf := rfl
@[simp] theorem present_msgLen (bs : List Byte) : (present bs s).msgLen = s.msgLen := rfl
@[simp] theorem present_ctrlBuf (bs : List Byte) : (present bs s).ctrlBuf = s.ctrlBuf := rfl
@[simp] theorem present_halted (bs : List Byte) : (present bs s).halted = s.halted := rfl
@[simp] theorem present_errCode (bs : List Byte) : (present bs s).errCode = s.errCode := rfl
@[simp] theorem present_errCause (bs : List Byte) : (present bs s).errCause = s.errCause := rfl
@[simp] theorem present_evt (bs : List Byte) : (present bs s).evt = s.evt := rfl
@[simp] theorem present_inp (bs : List Byte) : (present bs s).inp = s.inp ++ bs := rfl
@[simp] theorem present_host (bs : List Byte) : (present bs s).host = s.host := rfl
@[simp] theorem present_resp (bs : List Byte) : (present bs s).resp = s.resp := rfl
@[simp] theorem present_pins (bs : List Byte) : (present bs s).pins = s.pins := rfl
@[simp] theorem present_sched (bs : List Byte) : (present bs s).sched = s.sched := rfl

/-! ## `nextTurn` -/

@[simp] theorem nextTurn_params : (nextTurn s).params = s.params := rfl
@[simp] theorem nextTurn_requireMasking : (nextTurn s).requireMasking = s.requireMasking := rfl
@[simp] theorem nextTurn_strictLen : (nextTurn s).strictLen = s.strictLen := rfl
@[simp] theorem nextTurn_txMasking : (nextTurn s).txMasking = s.txMasking := rfl
@[simp] theorem nextTurn_phase : (nextTurn s).phase = s.phase := rfl
@[simp] theorem nextTurn_hFin : (nextTurn s).hFin = s.hFin := rfl
@[simp] theorem nextTurn_hRsv1 : (nextTurn s).hRsv1 = s.hRsv1 := rfl
@[simp] theorem nextTurn_hRsv2 : (nextTurn s).hRsv2 = s.hRsv2 := rfl
@[simp] theorem nextTurn_hRsv3 : (nextTurn s).hRsv3 = s.hRsv3 := rfl
@[simp] theorem nextTurn_hOpcode : (nextTurn s).hOpcode = s.hOpcode := rfl
@[simp] theorem nextTurn_hMask : (nextTurn s).hMask = s.hMask := rfl
@[simp] theorem nextTurn_hLen7 : (nextTurn s).hLen7 = s.hLen7 := rfl
@[simp] theorem nextTurn_ext : (nextTurn s).ext = s.ext := rfl
@[simp] theorem nextTurn_extNeed : (nextTurn s).extNeed = s.extNeed := rfl
@[simp] theorem nextTurn_extCnt : (nextTurn s).extCnt = s.extCnt := rfl
@[simp] theorem nextTurn_key : (nextTurn s).key = s.key := rfl
@[simp] theorem nextTurn_keyCnt : (nextTurn s).keyCnt = s.keyCnt := rfl
@[simp] theorem nextTurn_plen : (nextTurn s).plen = s.plen := rfl
@[simp] theorem nextTurn_pcnt : (nextTurn s).pcnt = s.pcnt := rfl
@[simp] theorem nextTurn_msgOpen : (nextTurn s).msgOpen = s.msgOpen := rfl
@[simp] theorem nextTurn_msgOpcode : (nextTurn s).msgOpcode = s.msgOpcode := rfl
@[simp] theorem nextTurn_msgRsv1 : (nextTurn s).msgRsv1 = s.msgRsv1 := rfl
@[simp] theorem nextTurn_msgRsv2 : (nextTurn s).msgRsv2 = s.msgRsv2 := rfl
@[simp] theorem nextTurn_msgRsv3 : (nextTurn s).msgRsv3 = s.msgRsv3 := rfl
@[simp] theorem nextTurn_msgBuf : (nextTurn s).msgBuf = s.msgBuf := rfl
@[simp] theorem nextTurn_msgLen : (nextTurn s).msgLen = s.msgLen := rfl
@[simp] theorem nextTurn_ctrlBuf : (nextTurn s).ctrlBuf = s.ctrlBuf := rfl
@[simp] theorem nextTurn_halted : (nextTurn s).halted = s.halted := rfl
@[simp] theorem nextTurn_errCode : (nextTurn s).errCode = s.errCode := rfl
@[simp] theorem nextTurn_errCause : (nextTurn s).errCause = s.errCause := rfl
@[simp] theorem nextTurn_evt : (nextTurn s).evt = s.evt := rfl
@[simp] theorem nextTurn_inp : (nextTurn s).inp = s.inp := rfl
@[simp] theorem nextTurn_host : (nextTurn s).host = s.host := rfl
@[simp] theorem nextTurn_resp : (nextTurn s).resp = s.resp := rfl
@[simp] theorem nextTurn_pins : (nextTurn s).pins = s.pins := rfl
@[simp] theorem nextTurn_sched : (nextTurn s).sched = s.sched.tail := rfl

/-! ## `applyReset` -/

@[simp] theorem applyReset_params : (applyReset s).params = s.params := rfl
@[simp] theorem applyReset_requireMasking : (applyReset s).requireMasking = s.pins.requireMasking := rfl
@[simp] theorem applyReset_strictLen : (applyReset s).strictLen = s.pins.strictLen.getD true := rfl
@[simp] theorem applyReset_txMasking : (applyReset s).txMasking = s.pins.txMasking := rfl
@[simp] theorem applyReset_phase : (applyReset s).phase = State.reset.phase := rfl
@[simp] theorem applyReset_hFin : (applyReset s).hFin = State.reset.hFin := rfl
@[simp] theorem applyReset_hRsv1 : (applyReset s).hRsv1 = State.reset.hRsv1 := rfl
@[simp] theorem applyReset_hRsv2 : (applyReset s).hRsv2 = State.reset.hRsv2 := rfl
@[simp] theorem applyReset_hRsv3 : (applyReset s).hRsv3 = State.reset.hRsv3 := rfl
@[simp] theorem applyReset_hOpcode : (applyReset s).hOpcode = State.reset.hOpcode := rfl
@[simp] theorem applyReset_hMask : (applyReset s).hMask = State.reset.hMask := rfl
@[simp] theorem applyReset_hLen7 : (applyReset s).hLen7 = State.reset.hLen7 := rfl
@[simp] theorem applyReset_ext : (applyReset s).ext = State.reset.ext := rfl
@[simp] theorem applyReset_extNeed : (applyReset s).extNeed = State.reset.extNeed := rfl
@[simp] theorem applyReset_extCnt : (applyReset s).extCnt = State.reset.extCnt := rfl
@[simp] theorem applyReset_key : (applyReset s).key = State.reset.key := rfl
@[simp] theorem applyReset_keyCnt : (applyReset s).keyCnt = State.reset.keyCnt := rfl
@[simp] theorem applyReset_plen : (applyReset s).plen = State.reset.plen := rfl
@[simp] theorem applyReset_pcnt : (applyReset s).pcnt = State.reset.pcnt := rfl
@[simp] theorem applyReset_msgOpen : (applyReset s).msgOpen = State.reset.msgOpen := rfl
@[simp] theorem applyReset_msgOpcode : (applyReset s).msgOpcode = State.reset.msgOpcode := rfl
@[simp] theorem applyReset_msgRsv1 : (applyReset s).msgRsv1 = State.reset.msgRsv1 := rfl
@[simp] theorem applyReset_msgRsv2 : (applyReset s).msgRsv2 = State.reset.msgRsv2 := rfl
@[simp] theorem applyReset_msgRsv3 : (applyReset s).msgRsv3 = State.reset.msgRsv3 := rfl
@[simp] theorem applyReset_msgBuf : (applyReset s).msgBuf = State.reset.msgBuf := rfl
@[simp] theorem applyReset_msgLen : (applyReset s).msgLen = State.reset.msgLen := rfl
@[simp] theorem applyReset_ctrlBuf : (applyReset s).ctrlBuf = State.reset.ctrlBuf := rfl
@[simp] theorem applyReset_halted : (applyReset s).halted = State.reset.halted := rfl
@[simp] theorem applyReset_errCode : (applyReset s).errCode = State.reset.errCode := rfl
@[simp] theorem applyReset_errCause : (applyReset s).errCause = State.reset.errCause := rfl
@[simp] theorem applyReset_evt : (applyReset s).evt = State.reset.evt := rfl
@[simp] theorem applyReset_inp : (applyReset s).inp = s.inp := rfl
@[simp] theorem applyReset_host : (applyReset s).host = s.host := rfl
@[simp] theorem applyReset_resp : (applyReset s).resp = s.resp := rfl
@[simp] theorem applyReset_pins : (applyReset s).pins = s.pins := rfl
@[simp] theorem applyReset_sched : (applyReset s).sched = s.sched := rfl

end Sys2Proof.Machine
end

