-- ==== Sys2Proof/Laws/Codec.lean ====
section
/-! SUPPORT. The bit laws of the frame encoding: every field of a header byte is read where it is written, and a big-endian field
is put together as it is taken apart. -/

namespace Sys2Proof

/-! ## Header bytes -/

theorem finOf_byte0 : ∀ (fin r1 r2 r3 : Bool) (op : BitVec 4), finOf (byte0 fin r1 r2 r3 op) = fin := by decide
theorem rsv1Of_byte0 : ∀ (fin r1 r2 r3 : Bool) (op : BitVec 4), rsv1Of (byte0 fin r1 r2 r3 op) = r1 := by decide
theorem rsv2Of_byte0 : ∀ (fin r1 r2 r3 : Bool) (op : BitVec 4), rsv2Of (byte0 fin r1 r2 r3 op) = r2 := by decide
theorem rsv3Of_byte0 : ∀ (fin r1 r2 r3 : Bool) (op : BitVec 4), rsv3Of (byte0 fin r1 r2 r3 op) = r3 := by decide
theorem opcodeOf_byte0 : ∀ (fin r1 r2 r3 : Bool) (op : BitVec 4), opcodeOf (byte0 fin r1 r2 r3 op) = op := by decide
theorem maskOf_byte1 : ∀ (m : Bool) (l : BitVec 7), maskOf (byte1 m l) = m := by decide
theorem len7Of_byte1 : ∀ (m : Bool) (l : BitVec 7), len7Of (byte1 m l) = l := by decide

/-- Byte 0 is its fields (30_encoding.md R71). -/
theorem byte0_fields :
    ∀ b : Byte, byte0 (finOf b) (rsv1Of b) (rsv2Of b) (rsv3Of b) (opcodeOf b) = b := by decide

/-- Byte 1 is its fields (30_encoding.md R72). -/
theorem byte1_fields : ∀ b : Byte, byte1 (maskOf b) (len7Of b) = b := by decide

/-! ## Big-endian fields -/

/-- `BE_2` as a number (00_scope.md R8). -/
theorem be2_toNat (a b : Byte) : (be2 a b).toNat = a.toNat * 256 + b.toNat := by
  have hb := b.isLt
  have : (be2 a b).toNat = a.toNat <<< 8 ||| b.toNat := BitVec.toNat_append a b
  rw [this, ← Nat.shiftLeft_add_eq_or_of_lt hb, Nat.shiftLeft_eq]

theorem append_toNat {w : Nat} (x : BitVec w) (b : Byte) : (x ++ b).toNat = x.toNat * 256 + b.toNat := by
  rw [BitVec.toNat_append, ← Nat.shiftLeft_add_eq_or_of_lt b.isLt, Nat.shiftLeft_eq]

/-- `BE_8` as a number (00_scope.md R8). -/
theorem be8_toNat (a b c d e f g h : Byte) :
    (be8 a b c d e f g h).toNat =
      ((((((a.toNat * 256 + b.toNat) * 256 + c.toNat) * 256 + d.toNat) * 256 + e.toNat) * 256 + f.toNat) * 256
        + g.toNat) * 256 + h.toNat := by
  show (a ++ b ++ c ++ d ++ e ++ f ++ g ++ h).toNat = _
  simp only [append_toNat]

theorem byteAt_toNat {w : Nat} (n : BitVec w) (k : Nat) : (n.extractLsb' k 8).toNat = n.toNat / 2 ^ k % 256 := by
  simp [BitVec.extractLsb'_toNat, Nat.shiftRight_eq_div_pow]

theorem be2_of_bytes2 (n : BitVec 16) : be2 (n.extractLsb' 8 8) (n.extractLsb' 0 8) = n := by
  apply BitVec.eq_of_toNat_eq
  have := n.isLt
  rw [be2_toNat, byteAt_toNat, byteAt_toNat]
  omega

theorem bytes2_be2 (a b : Byte) : bytes2 (be2 a b) = [a, b] := by
  have ha := a.isLt
  have hb := b.isLt
  simp only [bytes2, List.cons.injEq, and_true]
  constructor <;> apply BitVec.eq_of_toNat_eq <;> rw [byteAt_toNat, be2_toNat] <;> omega

theorem be8_of_bytes8 (n : BitVec 64) :
    be8 (n.extractLsb' 56 8) (n.extractLsb' 48 8) (n.extractLsb' 40 8) (n.extractLsb' 32 8)
      (n.extractLsb' 24 8) (n.extractLsb' 16 8) (n.extractLsb' 8 8) (n.extractLsb' 0 8) = n := by
  apply BitVec.eq_of_toNat_eq
  have := n.isLt
  rw [be8_toNat]
  simp only [byteAt_toNat]
  omega

theorem bytes8_be8 (a b c d e f g h : Byte) : bytes8 (be8 a b c d e f g h) = [a, b, c, d, e, f, g, h] := by
  have ha := a.isLt
  have hb := b.isLt
  have hc := c.isLt
  have hd := d.isLt
  have he := e.isLt
  have hf := f.isLt
  have hg := g.isLt
  have hh := h.isLt
  simp only [bytes8, List.cons.injEq, and_true]
  refine ⟨?_, ?_, ?_, ?_, ?_, ?_, ?_, ?_⟩ <;> apply BitVec.eq_of_toNat_eq <;> rw [byteAt_toNat, be8_toNat] <;> omega

/-! ## The opcode map -/

@[simp] theorem instrOf_opcode (op : BitVec 4) (f : Frame) : (instrOf op f).opcode = op := by
  have same : ∀ g, (instrOf op f).opcode = (instrOf op g).opcode := by
    intro g
    unfold instrOf
    generalize op.getLsbD 3 = a, op.getLsbD 2 = b, op.getLsbD 1 = c, op.getLsbD 0 = d
    cases a <;> cases b <;> cases c <;> cases d <;> rfl
  rw [same ⟨false, false, false, false, .direct 0, none, []⟩]
  clear same
  revert op
  decide

@[simp] theorem instrOf_frame (op : BitVec 4) (f : Frame) : (instrOf op f).frame = f := by
  unfold instrOf
  split <;> rfl

/-! ## Length fields -/

@[simp] theorem LenField.plen_toNat (l : LenField) : l.plen.toNat = l.count := by
  cases l with
  | direct n => simp [LenField.plen, LenField.count]; have := n.isLt; omega
  | ext16 n => simp [LenField.plen, LenField.count]; have := n.isLt; omega
  | ext64 n => rfl

theorem LenField.count_lt (l : LenField) : l.count < 2 ^ 64 := l.plen_toNat ▸ l.plen.isLt

theorem Frame.wf_length {f : Frame} (h : f.wf = true) : f.payload.length = f.len.count := by
  simp only [Frame.wf, Bool.and_eq_true, beq_iff_eq] at h
  exact h.2

theorem Frame.wf_len {f : Frame} (h : f.wf = true) : f.len.wf = true := by
  simp only [Frame.wf, Bool.and_eq_true] at h
  exact h.1

/-- A well-formed length field is read back from byte 1 and its own bytes (30_encoding.md R73, R74). -/
theorem takeLen_bytes {l : LenField} (h : l.wf = true) (rest : List Byte) :
    takeLen l.len7 (l.bytes ++ rest) = some (l, rest) := by
  cases l with
  | direct n =>
    have hn : n.toNat ≤ 125 := by simpa [LenField.wf] using h
    have h1 : n ≠ 126#7 := fun e => by rw [e] at hn; exact absurd hn (by decide)
    have h2 : n ≠ 127#7 := fun e => by rw [e] at hn; exact absurd hn (by decide)
    simp [takeLen, LenField.len7, LenField.bytes, h1, h2]
  | ext16 n => simp [takeLen, LenField.len7, LenField.bytes, bytes2, be2_of_bytes2]
  | ext64 n => simp [takeLen, LenField.len7, LenField.bytes, bytes8, be8_of_bytes8]

/-- The optional key is read back from its own bytes (30_encoding.md R76). -/
theorem takeKey_bytes (k : Option Key) (rest : List Byte) :
    takeKey k.isSome (keyBytes k ++ rest) = some (k, rest) := by
  cases k <;> simp [takeKey, keyBytes, Key.bytes]

/-- A payload of the announced length is split off exactly. -/
theorem takePayload_append (p rest : List Byte) : takePayload p.length (p ++ rest) = some (p, rest) := by
  simp [takePayload]

/-- What a length field read from bytes says of those bytes. -/
theorem takeLen_some {l7 : BitVec 7} {bs rest : List Byte} {l : LenField} (h : takeLen l7 bs = some (l, rest)) :
    l.wf = true ∧ l.len7 = l7 ∧ bs = l.bytes ++ rest := by
  unfold takeLen at h
  split at h
  · rename_i h7
    split at h
    · obtain ⟨rfl, rfl⟩ := Prod.mk.inj (Option.some.inj h)
      exact ⟨rfl, h7.symm, by simp [LenField.bytes, bytes2_be2]⟩
    · cases h
  · split at h
    · rename_i _ h7
      split at h
      · obtain ⟨rfl, rfl⟩ := Prod.mk.inj (Option.some.inj h)
        exact ⟨rfl, h7.symm, by simp [LenField.bytes, bytes8_be8]⟩
      · cases h
    · rename_i h6 h7
      obtain ⟨rfl, rfl⟩ := Prod.mk.inj (Option.some.inj h)
      refine ⟨?_, rfl, rfl⟩
      have := l7.isLt
      have h6' : l7.toNat ≠ 126 := fun e => h6 (BitVec.eq_of_toNat_eq e)
      have h7' : l7.toNat ≠ 127 := fun e => h7 (BitVec.eq_of_toNat_eq e)
      simp only [LenField.wf, decide_eq_true_eq]
      omega

/-- What an optional key read from bytes says of those bytes. -/
theorem takeKey_some {m : Bool} {bs rest : List Byte} {k : Option Key} (h : takeKey m bs = some (k, rest)) :
    k.isSome = m ∧ bs = keyBytes k ++ rest := by
  unfold takeKey at h
  split at h
  · rename_i hm
    split at h
    · obtain ⟨rfl, rfl⟩ := Prod.mk.inj (Option.some.inj h)
      exact ⟨hm.symm, rfl⟩
    · cases h
  · rename_i hm
    obtain ⟨rfl, rfl⟩ := Prod.mk.inj (Option.some.inj h)
    exact ⟨by simpa using hm, rfl⟩

/-- What a payload split off says of the bytes. -/
theorem takePayload_some {n : Nat} {bs p rest : List Byte} (h : takePayload n bs = some (p, rest)) :
    p.length = n ∧ bs = p ++ rest := by
  unfold takePayload at h
  split at h
  · obtain ⟨rfl, rfl⟩ := Prod.mk.inj (Option.some.inj h)
    exact ⟨by simp; omega, by simp⟩
  · cases h

end Sys2Proof
end

