-- ==== Sys2Proof/Laws/Mem.lean ====
section
/-! SUPPORT. The laws of the byte buffers: read after write, the canonical form, reading a run of bytes. -/

namespace Sys2Proof.Machine

variable {m : Mem} {a b n : Nat} {v : Byte} {size : Option Nat}

@[simp] theorem Mem.read_nil : Mem.read [] a = none := rfl

/-- A read after a write to the same address gives the value written. -/
@[simp] theorem Mem.read_write_same : (m.write a v).read a = some v := by
  induction m with
  | nil => simp [Mem.write, Mem.read]
  | cons c rest ih =>
    obtain ⟨x, y⟩ := c
    simp only [Mem.write]
    split
    · simp [Mem.read]
    · split
      · simp [Mem.read]
      · simp only [Mem.read]
        rw [if_neg (by omega)]
        exact ih

/-- A write leaves every other address alone. -/
theorem Mem.read_write_other (h : b ≠ a) : (m.write a v).read b = m.read b := by
  induction m with
  | nil => simp [Mem.write, Mem.read, h.symm]
  | cons c rest ih =>
    obtain ⟨x, y⟩ := c
    simp only [Mem.write]
    split
    · simp [Mem.read, h.symm]
    · split
      · rename_i _ hax
        subst hax
        simp [Mem.read, h.symm]
      · simp only [Mem.read, ih]

/-- A write keeps a canonical buffer canonical. -/
theorem Mem.write_wf (h : m.wf = true) : (m.write a v).wf = true := by
  induction m with
  | nil => rfl
  | cons c rest ih =>
    obtain ⟨x, y⟩ := c
    simp only [Mem.write]
    split
    · cases rest <;> simp_all [Mem.wf]
    · split
      · rename_i _ hax
        subst hax
        cases rest <;> simp_all [Mem.wf]
      · cases rest with
        | nil => simp [Mem.write, Mem.wf]; omega
        | cons d rest =>
          obtain ⟨z, w⟩ := d
          simp only [Mem.wf, Bool.and_eq_true, decide_eq_true_eq] at h
          have key := ih h.2
          clear ih
          simp only [Mem.write] at key ⊢
          split
          · rw [if_pos ‹_›] at key
            simp only [Mem.wf, Bool.and_eq_true, decide_eq_true_eq] at key ⊢
            exact ⟨by omega, key⟩
          · rw [if_neg ‹_›] at key
            split
            · rw [if_pos ‹_›] at key
              rename_i _ haz
              subst haz
              simp only [Mem.wf, Bool.and_eq_true, decide_eq_true_eq]
              exact ⟨h.1, key⟩
            · rw [if_neg ‹_›] at key
              simp only [Mem.wf, Bool.and_eq_true, decide_eq_true_eq]
              exact ⟨h.1, key⟩

/-- The empty buffer is canonical. -/
theorem Mem.nil_good : Mem.Good [] size := ⟨rfl, by simp⟩

/-- A write inside the buffer keeps it canonical and inside its size. -/
theorem Mem.Good.write (h : m.Good size) (ha : inBuffer size a = true) : (m.write a v).Good size := by
  refine ⟨Mem.write_wf h.wf, fun b hb => ?_⟩
  by_cases hab : b = a
  · exact hab ▸ ha
  · exact h.inside b (by rwa [Mem.read_write_other hab] at hb)

/-- Writing the next byte extends the part that was written. -/
theorem Mem.filled_write (h : m.filled n) : (m.write n v).filled (n + 1) := by
  intro a ha
  by_cases hn : a = n
  · simp [hn]
  · rw [Mem.read_write_other hn]
    exact h a (by omega)

@[simp] theorem Mem.filled_zero : m.filled 0 := fun _ h => absurd h (Nat.not_lt_zero _)

/-- A write keeps what was written. -/
theorem Mem.filled_write_any (h : m.filled n) : (m.write a v).filled n := by
  intro b hb
  by_cases hba : b = a
  · simp [hba]
  · rw [Mem.read_write_other hba]
    exact h b hb

@[simp] theorem Mem.readBytes_zero : m.readBytes a 0 = some [] := rfl

/-- Reading a run of bytes looks only at its addresses. -/
theorem Mem.readBytes_congr {m' : Mem} (h : ∀ x, a ≤ x → x < a + n → m'.read x = m.read x) :
    m'.readBytes a n = m.readBytes a n := by
  induction n generalizing a with
  | zero => rfl
  | succ n ih =>
    simp only [Mem.readBytes]
    rw [h a (by omega) (by omega), ih (fun x h1 h2 => h x (by omega) (by omega))]

/-- A write outside a run of bytes does not change what the run reads. -/
theorem Mem.readBytes_write_outside (h : b < a ∨ a + n ≤ b) : (m.write b v).readBytes a n = m.readBytes a n :=
  Mem.readBytes_congr fun x h1 h2 => Mem.read_write_other (by omega)

/-- Reading one byte more. -/
theorem Mem.readBytes_succ_last :
    m.readBytes a (n + 1) = (m.readBytes a n).bind fun bs => (m.read (a + n)).map fun x => bs ++ [x] := by
  induction n generalizing a with
  | zero =>
    simp only [Mem.readBytes, Nat.add_zero]
    cases m.read a <;> rfl
  | succ n ih =>
    rw [Mem.readBytes, ih]
    simp only [Mem.readBytes, show a + 1 + n = a + (n + 1) by omega]
    cases m.read a <;> cases m.readBytes (a + 1) n <;> cases m.read (a + (n + 1)) <;> rfl

/-- Appending a byte at the end of a run that reads `bs`. -/
theorem Mem.readBytes_write_next {bs : List Byte} (h : m.readBytes a n = some bs) :
    (m.write (a + n) v).readBytes a (n + 1) = some (bs ++ [v]) := by
  rw [Mem.readBytes_succ_last, Mem.readBytes_write_outside (by omega), h]
  simp

/-- A run reads exactly as many bytes as asked for. -/
theorem Mem.readBytes_length {bs : List Byte} (h : m.readBytes a n = some bs) : bs.length = n := by
  induction n generalizing a bs with
  | zero => simp_all
  | succ n ih =>
    simp only [Mem.readBytes] at h
    split at h
    · rename_i b' bs' _ hbs
      have := ih hbs
      simp_all [← Option.some.inj h]
    · cases h

/-- Reading a run whose bytes were all written succeeds. -/
theorem Mem.readBytes_isSome (h : ∀ x, a ≤ x → x < a + n → (m.read x).isSome = true) :
    ∃ bs, m.readBytes a n = some bs := by
  induction n generalizing a with
  | zero => exact ⟨[], rfl⟩
  | succ n ih =>
    obtain ⟨bs, hbs⟩ := ih (a := a + 1) fun x h1 h2 => h x (by omega) (by omega)
    obtain ⟨b, hb⟩ := Option.isSome_iff_exists.1 (h a (by omega) (by omega))
    exact ⟨b :: bs, by simp [Mem.readBytes, hb, hbs]⟩

/-- The written part of a buffer can be read. -/
theorem Mem.filled_readBytes (h : m.filled n) : ∃ bs, m.readBytes 0 n = some bs :=
  Mem.readBytes_isSome fun x _ hx => h x (by omega)

/-- A run that reads was written. -/
theorem Mem.readBytes_filled {bs : List Byte} (h : m.readBytes 0 n = some bs) : m.filled n := by
  induction n generalizing bs with
  | zero => exact Mem.filled_zero
  | succ n ih =>
    rw [Mem.readBytes_succ_last] at h
    cases h1 : m.readBytes 0 n with
    | none => simp [h1] at h
    | some cs =>
      intro x hx
      by_cases hn : x = n
      · subst hn
        cases h2 : m.read x with
        | none => simp [h1, h2] at h
        | some _ => rfl
      · exact ih h1 x (by omega)

/-- The first two bytes and the rest of a run that reads. -/
theorem Mem.readBytes_two_rest {bs : List Byte} (h : m.readBytes 0 (n + 2) = some bs) :
    ∃ b0 b1 rest, bs = b0 :: b1 :: rest ∧ m.read 0 = some b0 ∧ m.read 1 = some b1 ∧
      m.readBytes 2 n = some rest := by
  simp only [Mem.readBytes] at h
  cases h0 : m.read 0 <;> cases h1 : m.read (0 + 1) <;> cases h2 : m.readBytes (0 + 1 + 1) n <;> simp_all

end Sys2Proof.Machine
end

