-- ==== Sys2Proof/Laws/Payload.lean ====
section
/-! SUPPORT. What the payload part of a frame does: the masking engine's small laws, runs of buffer writes, and one lemma for each
kind of frame that says the state its payload leaves. -/

namespace Sys2Proof.Machine

/-! ## Masking -/

@[simp] theorem maskFrom_nil (k : Key) (i : Nat) : maskFrom k i [] = [] := rfl

theorem maskFrom_cons (k : Key) (i : Nat) (b : Byte) (bs : List Byte) :
    maskFrom k i (b :: bs) = (b ^^^ k.at i) :: maskFrom k (i + 1) bs := rfl

@[simp] theorem maskFrom_length (k : Key) (i : Nat) (bs : List Byte) : (maskFrom k i bs).length = bs.length := by
  induction bs generalizing i with
  | nil => rfl
  | cons b bs ih => simp [maskFrom_cons, ih]

@[simp] theorem appPayload_length (f : Frame) : (appPayload f).length = f.payload.length := by
  unfold appPayload
  split <;> simp [maskApply]

/-- The bytes a payload leaves in its buffer, from the payload counter on (41_mask_engine.md R101, R102). -/
def unmaskAll (ws : List Byte) (s : State) : List Byte :=
  if s.hMask then maskFrom s.key s.pcnt.toNat ws else ws

@[simp] theorem unmaskAll_length (ws : List Byte) (s : State) : (unmaskAll ws s).length = ws.length := by
  unfold unmaskAll
  split <;> simp

@[simp] theorem unmaskAll_nil (s : State) : unmaskAll [] s = [] := by simp [unmaskAll]

/-- After a header is loaded and the counter cleared, the payload unmasks to the application bytes. -/
theorem unmaskAll_start (op : BitVec 4) (f : Frame) (s : State) :
    unmaskAll f.payload (startPayload (loadHeader op f s)) = appPayload f := by
  cases h : f.key <;> simp [unmaskAll, appPayload, maskApply, h]

/-! ## Runs of writes -/

/-- Write a run of bytes at rising addresses. -/
def Mem.writeRun (m : Mem) (a : Nat) : List Byte → Mem
  | [] => m
  | b :: bs => (m.write a b).writeRun (a + 1) bs

@[simp] theorem Mem.writeRun_nil (m : Mem) (a : Nat) : m.writeRun a [] = m := rfl

/-- A run leaves every address outside it alone. -/
theorem Mem.read_writeRun_outside {m : Mem} {a b : Nat} {bs : List Byte} (h : b < a ∨ a + bs.length ≤ b) :
    (m.writeRun a bs).read b = m.read b := by
  induction bs generalizing m a with
  | nil => rfl
  | cons v bs ih =>
    simp only [List.length_cons] at h
    rw [Mem.writeRun, ih (by omega), Mem.read_write_other (by omega)]

/-- A run is read back as it was written. -/
theorem Mem.readBytes_writeRun (m : Mem) (a : Nat) (bs : List Byte) :
    (m.writeRun a bs).readBytes a bs.length = some bs := by
  induction bs generalizing m a with
  | nil => rfl
  | cons v bs ih =>
    rw [Mem.writeRun, List.length_cons, Mem.readBytes, ih, Mem.read_writeRun_outside (by omega)]
    simp

/-- A run appended to bytes that read `old`. -/
theorem Mem.readBytes_writeRun_append {m : Mem} {n : Nat} {old : List Byte} (bs : List Byte)
    (h : m.readBytes 0 n = some old) : (m.writeRun n bs).readBytes 0 (n + bs.length) = some (old ++ bs) := by
  induction bs generalizing m n old with
  | nil => simpa using h
  | cons v bs ih =>
    have h1 : (m.write n v).readBytes 0 (n + 1) = some (old ++ [v]) := by
      have := Mem.readBytes_write_next (v := v) h
      simpa using this
    have := ih h1
    rw [Mem.writeRun, List.length_cons, show n + (bs.length + 1) = n + 1 + bs.length by omega, this]
    simp

/-- A run inside the buffer keeps it canonical and inside its size. -/
theorem Mem.Good.writeRun {m : Mem} {size : Option Nat} {a : Nat} {bs : List Byte} (h : m.Good size)
    (ha : ∀ x, a ≤ x → x < a + bs.length → inBuffer size x = true) : (m.writeRun a bs).Good size := by
  induction bs generalizing m a with
  | nil => exact h
  | cons v bs ih =>
    simp only [List.length_cons] at ha
    exact ih (h.write (ha a (by omega) (by omega))) fun x h1 h2 => ha x (by omega) (by omega)

/-! ## Sizes -/

@[simp] theorem inBuffer_none (a : Nat) : inBuffer none a = true := rfl

theorem inBuffer_iff {size : Option Nat} {a : Nat} :
    inBuffer size a = true ↔ ∀ m, size = some m → a < m := by
  cases size <;> simp [inBuffer]

/-! ## The payload of a frame -/

/-- The state with another CTRL_BUF and payload counter. -/
@[simps] def withCtrl (buf : Mem) (n : Length) (s : State) : State := { s with ctrlBuf := buf, pcnt := n }

/-- The state with another MSG_BUF, MSG_LEN and payload counter. -/
@[simps] def withMsg (buf : Mem) (len : Nat) (n : Length) (s : State) : State :=
  { s with msgBuf := buf, msgLen := len, pcnt := n }

theorem payloadStore_control {s : State} {w : Byte} (hc : isControl s.hOpcode = true) (h : s.pcnt.toNat < 125) :
    payloadStore w s = .next (withCtrl (s.ctrlBuf.write s.pcnt.toNat (unmaskByte w s)) (s.pcnt + 1) s) := by
  simp [payloadStore, hc, ctrlStore, inBuffer, ctrlBufSize, h, countByte, withCtrl]

theorem payloadStore_message {s : State} {w : Byte} (hc : isControl s.hOpcode = false)
    (h : inBuffer s.params.maxMessageBytes s.msgLen = true) :
    payloadStore w s =
      .next (withMsg (s.msgBuf.write s.msgLen (unmaskByte w s)) (s.msgLen + 1) (s.pcnt + 1) s) := by
  simp [payloadStore, hc, msgAppend, h, countByte, withMsg]

theorem pcnt_succ {p : Length} {n : Nat} (h : p.toNat + (n + 1) < 2 ^ 64) : (p + 1).toNat = p.toNat + 1 := by
  bv_omega

theorem pcnt_add_succ (p : Length) (n : Nat) : p + 1 + BitVec.ofNat 64 n = p + BitVec.ofNat 64 (n + 1) := by
  rw [Nat.add_comm n 1, BitVec.ofNat_add, BitVec.add_assoc]
  rfl

theorem unmaskAll_cons {s t : State} {w : Byte} {ws : List Byte} (h : s.pcnt.toNat + (ws.length + 1) < 2 ^ 64)
    (hm : t.hMask = s.hMask) (hk : t.key = s.key) (hp : t.pcnt = s.pcnt + 1) :
    unmaskAll (w :: ws) s = unmaskByte w s :: unmaskAll ws t := by
  unfold unmaskAll unmaskByte
  rw [hm, hk, hp, pcnt_succ h]
  split <;> rfl

/-- The payload of a control frame goes to CTRL_BUF from the payload counter on, and nothing else changes but the counter
(44_parser.md R171, R177). -/
theorem storeAll_control {ws : List Byte} {s : State} (hc : isControl s.hOpcode = true)
    (h : s.pcnt.toNat + ws.length ≤ 125) :
    storeAll ws s = .next (withCtrl (s.ctrlBuf.writeRun s.pcnt.toNat (unmaskAll ws s))
      (s.pcnt + BitVec.ofNat 64 ws.length) s) := by
  induction ws generalizing s with
  | nil => simp [storeAll, withCtrl]
  | cons w ws ih =>
    simp only [List.length_cons] at h ⊢
    have hp := pcnt_succ (p := s.pcnt) (n := ws.length) (by omega)
    rw [storeAll, payloadStore_control hc (by omega), andThen_next,
      ih (s := withCtrl (s.ctrlBuf.write s.pcnt.toNat (unmaskByte w s)) (s.pcnt + 1) s) hc
        (by rw [withCtrl_pcnt, hp]; omega),
      unmaskAll_cons (s := s) (w := w) (ws := ws) (t := withCtrl (s.ctrlBuf.write s.pcnt.toNat (unmaskByte w s)) (s.pcnt + 1) s)
        (by omega) rfl rfl rfl]
    simp only [Mem.writeRun, withCtrl_pcnt, withCtrl_ctrlBuf, hp, pcnt_add_succ]
    rfl

/-- The payload of a data or continuation frame is appended to MSG_BUF, and nothing else changes but MSG_LEN and the
payload counter (43_reassembler.md R142; 44_parser.md R171). -/
theorem storeAll_message {ws : List Byte} {s : State} (hc : isControl s.hOpcode = false)
    (h : s.pcnt.toNat + ws.length < 2 ^ 64)
    (hfit : ∀ m, s.params.maxMessageBytes = some m → s.msgLen + ws.length ≤ m) :
    storeAll ws s = .next (withMsg (s.msgBuf.writeRun s.msgLen (unmaskAll ws s)) (s.msgLen + ws.length)
      (s.pcnt + BitVec.ofNat 64 ws.length) s) := by
  induction ws generalizing s with
  | nil => simp [storeAll, withMsg]
  | cons w ws ih =>
    simp only [List.length_cons] at h hfit ⊢
    have hp := pcnt_succ (p := s.pcnt) (n := ws.length) (by omega)
    rw [storeAll, payloadStore_message hc (inBuffer_iff.2 fun m hm => by have := hfit m hm; omega), andThen_next,
      ih (s := withMsg (s.msgBuf.write s.msgLen (unmaskByte w s)) (s.msgLen + 1) (s.pcnt + 1) s) hc
        (by rw [withMsg_pcnt, hp]; omega) (fun m hm => by have := hfit m hm; rw [withMsg_msgLen]; omega),
      unmaskAll_cons (s := s) (w := w) (ws := ws) (t := withMsg (s.msgBuf.write s.msgLen (unmaskByte w s)) (s.msgLen + 1) (s.pcnt + 1) s)
        (by omega) rfl rfl rfl]
    simp only [Mem.writeRun, withMsg_pcnt, withMsg_msgBuf, withMsg_msgLen, pcnt_add_succ,
      show s.msgLen + 1 + ws.length = s.msgLen + (ws.length + 1) by omega]
    rfl

end Sys2Proof.Machine
end

