-- ==== Sys2Proof/Laws/Frames.lean ====
section
/-! SUPPORT. What a whole frame does, once for every opcode: discarded while halted, rejected by the first failing check, or its
payload stored and its rule applied. -/

namespace Sys2Proof.Machine

variable {op : BitVec 4} {rule : State → Result} {f : Frame} {s t : State}

theorem runFrame_halted (h : s.halted = true) : runFrame op rule f s = .next s := by
  simp [runFrame, h]

theorem runFrame_rejected {c : Cause} (h : s.halted = false) (hv : validate (loadHeader op f s) = some c) :
    runFrame op rule f s = .next (raiseError c (loadHeader op f s)) := by
  simp [runFrame, h, hv]

/-- The registers a data or continuation frame has left when its rule at frame complete runs. -/
def storedMessage (op : BitVec 4) (f : Frame) (s : State) : State :=
  withMsg (s.msgBuf.writeRun s.msgLen (appPayload f)) (s.msgLen + f.payload.length)
    (BitVec.ofNat 64 f.payload.length) (loadHeader op f s)

/-- The registers a control frame has left when its rule at frame complete runs. -/
def storedControl (op : BitVec 4) (f : Frame) (s : State) : State :=
  withCtrl (s.ctrlBuf.writeRun 0 (appPayload f)) (BitVec.ofNat 64 f.payload.length) (loadHeader op f s)

theorem runFrame_message (hc : isControl op = false) (h : s.halted = false)
    (hv : validate (loadHeader op f s) = none) (hlen : f.payload.length < 2 ^ 64)
    (hfit : ∀ m, s.params.maxMessageBytes = some m → s.msgLen + f.payload.length ≤ m) :
    runFrame op rule f s = finishFrame rule (storedMessage op f s) := by
  have hz : (startPayload (loadHeader op f s)).pcnt.toNat = 0 := rfl
  simp only [runFrame, h, hv, Bool.false_eq_true, if_false]
  rw [storeAll_message (s := startPayload (loadHeader op f s)) hc (by rw [hz]; omega) hfit, unmaskAll_start,
    andThen_next, startPayload_pcnt, show (0 : Length) + BitVec.ofNat 64 f.payload.length = BitVec.ofNat 64 f.payload.length
      from BitVec.zero_add _]
  rfl

theorem runFrame_control (hc : isControl op = true) (h : s.halted = false)
    (hv : validate (loadHeader op f s) = none) (hlen : f.payload.length ≤ 125) :
    runFrame op rule f s = finishFrame rule (storedControl op f s) := by
  have hz : (startPayload (loadHeader op f s)).pcnt.toNat = 0 := rfl
  simp only [runFrame, h, hv, Bool.false_eq_true, if_false]
  rw [storeAll_control (s := startPayload (loadHeader op f s)) hc (by rw [hz]; omega), unmaskAll_start,
    andThen_next, hz, startPayload_pcnt,
    show (0 : Length) + BitVec.ofNat 64 f.payload.length = BitVec.ofNat 64 f.payload.length from BitVec.zero_add _]
  rfl

/-- The rule of a frame answers a next state, and PHASE goes to HDR0 (44_parser.md R172). -/
theorem finishFrame_next {u : State} (h : rule s = .next u) : finishFrame rule s = .next (setPhase .hdr0 u) := by
  simp [finishFrame, h]

theorem finishFrame_eq_next : finishFrame rule s = .next t ↔ ∃ u, rule s = .next u ∧ t = setPhase .hdr0 u := by
  simp only [finishFrame, andThen_eq_next, Host.Outcome.next.injEq]
  constructor <;> rintro ⟨u, h, rfl⟩ <;> exact ⟨u, h, rfl⟩

/-- A message that reads is emitted and the reassembler cleared (43_reassembler.md R143). -/
theorem emitMessage_of_read {o : BitVec 4} {r1 r2 r3 : Bool} {p : List Byte} (h : s.msgBuf.readBytes 0 s.msgLen = some p) :
    emitMessage o r1 r2 r3 s = .next (emit (.message o r1 r2 r3 p) (msgClear s)) := by
  simp [emitMessage, h]

/-- What emitting a message can do: the payload was read, the reassembler is cleared, one record is appended. -/
theorem emitMessage_eq_next {o : BitVec 4} {r1 r2 r3 : Bool} :
    emitMessage o r1 r2 r3 s = .next t ↔
      ∃ p, s.msgBuf.readBytes 0 s.msgLen = some p ∧ t = emit (.message o r1 r2 r3 p) (msgClear s) := by
  unfold emitMessage
  cases s.msgBuf.readBytes 0 s.msgLen <;> simp [eq_comm]

/-- The message that a data or continuation frame has completed is what was there and its own application bytes. -/
theorem storedMessage_reads {old : List Byte} (h : s.msgBuf.readBytes 0 s.msgLen = some old) :
    (storedMessage op f s).msgBuf.readBytes 0 (storedMessage op f s).msgLen = some (old ++ appPayload f) := by
  have := Mem.readBytes_writeRun_append (appPayload f) h
  rwa [appPayload_length] at this

/-- The control payload reads back as the application bytes. -/
theorem storedControl_reads :
    (storedControl op f s).ctrlBuf.readBytes 0 f.payload.length = some (appPayload f) := by
  have := Mem.readBytes_writeRun s.ctrlBuf 0 (appPayload f)
  rwa [appPayload_length] at this

/-- What TEXT at frame complete can do. -/
theorem textComplete_cases (h : textComplete s = .next t) :
    (∃ p, s.hFin = true ∧ s.msgBuf.readBytes 0 s.msgLen = some p ∧
      t = emit (.message 1 s.hRsv1 s.hRsv2 s.hRsv3 p) (msgClear s)) ∨
    (s.hFin = false ∧ t = msgOpenAs 1 s.hRsv1 s.hRsv2 s.hRsv3 s) := by
  unfold textComplete at h
  split at h
  · obtain ⟨p, hp, rfl⟩ := emitMessage_eq_next.1 h
    exact .inl ⟨p, ‹_›, hp, rfl⟩
  · rename_i hf
    exact .inr ⟨by simpa using hf, by simpa using h.symm⟩

/-- What BINARY at frame complete can do. -/
theorem binaryComplete_cases (h : binaryComplete s = .next t) :
    (∃ p, s.hFin = true ∧ s.msgBuf.readBytes 0 s.msgLen = some p ∧
      t = emit (.message 2 s.hRsv1 s.hRsv2 s.hRsv3 p) (msgClear s)) ∨
    (s.hFin = false ∧ t = msgOpenAs 2 s.hRsv1 s.hRsv2 s.hRsv3 s) := by
  unfold binaryComplete at h
  split at h
  · obtain ⟨p, hp, rfl⟩ := emitMessage_eq_next.1 h
    exact .inl ⟨p, ‹_›, hp, rfl⟩
  · rename_i hf
    exact .inr ⟨by simpa using hf, by simpa using h.symm⟩

/-- What CONT at frame complete can do. -/
theorem contComplete_cases (h : contComplete s = .next t) :
    (∃ p, s.hFin = true ∧ s.msgBuf.readBytes 0 s.msgLen = some p ∧
      t = emit (.message s.msgOpcode s.msgRsv1 s.msgRsv2 s.msgRsv3 p) (msgClear s)) ∨
    (s.hFin = false ∧ t = s) := by
  unfold contComplete at h
  split at h
  · obtain ⟨p, hp, rfl⟩ := emitMessage_eq_next.1 h
    exact .inl ⟨p, ‹_›, hp, rfl⟩
  · rename_i hf
    exact .inr ⟨by simpa using hf, by simpa using h.symm⟩

/-- What CLOSE at frame complete can do: one Close record. -/
theorem closeComplete_cases (h : closeComplete s = .next t) :
    ∃ code reason, t = emit (.close code reason) s := by
  unfold closeComplete at h
  split at h
  · exact ⟨_, _, by simpa using h.symm⟩
  · split at h
    · cases h
    · split at h
      · exact ⟨_, _, by simpa using h.symm⟩
      · cases h

/-- What PING at frame complete can do: one Ping record. -/
theorem pingComplete_cases (h : pingComplete s = .next t) : ∃ p, t = emit (.ping p) s := by
  unfold pingComplete at h
  split at h
  · exact ⟨_, by simpa using h.symm⟩
  · cases h

/-- What PONG at frame complete can do: one Pong record. -/
theorem pongComplete_cases (h : pongComplete s = .next t) : ∃ p, t = emit (.pong p) s := by
  unfold pongComplete at h
  split at h
  · exact ⟨_, by simpa using h.symm⟩
  · cases h

end Sys2Proof.Machine
end

