-- ==== Sys2Proof/Laws/Serial.lean ====
section
/-! SUPPORT. What the byte steps do when the bytes of a frame come one after another: the header in each of its forms, the
payload, and the end of the frame; PHASE is read by no rule but PUSH. -/

namespace Sys2Proof.Machine

variable {s t : State} {op : BitVec 4} {f : Frame} {b : Byte} {bs : List Byte}

/-! ## Runs of bytes -/

theorem pushAll_cons : pushAll (b :: bs) s = andThen (pushByte b s) (pushAll bs) := rfl

@[simp] theorem pushAll_nil : pushAll [] s = .next s := rfl

/-- While halted every byte is discarded (44_parser.md R160). -/
theorem pushByte_of_halted (h : s.halted = true) : pushByte b s = .next s := by simp [pushByte, h]

theorem pushAll_of_halted (h : s.halted = true) : pushAll bs s = .next s := by
  induction bs with
  | nil => rfl
  | cons b bs ih => rw [pushAll_cons, pushByte_of_halted h, andThen_next, ih]

/-! ## PHASE is read by PUSH only -/

@[simp] theorem setPhase_setPhase (p q : Phase) (s : State) : setPhase p (setPhase q s) = setPhase p s := rfl

@[simp] theorem validate_setPhase (p : Phase) (s : State) : validate (setPhase p s) = validate s := rfl

@[simp] theorem raiseError_setPhase (c : Cause) (p : Phase) (s : State) :
    raiseError c (setPhase p s) = raiseError c s := rfl

/-- A rule whose outcome has PHASE as it was, whatever PHASE is. -/
def PhaseBlind (rule : State → Result) : Prop :=
  ∀ p s, rule (setPhase p s) = andThen (rule s) fun t => .next (setPhase p t)

theorem emitMessage_phaseBlind (o : BitVec 4) (r1 r2 r3 : Bool) : PhaseBlind (emitMessage o r1 r2 r3) := by
  intro p s
  simp only [emitMessage, setPhase_msgBuf, setPhase_msgLen]
  cases s.msgBuf.readBytes 0 s.msgLen <;> rfl

theorem textComplete_phaseBlind : PhaseBlind textComplete := by
  intro p s
  unfold textComplete
  cases h : s.hFin <;> simp only [setPhase_hFin, h, Bool.false_eq_true, if_true, if_false]
  · rfl
  · exact emitMessage_phaseBlind _ _ _ _ p s

theorem binaryComplete_phaseBlind : PhaseBlind binaryComplete := by
  intro p s
  unfold binaryComplete
  cases h : s.hFin <;> simp only [setPhase_hFin, h, Bool.false_eq_true, if_true, if_false]
  · rfl
  · exact emitMessage_phaseBlind _ _ _ _ p s

theorem contComplete_phaseBlind : PhaseBlind contComplete := by
  intro p s
  unfold contComplete
  cases h : s.hFin <;> simp only [setPhase_hFin, h, Bool.false_eq_true, if_true, if_false]
  · rfl
  · exact emitMessage_phaseBlind _ _ _ _ p s

theorem closeComplete_phaseBlind : PhaseBlind closeComplete := by
  intro p s
  simp only [closeComplete, setPhase_plen, setPhase_ctrlBuf]
  by_cases h0 : s.plen = 0
  · simp only [h0, if_true]
    rfl
  · by_cases h1 : s.plen = 1
    · simp only [h1, if_true]
      rfl
    · simp only [h0, h1, if_false]
      cases s.ctrlBuf.read 0 <;> cases s.ctrlBuf.read 1 <;> cases s.ctrlBuf.readBytes 2 (s.plen.toNat - 2) <;> rfl

theorem pingComplete_phaseBlind : PhaseBlind pingComplete := by
  intro p s
  simp only [pingComplete, setPhase_plen, setPhase_ctrlBuf]
  cases s.ctrlBuf.readBytes 0 s.plen.toNat <;> rfl

theorem pongComplete_phaseBlind : PhaseBlind pongComplete := by
  intro p s
  simp only [pongComplete, setPhase_plen, setPhase_ctrlBuf]
  cases s.ctrlBuf.readBytes 0 s.plen.toNat <;> rfl

theorem frameRule_phaseBlind (op : BitVec 4) : PhaseBlind (frameRule op) := by
  unfold frameRule
  repeat' split
  · exact textComplete_phaseBlind
  · exact binaryComplete_phaseBlind
  · exact contComplete_phaseBlind
  · exact closeComplete_phaseBlind
  · exact pingComplete_phaseBlind
  · exact pongComplete_phaseBlind
  · exact fun _ _ => rfl

/-- The end of a frame is the same whatever PHASE was before it. -/
theorem finishFrame_setPhase {rule : State → Result} (h : PhaseBlind rule) (p : Phase) (s : State) :
    finishFrame rule (setPhase p s) = finishFrame rule s := by
  unfold finishFrame
  rw [h p s, andThen_assoc]
  rfl

theorem frameComplete_setPhase (p : Phase) (s : State) : frameComplete (setPhase p s) = frameComplete s :=
  finishFrame_setPhase (frameRule_phaseBlind _) p s

/-- Header complete is the same whatever PHASE was before it (42_header_decoder.md R116). -/
theorem headerComplete_setPhase (p : Phase) (s : State) : headerComplete (setPhase p s) = headerComplete s := by
  unfold headerComplete
  rw [validate_setPhase]
  cases validate s with
  | some c => rfl
  | none =>
    show (if s.plen = 0 then frameComplete (setPhase p (startPayload s)) else _) = _
    rw [frameComplete_setPhase]
    rfl

theorem ctrlStore_phaseBlind (v : Byte) : PhaseBlind (ctrlStore v) := by
  intro p s
  cases h : inBuffer (some ctrlBufSize) s.pcnt.toNat <;> simp [ctrlStore, h, setPhase]

theorem msgAppend_phaseBlind (v : Byte) : PhaseBlind (msgAppend v) := by
  intro p s
  cases h : inBuffer s.params.maxMessageBytes s.msgLen <;> simp [msgAppend, h, setPhase]

theorem payloadStore_phaseBlind (w : Byte) : PhaseBlind (payloadStore w) := by
  intro p s
  show andThen (if isControl s.hOpcode then ctrlStore (unmaskByte w s) (setPhase p s)
    else msgAppend (unmaskByte w s) (setPhase p s)) _ = _
  rw [ctrlStore_phaseBlind, msgAppend_phaseBlind]
  unfold payloadStore
  cases isControl s.hOpcode <;> simp only [Bool.false_eq_true, if_true, if_false, andThen_assoc] <;> rfl

theorem storeAll_phaseBlind (ws : List Byte) : PhaseBlind (storeAll ws) := by
  induction ws with
  | nil => exact fun _ _ => rfl
  | cons w ws ih =>
    intro p s
    rw [storeAll, storeAll, payloadStore_phaseBlind w p s]
    cases payloadStore w s with
    | next t => exact ih p t
    | fault e => rfl
    | refused e => rfl

/-! ## Whole frames are one shape -/

/-- The opcode classes are four (30_encoding.md R79). -/
theorem isReserved_iff (op : BitVec 4) :
    isReserved op = true ↔ isControl op = false ∧ isData op = false ∧ isCont op = false := by
  revert op; decide

/-- A reserved opcode always fails check 1 (42_header_decoder.md R120). -/
theorem validate_reserved (h : isReserved s.hOpcode = true) : validate s = some .reservedOpcode := by
  simp [validate, checkOrder, checkFails, h]

theorem reservedFrame_eq {rule : State → Result} (h : isReserved op = true) :
    reservedFrame op f s = runFrame op rule f s := by
  unfold reservedFrame runFrame
  rw [validate_reserved (s := loadHeader op f s) h]

/-- Every frame is run in the one shape, with its opcode's rule (44_parser.md R172). -/
theorem exec_eq_runFrame (i : Instr) (s : State) :
    exec i s = runFrame i.opcode (frameRule i.opcode) i.frame s := by
  cases i <;> first | exact reservedFrame_eq (by decide) | rfl

/-- What a header that passes every check satisfies (42_header_decoder.md R120 to R128). -/
theorem validate_eq_none (h : validate s = none) (c : Cause) : checkFails c s = false := by
  have := (List.find?_eq_none.1 h) c (by cases c <;> decide)
  simpa using this

theorem frame_payload_lt (h : f.wf = true) : f.payload.length < 2 ^ 64 := by
  rw [Frame.wf_length h]
  exact LenField.count_lt _

/-- A valid data or continuation frame fits into MSG_BUF (42_header_decoder.md R128; 20_memory.md R59). -/
theorem validate_fits (hw : f.wf = true) (hop : isControl op = false) (hv : validate (loadHeader op f s) = none) :
    ∀ m, s.params.maxMessageBytes = some m → s.msgLen + f.payload.length ≤ m := by
  intro m hm
  have classes : ∀ op : BitVec 4, isReserved op = false → isControl op = false → (isData op || isCont op) = true := by
    decide
  have hd := classes op (validate_eq_none hv .reservedOpcode) hop
  have h9 : ((isData op || isCont op) && tooBig s.params.maxMessageBytes (s.msgLen + f.len.plen.toNat)) = false :=
    validate_eq_none hv .messageTooBig
  rw [hd, hm, LenField.plen_toNat] at h9
  rw [Frame.wf_length hw]
  simpa [tooBig] using h9

/-- A valid control frame fits into CTRL_BUF (42_header_decoder.md R122; 20_memory.md R59). -/
theorem validate_short (hw : f.wf = true) (hop : isControl op = true) (hv : validate (loadHeader op f s) = none) :
    f.payload.length ≤ 125 := by
  have h3 : (isControl op && decide (125 < f.len.plen.toNat)) = false := validate_eq_none hv .controlTooLong
  rw [hop, LenField.plen_toNat] at h3
  rw [Frame.wf_length hw]
  simpa using h3

/-- What a data or continuation frame can do: nothing while halted, the error entry, or its payload stored and its rule
applied. -/
theorem runFrame_message_cases {rule : State → Result} (hw : f.wf = true) (hop : isControl op = false)
    (h : runFrame op rule f s = .next t) :
    (s.halted = true ∧ t = s) ∨
    (s.halted = false ∧ ∃ c, validate (loadHeader op f s) = some c ∧ t = raiseError c (loadHeader op f s)) ∨
    (s.halted = false ∧ validate (loadHeader op f s) = none ∧
      ∃ u, rule (storedMessage op f s) = .next u ∧ t = setPhase .hdr0 u) := by
  cases hh : s.halted with
  | true =>
    rw [runFrame_halted hh] at h
    exact .inl ⟨rfl, (Host.Outcome.next.inj h).symm⟩
  | false =>
    cases hv : validate (loadHeader op f s) with
    | some c =>
      rw [runFrame_rejected hh hv] at h
      exact .inr (.inl ⟨rfl, c, rfl, (Host.Outcome.next.inj h).symm⟩)
    | none =>
      rw [runFrame_message hop hh hv (frame_payload_lt hw) (validate_fits hw hop hv)] at h
      exact .inr (.inr ⟨rfl, rfl, finishFrame_eq_next.1 h⟩)

/-- What a control frame can do: nothing while halted, the error entry, or its payload stored and its rule applied. -/
theorem runFrame_control_cases {rule : State → Result} (hw : f.wf = true) (hop : isControl op = true)
    (h : runFrame op rule f s = .next t) :
    (s.halted = true ∧ t = s) ∨
    (s.halted = false ∧ ∃ c, validate (loadHeader op f s) = some c ∧ t = raiseError c (loadHeader op f s)) ∨
    (s.halted = false ∧ validate (loadHeader op f s) = none ∧
      ∃ u, rule (storedControl op f s) = .next u ∧ t = setPhase .hdr0 u) := by
  cases hh : s.halted with
  | true =>
    rw [runFrame_halted hh] at h
    exact .inl ⟨rfl, (Host.Outcome.next.inj h).symm⟩
  | false =>
    cases hv : validate (loadHeader op f s) with
    | some c =>
      rw [runFrame_rejected hh hv] at h
      exact .inr (.inl ⟨rfl, c, rfl, (Host.Outcome.next.inj h).symm⟩)
    | none =>
      rw [runFrame_control hop hh hv (validate_short hw hop hv)] at h
      exact .inr (.inr ⟨rfl, rfl, finishFrame_eq_next.1 h⟩)

/-- What the rule of a completing frame can do: deliver a message and clear the reassembler, open a message, nothing, or
append one record (44_parser.md R172). -/
theorem frameRule_cases (h : frameRule op s = .next t) :
    (∃ e, t = emit e (msgClear s)) ∨ (∃ o r1 r2 r3, t = msgOpenAs o r1 r2 r3 s) ∨ t = s ∨ ∃ e, t = emit e s := by
  unfold frameRule at h
  repeat' split at h
  · rcases textComplete_cases h with ⟨p, -, -, e⟩ | ⟨-, e⟩
    · exact .inl ⟨_, e⟩
    · exact .inr (.inl ⟨_, _, _, _, e⟩)
  · rcases binaryComplete_cases h with ⟨p, -, -, e⟩ | ⟨-, e⟩
    · exact .inl ⟨_, e⟩
    · exact .inr (.inl ⟨_, _, _, _, e⟩)
  · rcases contComplete_cases h with ⟨p, -, -, e⟩ | ⟨-, e⟩
    · exact .inl ⟨_, e⟩
    · exact .inr (.inr (.inl e))
  · obtain ⟨c, r, e⟩ := closeComplete_cases h
    exact .inr (.inr (.inr ⟨_, e⟩))
  · obtain ⟨p, e⟩ := pingComplete_cases h
    exact .inr (.inr (.inr ⟨_, e⟩))
  · obtain ⟨p, e⟩ := pongComplete_cases h
    exact .inr (.inr (.inr ⟨_, e⟩))
  · cases h

/-! ## The header, byte by byte -/

/-- The header registers while a header of frame `f` is read, its length field and its key still to come. -/
def loadFixed (op : BitVec 4) (f : Frame) (s : State) : State :=
  { s with
    hFin := f.fin, hRsv1 := f.rsv1, hRsv2 := f.rsv2, hRsv3 := f.rsv3, hOpcode := op
    hMask := f.key.isSome, hLen7 := f.len.len7, ext := 0, extCnt := 0, keyCnt := 0, extNeed := f.len.need
    plen := (match f.len with
      | .direct n => n.setWidth 64
      | .ext16 _ => s.plen
      | .ext64 _ => s.plen) }

theorem extNeedOf_len7 {l : LenField} (h : l.wf = true) : extNeedOf l.len7 = l.need := by
  cases l with
  | direct n =>
    have hn : n.toNat ≤ 125 := by simpa [LenField.wf] using h
    simp [extNeedOf, LenField.len7, LenField.need, hn]
  | ext16 n => rfl
  | ext64 n => rfl

theorem shiftIn_toNat {e : Length} {b : Byte} (h : e.toNat * 256 + 255 < 2 ^ 64) :
    (shiftIn e b).toNat = e.toNat * 256 + b.toNat := by
  have := b.isLt
  unfold shiftIn
  simp only [BitVec.toNat_add, BitVec.toNat_mul, BitVec.toNat_setWidth, BitVec.toNat_ofNat]
  omega

theorem shiftIn_two (a b : Byte) : shiftIn (shiftIn 0 a) b = (be2 a b).setWidth 64 := by
  apply BitVec.eq_of_toNat_eq
  have ha := a.isLt
  have hb := b.isLt
  have h1 : (shiftIn 0 a).toNat = a.toNat := by rw [shiftIn_toNat (by decide)]; simp
  rw [shiftIn_toNat (by rw [h1]; omega), h1, BitVec.toNat_setWidth, be2_toNat]
  omega

theorem shiftIn_eight (a b c d e f g h : Byte) :
    shiftIn (shiftIn (shiftIn (shiftIn (shiftIn (shiftIn (shiftIn (shiftIn 0 a) b) c) d) e) f) g) h =
      be8 a b c d e f g h := by
  apply BitVec.eq_of_toNat_eq
  have ha := a.isLt
  have hb := b.isLt
  have hc := c.isLt
  have hd := d.isLt
  have he := e.isLt
  have hf := f.isLt
  have hg := g.isLt
  have hh := h.isLt
  have h1 : (shiftIn 0 a).toNat = a.toNat := by rw [shiftIn_toNat (by decide)]; simp
  have h2 := shiftIn_toNat (e := shiftIn 0 a) (b := b) (by omega)
  have h3 := shiftIn_toNat (e := shiftIn (shiftIn 0 a) b) (b := c) (by omega)
  have h4 := shiftIn_toNat (e := shiftIn (shiftIn (shiftIn 0 a) b) c) (b := d) (by omega)
  have h5 := shiftIn_toNat (e := shiftIn (shiftIn (shiftIn (shiftIn 0 a) b) c) d) (b := e) (by omega)
  have h6 := shiftIn_toNat (e := shiftIn (shiftIn (shiftIn (shiftIn (shiftIn 0 a) b) c) d) e) (b := f) (by omega)
  have h7 := shiftIn_toNat (e := shiftIn (shiftIn (shiftIn (shiftIn (shiftIn (shiftIn 0 a) b) c) d) e) f) (b := g)
    (by omega)
  have h8 := shiftIn_toNat
    (e := shiftIn (shiftIn (shiftIn (shiftIn (shiftIn (shiftIn (shiftIn 0 a) b) c) d) e) f) g) (b := h) (by omega)
  rw [h8, h7, h6, h5, h4, h3, h2, h1, be8_toNat]

/-- The state with another key and key counter. -/
@[simps] def withKey (k : Key) (n : BitVec 3) (s : State) : State := { s with key := k, keyCnt := n }

/-! PUSH in each phase (44_parser.md R160). -/

theorem pushByte_hdr0 (h : s.halted = false) (hp : s.phase = .hdr0) : pushByte b s = hdr0Step b s := by
  rw [pushByte, h, hp]
  rfl

theorem pushByte_hdr1 (h : s.halted = false) (hp : s.phase = .hdr1) : pushByte b s = hdr1Step b s := by
  rw [pushByte, h, hp]
  rfl

theorem pushByte_extLen (h : s.halted = false) (hp : s.phase = .extLen) : pushByte b s = extLenStep b s := by
  rw [pushByte, h, hp]
  rfl

theorem pushByte_maskKey (h : s.halted = false) (hp : s.phase = .maskKey) : pushByte b s = maskKeyStep b s := by
  rw [pushByte, h, hp]
  rfl

theorem pushByte_payload (h : s.halted = false) (hp : s.phase = .payload) : pushByte b s = payloadStep b s := by
  rw [pushByte, h, hp]
  rfl

/-- One byte of a key that does not end it. -/
theorem pushByte_key {k : Key} (h : s.halted = false) (hp : s.phase = .maskKey) (hk : s.key.put s.keyCnt.toNat b = some k)
    (hn : s.keyCnt + 1 ≠ 4) : pushByte b s = .next (withKey k (s.keyCnt + 1) s) := by
  rw [pushByte_maskKey h hp, maskKeyStep, hk]
  exact if_neg hn

/-- The byte that ends a key. -/
theorem pushByte_keyLast {k : Key} (h : s.halted = false) (hp : s.phase = .maskKey)
    (hk : s.key.put s.keyCnt.toNat b = some k) (hn : s.keyCnt + 1 = 4) :
    pushByte b s = headerComplete (withKey k (s.keyCnt + 1) s) := by
  rw [pushByte_maskKey h hp, maskKeyStep, hk]
  exact if_pos hn

/-- One byte of a length field that does not end it. -/
theorem pushByte_ext (h : s.halted = false) (hp : s.phase = .extLen) (hn : s.extCnt + 1 ≠ s.extNeed) :
    pushByte b s = .next (loadExtByte b s) := by
  rw [pushByte_extLen h hp, extLenStep]
  exact if_neg hn

/-- The byte that ends a length field. -/
theorem pushByte_extLast (h : s.halted = false) (hp : s.phase = .extLen) (hn : s.extCnt + 1 = s.extNeed) :
    pushByte b s = lengthDone (latchLength (loadExtByte b s)) := by
  rw [pushByte_extLen h hp, extLenStep]
  exact if_pos hn

/-- The state with another extended-length accumulator and counter. -/
@[simps] def withAcc (e : Length) (n : BitVec 4) (s : State) : State := { s with ext := e, extCnt := n }

theorem pushByte_acc {e : Length} {n m : BitVec 4} (h : s.halted = false) (hp : s.phase = .extLen) (hm : n + 1 = m)
    (hn : m ≠ s.extNeed) : pushByte b (withAcc e n s) = .next (withAcc (shiftIn e b) m s) := by
  subst hm
  exact pushByte_ext (s := withAcc e n s) h hp hn

theorem pushByte_accLast {e : Length} {n m : BitVec 4} (h : s.halted = false) (hp : s.phase = .extLen)
    (hm : n + 1 = m) (hn : m = s.extNeed) :
    pushByte b (withAcc e n s) = lengthDone (latchLength (withAcc (shiftIn e b) m s)) := by
  subst hm
  exact pushByte_extLast (s := withAcc e n s) h hp hn

/-- The two bytes of a 16-bit length (42_header_decoder.md R112). -/
theorem pushAll_ext16 (n : BitVec 16) (h : s.halted = false) (hp : s.phase = .extLen) (hn : s.extNeed = 2)
    (rest : List Byte) : pushAll (bytes2 n ++ rest) (withAcc 0 0 s) =
      andThen (lengthDone (latchLength (withAcc (n.setWidth 64) 2 s))) (pushAll rest) := by
  simp only [bytes2, List.cons_append, List.nil_append]
  rw [pushAll_cons, pushByte_acc h hp (m := 1) rfl (by rw [hn]; decide), andThen_next, pushAll_cons,
    pushByte_accLast h hp (m := 2) rfl hn.symm, shiftIn_two, be2_of_bytes2]

/-- The eight bytes of a 64-bit length (42_header_decoder.md R112). -/
theorem pushAll_ext64 (n : BitVec 64) (h : s.halted = false) (hp : s.phase = .extLen) (hn : s.extNeed = 8)
    (rest : List Byte) : pushAll (bytes8 n ++ rest) (withAcc 0 0 s) =
      andThen (lengthDone (latchLength (withAcc n 8 s))) (pushAll rest) := by
  simp only [bytes8, List.cons_append, List.nil_append]
  rw [pushAll_cons, pushByte_acc h hp (m := 1) rfl (by rw [hn]; decide), andThen_next, pushAll_cons,
    pushByte_acc h hp (m := 2) rfl (by rw [hn]; decide), andThen_next, pushAll_cons,
    pushByte_acc h hp (m := 3) rfl (by rw [hn]; decide), andThen_next, pushAll_cons,
    pushByte_acc h hp (m := 4) rfl (by rw [hn]; decide), andThen_next, pushAll_cons,
    pushByte_acc h hp (m := 5) rfl (by rw [hn]; decide), andThen_next, pushAll_cons,
    pushByte_acc h hp (m := 6) rfl (by rw [hn]; decide), andThen_next, pushAll_cons,
    pushByte_acc h hp (m := 7) rfl (by rw [hn]; decide), andThen_next, pushAll_cons,
    pushByte_accLast h hp (m := 8) rfl hn.symm, shiftIn_eight, be8_of_bytes8]

/-- The four key bytes, and header complete (42_header_decoder.md R113). -/
theorem pushAll_key (k : Key) (h : s.halted = false) (hp : s.phase = .maskKey) (hc : s.keyCnt = 0) (rest : List Byte) :
    pushAll (k.bytes ++ rest) s = andThen (headerComplete (withKey k 4 s)) (pushAll rest) := by
  have e0 : pushByte k.k0 s = .next (withKey { s.key with k0 := k.k0 } 1 s) := by
    rw [pushByte_key h hp (k := { s.key with k0 := k.k0 }) (by rw [hc]; rfl) (by rw [hc]; decide), hc]
    rfl
  have e1 : pushByte k.k1 (withKey { s.key with k0 := k.k0 } 1 s) =
      .next (withKey { s.key with k0 := k.k0, k1 := k.k1 } 2 s) :=
    pushByte_key (s := withKey _ 1 s) h hp rfl (by simp)
  have e2 : pushByte k.k2 (withKey { s.key with k0 := k.k0, k1 := k.k1 } 2 s) =
      .next (withKey { s.key with k0 := k.k0, k1 := k.k1, k2 := k.k2 } 3 s) :=
    pushByte_key (s := withKey _ 2 s) h hp rfl (by simp)
  have e3 : pushByte k.k3 (withKey { s.key with k0 := k.k0, k1 := k.k1, k2 := k.k2 } 3 s) =
      headerComplete (withKey k 4 s) :=
    pushByte_keyLast (s := withKey _ 3 s) h hp rfl (by simp)
  simp only [Key.bytes, List.cons_append, List.nil_append]
  rw [pushAll_cons, e0, andThen_next, pushAll_cons, e1, andThen_next, pushAll_cons, e2, andThen_next, pushAll_cons, e3]

/-- What follows the length field: the key, if there is one, and header complete. -/
theorem pushAll_keyBytes (key : Option Key) (h : s.halted = false) (hm : s.hMask = key.isSome) (hc : s.keyCnt = 0)
    (rest : List Byte) :
    andThen (lengthDone s) (pushAll (keyBytes key ++ rest)) =
      andThen (headerComplete (withKey (key.getD s.key) (if key.isSome then 4 else 0) s)) (pushAll rest) := by
  cases key with
  | none =>
    rw [lengthDone, hm]
    show andThen (headerComplete s) _ = andThen (headerComplete { s with keyCnt := 0 }) _
    rw [← hc]
    rfl
  | some k =>
    rw [lengthDone, hm]
    show pushAll (k.bytes ++ rest) (setPhase .maskKey s) = _
    rw [pushAll_key k (s := setPhase .maskKey s) h rfl hc]
    exact congrArg (andThen · (pushAll rest)) (headerComplete_setPhase .maskKey (withKey k 4 s))

/-- Byte 0 of a frame (42_header_decoder.md R110). -/
theorem pushByte_byte0 (h : s.halted = false) (hp : s.phase = .hdr0) :
    pushByte (byte0 f.fin f.rsv1 f.rsv2 f.rsv3 op) s = .next { s with
      hFin := f.fin, hRsv1 := f.rsv1, hRsv2 := f.rsv2, hRsv3 := f.rsv3, hOpcode := op, phase := .hdr1 } := by
  rw [pushByte_hdr0 h hp, hdr0Step, finOf_byte0, rsv1Of_byte0, rsv2Of_byte0, rsv3Of_byte0, opcodeOf_byte0]

/-- The registers that byte 1 of a frame loads (42_header_decoder.md R111). -/
theorem loadByte1_byte1 (hw : f.len.wf = true) :
    loadByte1 (byte1 f.key.isSome f.len.len7) { s with
      hFin := f.fin, hRsv1 := f.rsv1, hRsv2 := f.rsv2, hRsv3 := f.rsv3, hOpcode := op, phase := .hdr1 } =
    setPhase .hdr1 (loadFixed op f s) := by
  simp only [loadByte1, maskOf_byte1, len7Of_byte1, extNeedOf_len7 hw]
  cases hl : f.len with
  | direct n =>
    have hn : n.toNat ≤ 125 := by simpa [hl, LenField.wf] using hw
    simp [loadFixed, hl, LenField.len7, hn, setPhase]
  | ext16 n => simp [loadFixed, hl, LenField.len7, setPhase]
  | ext64 n => simp [loadFixed, hl, LenField.len7, setPhase]

/-- The registers once the length is known, the key still to come. -/
def loadLength (op : BitVec 4) (f : Frame) (s : State) : State :=
  { loadFixed op f s with ext := f.len.ext, extCnt := f.len.need, plen := f.len.plen }

/-- The length field of a frame, from the state that byte 1 leaves (42_header_decoder.md R111, R112). -/
theorem hdr1_length (h : s.halted = false) (rest : List Byte) :
    ∃ p, andThen (if 0 < f.len.need.toNat then .next (setPhase .extLen (loadFixed op f s))
        else lengthDone (loadFixed op f s)) (pushAll (f.len.bytes ++ rest)) =
      andThen (lengthDone (setPhase p (loadLength op f s))) (pushAll rest) := by
  cases hl : f.len with
  | direct n =>
    refine ⟨s.phase, ?_⟩
    simp [loadFixed, loadLength, hl, LenField.need, LenField.bytes, LenField.plen, LenField.ext, setPhase]
  | ext16 n =>
    refine ⟨.extLen, ?_⟩
    have := pushAll_ext16 n (s := setPhase .extLen (loadFixed op f s)) h rfl
      (by simp [loadFixed, hl, LenField.need]) rest
    simpa [loadFixed, loadLength, hl, LenField.need, LenField.bytes, LenField.plen, LenField.ext, setPhase, withAcc,
      latchLength] using this
  | ext64 n =>
    refine ⟨.extLen, ?_⟩
    have := pushAll_ext64 n (s := setPhase .extLen (loadFixed op f s)) h rfl
      (by simp [loadFixed, hl, LenField.need]) rest
    simpa [loadFixed, loadLength, hl, LenField.need, LenField.bytes, LenField.plen, LenField.ext, setPhase, withAcc,
      latchLength] using this

/-- The header of a frame, byte by byte, is the whole header and header complete (42_header_decoder.md R110 to R116). -/
theorem pushAll_header (h : s.halted = false) (hp : s.phase = .hdr0) (hw : f.len.wf = true) (rest : List Byte) :
    pushAll (header op f ++ rest) s = andThen (headerComplete (loadHeader op f s)) (pushAll rest) := by
  rw [header, List.cons_append, List.cons_append, List.append_assoc, pushAll_cons, pushByte_byte0 h hp, andThen_next,
    pushAll_cons, pushByte_hdr1 (by exact h) rfl, hdr1Step, len7Of_byte1, maskOf_byte1, loadByte1_byte1 hw,
    extNeedOf_len7 hw]
  obtain ⟨p, hlen⟩ := hdr1_length (op := op) (s := setPhase .hdr1 s) h (keyBytes f.key ++ rest)
  refine (hlen.trans (pushAll_keyBytes f.key (s := setPhase p (loadLength op f (setPhase .hdr1 s))) h rfl rfl rest)).trans ?_
  refine congrArg (andThen · (pushAll rest)) ?_
  exact headerComplete_setPhase p (loadHeader op f s)

/-! ## The payload, byte by byte -/

/-- Storing a payload byte keeps what the rest of the payload needs. -/
theorem payloadStore_keeps {w : Byte} (h : payloadStore w s = .next t) :
    t.pcnt = s.pcnt + 1 ∧ t.phase = s.phase ∧ t.halted = s.halted ∧ t.plen = s.plen ∧ t.hOpcode = s.hOpcode := by
  unfold payloadStore ctrlStore msgAppend at h
  split at h <;> split at h <;> first | (cases h; exact ⟨rfl, rfl, rfl, rfl, rfl⟩) | cases h

/-- Storing a payload keeps the opcode. -/
theorem storeAll_hOpcode {ws : List Byte} (h : storeAll ws s = .next t) : t.hOpcode = s.hOpcode := by
  induction ws generalizing s with
  | nil =>
    cases h
    rfl
  | cons w ws ih =>
    obtain ⟨u, h1, h2⟩ := andThen_eq_next.1 h
    rw [ih h2, (payloadStore_keeps h1).2.2.2.2]

/-- PHASE before the payload does not matter to a frame that completes. -/
theorem storeAll_finish_setPhase {rule : State → Result} (hr : PhaseBlind rule) (p : Phase) (ws : List Byte) (s : State) :
    andThen (storeAll ws (setPhase p s)) (finishFrame rule) = andThen (storeAll ws s) (finishFrame rule) := by
  rw [storeAll_phaseBlind ws p s, andThen_assoc]
  congr 1
  funext t
  exact finishFrame_setPhase hr p t

/-- The payload bytes of a frame one by one: each is stored, and the last one completes the frame (44_parser.md R171). -/
theorem pushAll_payload {ws : List Byte} (h : s.halted = false) (hp : s.phase = .payload) (hne : ws ≠ [])
    (hl : s.pcnt.toNat + ws.length = s.plen.toNat) : pushAll ws s = andThen (storeAll ws s) frameComplete := by
  induction ws generalizing s with
  | nil => exact absurd rfl hne
  | cons w ws ih =>
    rw [pushAll_cons, pushByte_payload h hp, payloadStep, storeAll]
    cases hs : payloadStore w s with
    | fault e => rfl
    | refused e => rfl
    | next t =>
      obtain ⟨h1, h2, h3, h4, -⟩ := payloadStore_keeps hs
      simp only [List.length_cons] at hl
      have hlt := s.plen.isLt
      have hpc : t.pcnt.toNat = s.pcnt.toNat + 1 := by rw [h1, pcnt_succ (n := ws.length) (by omega)]
      simp only [andThen_next]
      cases ws with
      | nil =>
        rw [if_pos (BitVec.eq_of_toNat_eq (by rw [hpc, h4, ← hl]; rfl))]
        exact andThen_pure _
      | cons v vs =>
        simp only [List.length_cons] at hl
        rw [if_neg (fun e => by rw [e, h4] at hpc; omega), andThen_next]
        exact ih (h3.trans h) (h2.trans hp) (by simp) (by rw [hpc, h4, List.length_cons]; omega)

end Sys2Proof.Machine
end

