-- ==== Sys2Proof/Laws/Invariant.lean ====
section
/-! SUPPORT. The decoder's invariant through header complete, frame complete and every byte step: each of them answers a next state
and keeps it. -/

namespace Sys2Proof.Machine

variable {s t : State} {b : Byte}

/-- What holds when a frame completes (44_parser.md R172): the payload was stored, PHASE no longer counts. -/
structure ReadyToComplete (s : State) : Prop where
  running : s.halted = false
  noError : s.errCause = 0
  ext_need : s.extNeed = 0 ∨ s.extNeed = 2 ∨ s.extNeed = 8
  ext_cnt : s.extCnt.toNat ≤ s.extNeed.toNat
  key_cnt : s.keyCnt.toNat ≤ 4
  msg_opcode : s.msgOpen = true → isData s.msgOpcode = true
  msg_len_zero : s.msgOpen = false → isData s.hOpcode = false → s.msgLen = 0
  msg_limit : ∀ m, s.params.maxMessageBytes = some m → s.msgLen ≤ m
  opcode : isReserved s.hOpcode = false
  close : s.hOpcode = 8 → s.plen ≠ 1
  msg_buf : s.msgBuf.Good s.params.maxMessageBytes
  ctrl_buf : s.ctrlBuf.Good (some ctrlBufSize)
  msg_filled : s.msgBuf.filled s.msgLen
  ctrl_filled : isControl s.hOpcode = true → s.ctrlBuf.filled s.plen.toNat
  counted : s.pcnt.toNat ≤ s.plen.toNat

/-- What holds between frames and inside a header, whatever PHASE is. -/
structure BetweenPayloads (s : State) : Prop where
  running : s.halted = false
  noError : s.errCause = 0
  ext_need : s.extNeed = 0 ∨ s.extNeed = 2 ∨ s.extNeed = 8
  ext_cnt : s.extCnt.toNat ≤ s.extNeed.toNat
  key_cnt : s.keyCnt.toNat ≤ 4
  msg_opcode : s.msgOpen = true → isData s.msgOpcode = true
  msg_len_zero : s.msgOpen = false → s.msgLen = 0
  msg_limit : ∀ m, s.params.maxMessageBytes = some m → s.msgLen ≤ m
  msg_buf : s.msgBuf.Good s.params.maxMessageBytes
  ctrl_buf : s.ctrlBuf.Good (some ctrlBufSize)
  msg_filled : s.msgBuf.filled s.msgLen

theorem State.DecoderInv.between (h : s.DecoderInv) (hr : s.halted = false) (hp : s.phase ≠ .payload) :
    BetweenPayloads s where
  running := hr
  noError := h.halted_iff.1 hr
  ext_need := h.ext_need
  ext_cnt := h.ext_cnt
  key_cnt := h.key_cnt
  msg_opcode := h.msg_opcode
  msg_len_zero := fun ho => h.msg_len_zero ho fun hc => hp hc.1
  msg_limit := h.msg_limit
  msg_buf := h.msg_buf
  ctrl_buf := h.ctrl_buf
  msg_filled := h.msg_filled

/-- Back to the invariant of the whole decoder, in any phase but PAYLOAD. -/
theorem BetweenPayloads.inv (h : BetweenPayloads s) (hp : s.phase ≠ .payload)
    (he : s.phase = .extLen → s.extCnt.toNat < s.extNeed.toNat ∧ s.keyCnt = 0) (hk : s.phase = .maskKey → s.keyCnt.toNat < 4)
    (hc : s.phase ≠ .maskKey → s.pcnt.toNat ≤ s.plen.toNat) : s.DecoderInv where
  pcnt_le := fun e _ => hc e
  pcnt_lt := fun e => absurd e hp
  control_len := fun e => absurd e hp
  ext_need := h.ext_need
  ext_cnt := h.ext_cnt
  key_cnt := h.key_cnt
  msg_opcode := h.msg_opcode
  msg_len_zero := fun ho _ => h.msg_len_zero ho
  msg_limit := h.msg_limit
  halted_iff := ⟨fun _ => h.noError, fun _ => h.running⟩
  halted_phase := fun e => by rw [h.running] at e; cases e
  ext_more := fun e => (he e).1
  ext_key := fun e => (he e).2
  key_more := hk
  payload_opcode := fun e => absurd e hp
  payload_close := fun e => absurd e hp
  payload_data := fun e => absurd e hp
  payload_cont := fun e => absurd e hp
  payload_room := fun e => absurd e hp
  msg_buf := h.msg_buf
  ctrl_buf := h.ctrl_buf
  msg_filled := h.msg_filled
  ctrl_filled := fun e => absurd e hp

/-- No opcode's rule at frame complete writes PCNT or PLEN (10_state.md R36). -/
theorem frameRule_counters {op : BitVec 4} (h : frameRule op s = .next t) : t.pcnt = s.pcnt ∧ t.plen = s.plen := by
  rcases frameRule_cases h with ⟨e, rfl⟩ | ⟨o, r1, r2, r3, rfl⟩ | rfl | ⟨e, rfl⟩ <;> exact ⟨rfl, rfl⟩

/-- A first length byte value that announces an extended length leaves PLEN to the EXTLEN step (42_header_decoder.md R111). -/
theorem loadByte1_plen_of_extended (h : 0 < (extNeedOf (len7Of b)).toNat) : (loadByte1 b s).plen = s.plen := by
  have hd : ¬(len7Of b).toNat ≤ 125 := fun e => by
    rw [extNeedOf, if_pos e] at h
    exact absurd h (by decide)
  exact if_neg hd

/-- The rule of a completing frame answers a next state between payloads. -/
theorem ReadyToComplete.rule (h : ReadyToComplete s) :
    ∃ t, frameRule s.hOpcode s = .next t ∧ BetweenPayloads t := by
  have clear : ∀ e, BetweenPayloads (emit e (msgClear s)) := fun e =>
    { h with
      msg_opcode := nofun
      msg_len_zero := fun _ => rfl
      msg_limit := fun m _ => Nat.zero_le m
      msg_filled := Mem.filled_zero }
  have opened : ∀ op r1 r2 r3, isData op = true → BetweenPayloads (msgOpenAs op r1 r2 r3 s) := fun op r1 r2 r3 hop =>
    { h with
      msg_opcode := fun _ => hop
      msg_len_zero := nofun }
  have same : isData s.hOpcode = false → ∀ e, BetweenPayloads (emit e s) := fun hd e =>
    { h with msg_len_zero := fun ho => h.msg_len_zero ho hd }
  obtain ⟨p, hm⟩ := Mem.filled_readBytes h.msg_filled
  have message : ∀ o r1 r2 r3, ∃ t, emitMessage o r1 r2 r3 s = .next t ∧ BetweenPayloads t := fun o r1 r2 r3 =>
    ⟨_, emitMessage_of_read hm, clear _⟩
  have classes : ∀ op : BitVec 4, isReserved op = false →
      op = 0 ∨ op = 1 ∨ op = 2 ∨ op = 8 ∨ op = 9 ∨ op = 10 := by decide
  have hctrl := h.ctrl_filled
  have hclose := h.close
  rcases classes _ h.opcode with e | e | e | e | e | e <;> rw [e] at same hctrl hclose ⊢
  · show ∃ t, contComplete s = _ ∧ _
    unfold contComplete
    split
    · exact message _ _ _ _
    · exact ⟨s, rfl, { h with msg_len_zero := fun ho => h.msg_len_zero ho (by rw [e]; rfl) }⟩
  · show ∃ t, textComplete s = _ ∧ _
    unfold textComplete
    split
    · exact message _ _ _ _
    · exact ⟨_, rfl, opened _ _ _ _ rfl⟩
  · show ∃ t, binaryComplete s = _ ∧ _
    unfold binaryComplete
    split
    · exact message _ _ _ _
    · exact ⟨_, rfl, opened _ _ _ _ rfl⟩
  · show ∃ t, closeComplete s = _ ∧ _
    unfold closeComplete
    split
    · exact ⟨_, rfl, same rfl _⟩
    · rename_i h0
      rw [if_neg (hclose rfl)]
      have hne : s.plen.toNat ≠ 0 := fun e0 => h0 (BitVec.eq_of_toNat_eq e0)
      have hn1 : s.plen.toNat ≠ 1 := fun e1 => hclose rfl (BitVec.eq_of_toNat_eq e1)
      obtain ⟨c, hc⟩ := Mem.filled_readBytes (hctrl rfl)
      obtain ⟨n, hn⟩ : ∃ n, s.plen.toNat = n + 2 := ⟨s.plen.toNat - 2, by omega⟩
      rw [hn] at hc ⊢
      obtain ⟨b0, b1, rest, -, h1, h2, h3⟩ := Mem.readBytes_two_rest hc
      rw [h1, h2, Nat.add_sub_cancel, h3]
      exact ⟨_, rfl, same rfl _⟩
  · show ∃ t, pingComplete s = _ ∧ _
    obtain ⟨c, hc⟩ := Mem.filled_readBytes (hctrl rfl)
    rw [pingComplete, hc]
    exact ⟨_, rfl, same rfl _⟩
  · show ∃ t, pongComplete s = _ ∧ _
    obtain ⟨c, hc⟩ := Mem.filled_readBytes (hctrl rfl)
    rw [pongComplete, hc]
    exact ⟨_, rfl, same rfl _⟩

/-- Frame complete answers a next state that keeps the invariant (44_parser.md R172). -/
theorem ReadyToComplete.complete (h : ReadyToComplete s) :
    ∃ t, frameComplete s = .next t ∧ t.DecoderInv := by
  obtain ⟨t, ht, hb⟩ := h.rule
  obtain ⟨h1, h2⟩ := frameRule_counters ht
  refine ⟨_, finishFrame_next ht, BetweenPayloads.inv ?_ nofun nofun nofun fun _ => ?_⟩
  · exact { hb with }
  · show t.pcnt.toNat ≤ t.plen.toNat
    rw [h1, h2]
    exact h.counted

/-- Header complete answers a next state that keeps the invariant (42_header_decoder.md R116). -/
theorem BetweenPayloads.header (h : BetweenPayloads s) :
    ∃ t, headerComplete s = .next t ∧ t.DecoderInv := by
  have causes : ∀ c : Cause, c.code ≠ 0 := fun c => by cases c <;> decide
  unfold headerComplete
  cases hv : validate s with
  | some c =>
    refine ⟨_, rfl, ?_⟩
    exact
      { pcnt_le := nofun
        pcnt_lt := nofun
        control_len := nofun
        ext_need := h.ext_need
        ext_cnt := h.ext_cnt
        key_cnt := h.key_cnt
        msg_opcode := h.msg_opcode
        msg_len_zero := fun ho _ => h.msg_len_zero ho
        msg_limit := h.msg_limit
        halted_iff := ⟨nofun, fun e => absurd e (causes c)⟩
        halted_phase := fun _ => rfl
        ext_more := nofun
        ext_key := nofun
        key_more := nofun
        payload_opcode := nofun
        payload_close := nofun
        payload_data := nofun
        payload_cont := nofun
        payload_room := nofun
        msg_buf := h.msg_buf
        ctrl_buf := h.ctrl_buf
        msg_filled := h.msg_filled
        ctrl_filled := nofun }
  | none =>
    have ok := validate_eq_none hv
    have hres : isReserved s.hOpcode = false := ok .reservedOpcode
    have hclose : s.hOpcode = 8 → s.plen ≠ 1 := fun e1 e2 => by
      have := ok .invalidClose
      simp [checkFails, e1, e2] at this
    simp only
    split
    · rename_i h0
      exact ReadyToComplete.complete (s := startPayload s)
        { h with
          msg_len_zero := fun ho _ => h.msg_len_zero ho
          opcode := hres
          close := hclose
          ctrl_filled := fun _ => by
            show s.ctrlBuf.filled s.plen.toNat
            rw [h0]
            exact Mem.filled_zero
          counted := Nat.zero_le _ }
    · rename_i h0
      have hpos : 0 < s.plen.toNat := Nat.pos_of_ne_zero fun e => h0 (BitVec.eq_of_toNat_eq e)
      refine ⟨_, rfl, ?_⟩
      exact
        { pcnt_le := fun _ _ => Nat.zero_le _
          pcnt_lt := fun _ => hpos
          control_len := fun _ hc => by
            have := ok .controlTooLong
            have hc' : isControl s.hOpcode = true := hc
            simpa [checkFails, hc'] using this
          ext_need := h.ext_need
          ext_cnt := h.ext_cnt
          key_cnt := h.key_cnt
          msg_opcode := h.msg_opcode
          msg_len_zero := fun ho _ => h.msg_len_zero ho
          msg_limit := h.msg_limit
          halted_iff := ⟨fun _ => h.noError, fun _ => h.running⟩
          halted_phase := fun e => by
            have e' : s.halted = true := e
            rw [h.running] at e'
            cases e'
          ext_more := nofun
          ext_key := nofun
          key_more := nofun
          payload_opcode := fun _ => hres
          payload_close := fun _ => hclose
          payload_data := fun _ hd => by
            have := ok .dataWhileOpen
            have hd' : isData s.hOpcode = true := hd
            simpa [checkFails, hd'] using this
          payload_cont := fun _ hc => by
            have := ok .unexpectedContinuation
            have hc' : isCont s.hOpcode = true := hc
            simpa [checkFails, hc'] using this
          payload_room := fun _ hc m hm => by
            have h9 := ok .messageTooBig
            have hc' : isControl s.hOpcode = false := hc
            have hm' : s.params.maxMessageBytes = some m := hm
            have hd : (isData s.hOpcode || isCont s.hOpcode) = true := by
              have : ∀ op : BitVec 4, isReserved op = false → isControl op = false →
                  (isData op || isCont op) = true := by decide
              exact this _ hres hc'
            simp only [checkFails, hd, hm', tooBig, Bool.true_and, decide_eq_false_iff_not, Nat.not_lt] at h9
            show s.msgLen + (s.plen.toNat - 0) ≤ m
            omega
          msg_buf := h.msg_buf
          ctrl_buf := h.ctrl_buf
          msg_filled := h.msg_filled
          ctrl_filled := fun _ _ => Mem.filled_zero }

/-- Every byte step answers a next state that keeps the invariant: no byte value stops a decoder in a state that meets it
(44_parser.md R160 "PUSH is total"). -/
theorem State.DecoderInv.byte (h : s.DecoderInv) (b : Byte) : ∃ t, pushByte b s = .next t ∧ t.DecoderInv := by
  cases hh : s.halted with
  | true => exact ⟨s, pushByte_of_halted hh, h⟩
  | false =>
    cases hp : s.phase with
    | hdr0 =>
      rw [pushByte_hdr0 hh hp]
      refine ⟨_, rfl, BetweenPayloads.inv ?_ nofun nofun nofun fun _ => h.pcnt_le (by rw [hp]; nofun) hh⟩
      exact { h.between hh (by rw [hp]; nofun) with }
    | hdr1 =>
      rw [pushByte_hdr1 hh hp, hdr1Step]
      have hb := h.between hh (by rw [hp]; nofun)
      have need : ∀ l7 : BitVec 7, extNeedOf l7 = 0 ∨ extNeedOf l7 = 2 ∨ extNeedOf l7 = 8 := by decide
      have hb1 : BetweenPayloads (loadByte1 b s) :=
        { hb with
          ext_need := need _
          ext_cnt := Nat.zero_le _
          key_cnt := Nat.zero_le _ }
      split
      · rename_i hn
        refine ⟨_, rfl, BetweenPayloads.inv { hb1 with } nofun (fun _ => ⟨hn, rfl⟩) nofun fun _ => ?_⟩
        show s.pcnt.toNat ≤ (loadByte1 b s).plen.toNat
        rw [loadByte1_plen_of_extended hn]
        exact h.pcnt_le (by rw [hp]; nofun) hh
      · split
        · exact ⟨_, rfl, BetweenPayloads.inv { hb1 with } nofun nofun (fun _ => (by decide : (0 : BitVec 3).toNat < 4))
            fun e => absurd rfl e⟩
        · exact hb1.header
    | extLen =>
      have hb := h.between hh (by rw [hp]; nofun)
      have hm := h.ext_more hp
      have hlt : s.extNeed.toNat ≤ 8 := by rcases h.ext_need with e | e | e <;> rw [e] <;> decide
      have hc : (s.extCnt + 1).toNat = s.extCnt.toNat + 1 := by bv_omega
      rw [pushByte_extLen hh hp, extLenStep]
      have hb1 : BetweenPayloads (loadExtByte b s) :=
        { hb with ext_cnt := by show (s.extCnt + 1).toNat ≤ s.extNeed.toNat; omega }
      split
      · unfold lengthDone
        split
        · refine ⟨_, rfl, BetweenPayloads.inv ?_ nofun nofun (fun _ => ?_) fun e => absurd rfl e⟩
          · exact { hb1 with }
          · show s.keyCnt.toNat < 4
            rw [h.ext_key hp]
            decide
        · exact BetweenPayloads.header { hb1 with }
      · rename_i hne
        refine ⟨_, rfl, BetweenPayloads.inv hb1 (by show s.phase ≠ _; rw [hp]; nofun) (fun _ => ?_) (fun e => ?_)
          fun _ => h.pcnt_le (by rw [hp]; nofun) hh⟩
        · have : (s.extCnt + 1).toNat ≠ s.extNeed.toNat := fun e => hne (BitVec.eq_of_toNat_eq e)
          refine ⟨?_, h.ext_key hp⟩
          show (s.extCnt + 1).toNat < s.extNeed.toNat
          omega
        · have e' : s.phase = .maskKey := e
          rw [hp] at e'
          cases e'
    | maskKey =>
      have hb := h.between hh (by rw [hp]; nofun)
      have hm := h.key_more hp
      have hc : (s.keyCnt + 1).toNat = s.keyCnt.toNat + 1 := by bv_omega
      rw [pushByte_maskKey hh hp, maskKeyStep]
      obtain ⟨k, hk⟩ : ∃ k, s.key.put s.keyCnt.toNat b = some k := by
        rcases (by omega : s.keyCnt.toNat = 0 ∨ s.keyCnt.toNat = 1 ∨ s.keyCnt.toNat = 2 ∨ s.keyCnt.toNat = 3) with
          e | e | e | e <;> rw [e] <;> exact ⟨_, rfl⟩
      rw [hk]
      simp only
      split
      · exact BetweenPayloads.header
          { hb with key_cnt := by show (s.keyCnt + 1).toNat ≤ 4; omega }
      · rename_i hne
        refine ⟨_, rfl, BetweenPayloads.inv
          { hb with key_cnt := by show (s.keyCnt + 1).toNat ≤ 4; omega } (by show s.phase ≠ _; rw [hp]; nofun)
          (fun e => ?_) (fun _ => ?_) fun e => absurd hp e⟩
        · have e' : s.phase = .extLen := e
          rw [hp] at e'
          cases e'
        · have : (s.keyCnt + 1).toNat ≠ 4 := fun e => hne (BitVec.eq_of_toNat_eq e)
          show (s.keyCnt + 1).toNat < 4
          omega
    | payload =>
      have hpc := h.pcnt_lt hp
      have hlt := s.plen.isLt
      have hc : (s.pcnt + 1).toNat = s.pcnt.toNat + 1 := by bv_omega
      have hclass : ∀ op : BitVec 4, isReserved op = false → isControl op = false → isData op = true ∨ isCont op = true := by
        decide
      have hexcl : ∀ op : BitVec 4, isControl op = true → isData op = false := by decide
      rw [pushByte_payload hh hp, payloadStep]
      cases hctl : isControl s.hOpcode with
      | true =>
        have h125 := h.control_len hp hctl
        have hfill := h.ctrl_filled hp hctl
        rw [payloadStore_control hctl (by omega), andThen_next]
        have hgood : (s.ctrlBuf.write s.pcnt.toNat (unmaskByte b s)).Good (some ctrlBufSize) :=
          h.ctrl_buf.write (decide_eq_true (show s.pcnt.toNat < 125 by omega))
        have hfill' := Mem.filled_write (v := unmaskByte b s) hfill
        split
        · rename_i hend
          have hend' : s.pcnt + 1 = s.plen := hend
          refine ReadyToComplete.complete
            { running := hh
              noError := h.halted_iff.1 hh
              ext_need := h.ext_need
              ext_cnt := h.ext_cnt
              key_cnt := h.key_cnt
              msg_opcode := h.msg_opcode
              msg_len_zero := fun ho hd => h.msg_len_zero ho fun e => ?_
              msg_limit := h.msg_limit
              opcode := h.payload_opcode hp
              close := h.payload_close hp
              msg_buf := h.msg_buf
              ctrl_buf := hgood
              msg_filled := h.msg_filled
              ctrl_filled := fun _ => ?_
              counted := hend' ▸ Nat.le_refl _ }
          · exact Bool.noConfusion ((hexcl _ hctl).symm.trans e.2)
          · show Mem.filled _ s.plen.toNat
            rw [← hend', hc]
            exact hfill'
        · rename_i hend
          have hne : (s.pcnt + 1).toNat ≠ s.plen.toNat := fun e => hend (BitVec.eq_of_toNat_eq e)
          exact ⟨_, rfl, { h with
            ctrl_buf := hgood
            pcnt_le := fun _ _ => by
              show (s.pcnt + 1).toNat ≤ s.plen.toNat
              omega
            pcnt_lt := fun _ => by
              show (s.pcnt + 1).toNat < s.plen.toNat
              omega
            ctrl_filled := fun _ _ => by
              show Mem.filled _ (s.pcnt + 1).toNat
              rw [hc]
              exact hfill'
            payload_room := fun _ e => Bool.noConfusion (hctl.symm.trans e) }⟩
      | false =>
        have hroom := h.payload_room hp hctl
        have hin : inBuffer s.params.maxMessageBytes s.msgLen = true :=
          inBuffer_iff.2 fun m hm => by have := hroom m hm; omega
        rw [payloadStore_message hctl hin, andThen_next]
        have hgood := h.msg_buf.write (v := unmaskByte b s) hin
        have hfill := Mem.filled_write (v := unmaskByte b s) h.msg_filled
        have hlim : ∀ m, s.params.maxMessageBytes = some m → s.msgLen + 1 ≤ m := fun m hm => by
          have := hroom m hm
          omega
        have hzero : s.msgOpen = false → isData s.hOpcode = true := fun ho => by
          rcases hclass _ (h.payload_opcode hp) hctl with hd | hd
          · exact hd
          · rw [h.payload_cont hp hd] at ho
            cases ho
        split
        · rename_i hend
          refine ReadyToComplete.complete
            { running := hh
              noError := h.halted_iff.1 hh
              ext_need := h.ext_need
              ext_cnt := h.ext_cnt
              key_cnt := h.key_cnt
              msg_opcode := h.msg_opcode
              msg_len_zero := fun ho hd => ?_
              msg_limit := hlim
              opcode := h.payload_opcode hp
              close := h.payload_close hp
              msg_buf := hgood
              ctrl_buf := h.ctrl_buf
              msg_filled := hfill
              ctrl_filled := fun e => Bool.noConfusion (hctl.symm.trans e)
              counted := hend ▸ Nat.le_refl _ }
          exact Bool.noConfusion ((hzero ho).symm.trans hd)
        · rename_i hend
          have hne : (s.pcnt + 1).toNat ≠ s.plen.toNat := fun e => hend (BitVec.eq_of_toNat_eq e)
          exact ⟨_, rfl, { h with
            msg_buf := hgood
            msg_filled := hfill
            msg_limit := hlim
            pcnt_le := fun _ _ => by
              show (s.pcnt + 1).toNat ≤ s.plen.toNat
              omega
            pcnt_lt := fun _ => by
              show (s.pcnt + 1).toNat < s.plen.toNat
              omega
            msg_len_zero := fun ho hd => absurd ⟨hp, hzero ho⟩ hd
            ctrl_filled := fun _ e => Bool.noConfusion (hctl.symm.trans e)
            payload_room := fun _ _ m hm => by
              have := hroom m hm
              show s.msgLen + 1 + (s.plen.toNat - (s.pcnt + 1).toNat) ≤ m
              omega }⟩

end Sys2Proof.Machine
end

