-- ==== Sys2Proof/Laws/PerInstr.lean ====
section
/-! SUPPORT. The statements made per instruction. Family `OpcodeMap`: the row that an instruction's opcode value selects is the
instruction itself (30_encoding.md R78). -/

namespace Sys2Proof.Laws.OpcodeMap

/-- An instruction is the row its own opcode selects, with its own frame fields. -/
def Statement (i : Instr) : Prop := instrOf i.opcode i.frame = i

theorem of_any (i : Instr) : Statement i := by
  cases i <;> simp [Statement, instrOf, Instr.opcode, Instr.frame]

theorem cont (f : Frame) : Statement (.cont f) := of_any _
theorem text (f : Frame) : Statement (.text f) := of_any _
theorem binary (f : Frame) : Statement (.binary f) := of_any _
theorem op3 (f : Frame) : Statement (.op3 f) := of_any _
theorem op4 (f : Frame) : Statement (.op4 f) := of_any _
theorem op5 (f : Frame) : Statement (.op5 f) := of_any _
theorem op6 (f : Frame) : Statement (.op6 f) := of_any _
theorem op7 (f : Frame) : Statement (.op7 f) := of_any _
theorem close (f : Frame) : Statement (.close f) := of_any _
theorem ping (f : Frame) : Statement (.ping f) := of_any _
theorem pong (f : Frame) : Statement (.pong f) := of_any _
theorem op11 (f : Frame) : Statement (.op11 f) := of_any _
theorem op12 (f : Frame) : Statement (.op12 f) := of_any _
theorem op13 (f : Frame) : Statement (.op13 f) := of_any _
theorem op14 (f : Frame) : Statement (.op14 f) := of_any _
theorem op15 (f : Frame) : Statement (.op15 f) := of_any _

end Sys2Proof.Laws.OpcodeMap
end

