-- ==== Sys2Proof/Laws/Step.lean ====
section
/-! SUPPORT. What a byte step, a frame, a host transaction and a step can do, said once: the configuration and the host's side a
byte step keeps, the at most one record it appends, and the four forms of a step. -/

namespace Sys2Proof.Machine

variable {s t u : State} {b : Byte}

/-! ## The effects of the decoder -/

/-- No record, no error, nothing of the configuration or the host's side. -/
structure Quiet (s t : State) : Prop where
  config : SameConfig s t
  side : SameHostSide s t
  error : SameError s t
  evt : t.evt = s.evt

/-- One record of a frame. -/
structure Reported (s t : State) : Prop where
  config : SameConfig s t
  side : SameHostSide s t
  error : SameError s t
  evt : ∃ e, t.evt = s.evt ++ [e]

/-- The error entry (60_exceptions.md R230). -/
structure Raised (s t : State) : Prop where
  config : SameConfig s t
  side : SameHostSide s t
  running : s.halted = false
  halted : t.halted = true
  phase : t.phase = .hdr0
  cause : ∃ c : Cause, t.errCause = c.code ∧ t.errCode = statusCode c s ∧
    t.evt = s.evt ++ [.error (statusCode c s) c.code (reasonText c)]

/-- What a byte step or a frame can do. -/
inductive Effect (s t : State) : Prop where
  | quiet (h : Quiet s t)
  | reported (h : Reported s t)
  | raised (h : Raised s t)

theorem SameConfig.refl (s : State) : SameConfig s s := ⟨rfl, rfl, rfl, rfl⟩
theorem SameHostSide.refl (s : State) : SameHostSide s s := ⟨rfl, rfl, rfl, rfl, rfl⟩
theorem SameError.refl (s : State) : SameError s s := ⟨rfl, rfl, rfl⟩
theorem SameHeader.refl (s : State) : SameHeader s s :=
  ⟨rfl, rfl, rfl, rfl, rfl, rfl, rfl, rfl, rfl, rfl, rfl, rfl, rfl, rfl, rfl⟩
theorem SameMessage.refl (s : State) : SameMessage s s := ⟨rfl, rfl, rfl, rfl, rfl, rfl⟩
theorem SameRegisters.refl (s : State) : SameRegisters s s :=
  ⟨.refl s, .refl s, .refl s, .refl s, rfl, rfl⟩

theorem SameConfig.trans (h : SameConfig s u) (k : SameConfig u t) : SameConfig s t :=
  ⟨k.params.trans h.params, k.requireMasking.trans h.requireMasking, k.strictLen.trans h.strictLen,
    k.txMasking.trans h.txMasking⟩
theorem SameHostSide.trans (h : SameHostSide s u) (k : SameHostSide u t) : SameHostSide s t :=
  ⟨k.inp.trans h.inp, k.host.trans h.host, k.resp.trans h.resp, k.pins.trans h.pins, k.sched.trans h.sched⟩
theorem SameError.trans (h : SameError s u) (k : SameError u t) : SameError s t :=
  ⟨k.halted.trans h.halted, k.errCode.trans h.errCode, k.errCause.trans h.errCause⟩

theorem Quiet.refl (s : State) : Quiet s s := ⟨.refl s, .refl s, .refl s, rfl⟩

theorem Quiet.trans (h : Quiet s u) (k : Quiet u t) : Quiet s t :=
  ⟨h.config.trans k.config, h.side.trans k.side, h.error.trans k.error, k.evt.trans h.evt⟩

theorem statusCode_congr {c : Cause} (h : u.params = s.params) : statusCode c u = statusCode c s := by
  unfold statusCode
  rw [h]

theorem Quiet.effect (h : Quiet s u) (k : Effect u t) : Effect s t := by
  cases k with
  | quiet k => exact .quiet (h.trans k)
  | reported k =>
    obtain ⟨e, he⟩ := k.evt
    exact .reported ⟨h.config.trans k.config, h.side.trans k.side, h.error.trans k.error, e, by rw [he, h.evt]⟩
  | raised k =>
    obtain ⟨c, h1, h2, h3⟩ := k.cause
    have hc := statusCode_congr (c := c) h.config.params
    exact .raised ⟨h.config.trans k.config, h.side.trans k.side, h.error.halted ▸ k.running, k.halted, k.phase, c, h1,
      h2.trans hc, by rw [h3, h.evt, hc]⟩

theorem Effect.quiet_after (h : Effect s u) (k : Quiet u t) (hp : t.phase = .hdr0) : Effect s t := by
  cases h with
  | quiet h => exact .quiet (h.trans k)
  | reported h =>
    obtain ⟨e, he⟩ := h.evt
    exact .reported ⟨h.config.trans k.config, h.side.trans k.side, h.error.trans k.error, e, by rw [k.evt, he]⟩
  | raised h =>
    obtain ⟨c, h1, h2, h3⟩ := h.cause
    exact .raised ⟨h.config.trans k.config, h.side.trans k.side, h.running, k.error.halted.trans h.halted, hp, c,
      k.error.errCause.trans h1, k.error.errCode.trans h2, k.evt.trans h3⟩

theorem setPhase_quiet (p : Phase) (s : State) : Quiet s (setPhase p s) :=
  ⟨⟨rfl, rfl, rfl, rfl⟩, ⟨rfl, rfl, rfl, rfl, rfl⟩, ⟨rfl, rfl, rfl⟩, rfl⟩

theorem loadHeader_quiet (op : BitVec 4) (f : Frame) (s : State) : Quiet s (loadHeader op f s) :=
  ⟨⟨rfl, rfl, rfl, rfl⟩, ⟨rfl, rfl, rfl, rfl, rfl⟩, ⟨rfl, rfl, rfl⟩, rfl⟩

theorem startPayload_quiet (s : State) : Quiet s (startPayload s) :=
  ⟨⟨rfl, rfl, rfl, rfl⟩, ⟨rfl, rfl, rfl, rfl, rfl⟩, ⟨rfl, rfl, rfl⟩, rfl⟩

theorem raiseError_effect (c : Cause) (h : s.halted = false) : Effect s (raiseError c s) :=
  .raised ⟨⟨rfl, rfl, rfl, rfl⟩, ⟨rfl, rfl, rfl, rfl, rfl⟩, h, rfl, rfl, c, rfl, rfl, rfl⟩

theorem emit_reported (e : Event) (s : State) : Reported s (emit e s) :=
  ⟨⟨rfl, rfl, rfl, rfl⟩, ⟨rfl, rfl, rfl, rfl, rfl⟩, ⟨rfl, rfl, rfl⟩, e, rfl⟩

theorem emit_clear_reported (e : Event) (s : State) : Reported s (emit e (msgClear s)) :=
  ⟨⟨rfl, rfl, rfl, rfl⟩, ⟨rfl, rfl, rfl, rfl, rfl⟩, ⟨rfl, rfl, rfl⟩, e, rfl⟩

theorem msgOpenAs_quiet (op : BitVec 4) (r1 r2 r3 : Bool) (s : State) : Quiet s (msgOpenAs op r1 r2 r3 s) :=
  ⟨⟨rfl, rfl, rfl, rfl⟩, ⟨rfl, rfl, rfl, rfl, rfl⟩, ⟨rfl, rfl, rfl⟩, rfl⟩

theorem frameRule_effect {op : BitVec 4} (h : frameRule op s = .next t) : Effect s t := by
  rcases frameRule_cases h with ⟨e, rfl⟩ | ⟨o, r1, r2, r3, rfl⟩ | rfl | ⟨e, rfl⟩
  · exact .reported (emit_clear_reported _ _)
  · exact .quiet (msgOpenAs_quiet _ _ _ _ _)
  · exact .quiet (.refl _)
  · exact .reported (emit_reported _ _)

theorem finishFrame_effect {op : BitVec 4} (h : finishFrame (frameRule op) s = .next t) : Effect s t := by
  obtain ⟨u, hu, rfl⟩ := finishFrame_eq_next.1 h
  exact (frameRule_effect hu).quiet_after (setPhase_quiet _ _) rfl

theorem payloadStore_quiet {w : Byte} (h : payloadStore w s = .next t) : Quiet s t := by
  unfold payloadStore ctrlStore msgAppend at h
  split at h <;> split at h <;>
    first
    | (cases h; exact ⟨⟨rfl, rfl, rfl, rfl⟩, ⟨rfl, rfl, rfl, rfl, rfl⟩, ⟨rfl, rfl, rfl⟩, rfl⟩)
    | cases h

theorem storeAll_quiet {ws : List Byte} (h : storeAll ws s = .next t) : Quiet s t := by
  induction ws generalizing s with
  | nil =>
    cases h
    exact .refl _
  | cons w ws ih =>
    obtain ⟨u, h1, h2⟩ := andThen_eq_next.1 h
    exact (payloadStore_quiet h1).trans (ih h2)

theorem headerComplete_effect (hr : s.halted = false) (h : headerComplete s = .next t) : Effect s t := by
  unfold headerComplete at h
  split at h
  · cases h
    exact raiseError_effect _ hr
  · split at h
    · exact (startPayload_quiet s).effect (finishFrame_effect h)
    · cases h
      exact .quiet ((startPayload_quiet s).trans (setPhase_quiet _ _))

/-- What a byte step can do (44_parser.md R160; 20_memory.md R68). -/
theorem pushByte_effect (h : pushByte b s = .next t) : Effect s t := by
  cases hh : s.halted with
  | true =>
    rw [pushByte_of_halted hh] at h
    cases h
    exact .quiet (.refl _)
  | false =>
    cases hp : s.phase with
    | hdr0 =>
      rw [pushByte_hdr0 hh hp] at h
      cases h
      exact .quiet ⟨⟨rfl, rfl, rfl, rfl⟩, ⟨rfl, rfl, rfl, rfl, rfl⟩, ⟨rfl, rfl, rfl⟩, rfl⟩
    | hdr1 =>
      have q : Quiet s (loadByte1 b s) :=
        ⟨⟨rfl, rfl, rfl, rfl⟩, ⟨rfl, rfl, rfl, rfl, rfl⟩, ⟨rfl, rfl, rfl⟩, rfl⟩
      rw [pushByte_hdr1 hh hp, hdr1Step] at h
      split at h
      · cases h
        exact .quiet (q.trans (setPhase_quiet _ _))
      · split at h
        · cases h
          exact .quiet (q.trans (setPhase_quiet _ _))
        · exact q.effect (headerComplete_effect (by exact hh) h)
    | extLen =>
      have q : Quiet s (loadExtByte b s) :=
        ⟨⟨rfl, rfl, rfl, rfl⟩, ⟨rfl, rfl, rfl, rfl, rfl⟩, ⟨rfl, rfl, rfl⟩, rfl⟩
      have q2 : Quiet s (latchLength (loadExtByte b s)) :=
        ⟨⟨rfl, rfl, rfl, rfl⟩, ⟨rfl, rfl, rfl, rfl, rfl⟩, ⟨rfl, rfl, rfl⟩, rfl⟩
      rw [pushByte_extLen hh hp, extLenStep] at h
      split at h
      · unfold lengthDone at h
        split at h
        · cases h
          exact .quiet (q2.trans (setPhase_quiet _ _))
        · exact q2.effect (headerComplete_effect (by exact hh) h)
      · cases h
        exact .quiet q
    | maskKey =>
      rw [pushByte_maskKey hh hp, maskKeyStep] at h
      split at h
      · cases h
      · rename_i k _
        have q : Quiet s (withKey k (s.keyCnt + 1) s) :=
          ⟨⟨rfl, rfl, rfl, rfl⟩, ⟨rfl, rfl, rfl, rfl, rfl⟩, ⟨rfl, rfl, rfl⟩, rfl⟩
        split at h
        · exact q.effect (headerComplete_effect (s := withKey k (s.keyCnt + 1) s) hh h)
        · cases h
          exact .quiet q
    | payload =>
      rw [pushByte_payload hh hp, payloadStep] at h
      obtain ⟨u, h1, h2⟩ := andThen_eq_next.1 h
      have q := payloadStore_quiet h1
      split at h2
      · exact q.effect (finishFrame_effect h2)
      · cases h2
        exact .quiet q

/-- What a frame can do. -/
theorem exec_effect {i : Instr} (h : exec i s = .next t) : Effect s t := by
  rw [exec_eq_runFrame, runFrame] at h
  split at h
  · cases h
    exact .quiet (.refl _)
  · rename_i hh
    have hh' : s.halted = false := by simpa using hh
    have q := loadHeader_quiet i.opcode i.frame s
    split at h
    · cases h
      exact q.effect (raiseError_effect _ hh')
    · obtain ⟨u, h1, h2⟩ := andThen_eq_next.1 h
      exact (q.trans (startPayload_quiet _)).effect ((storeAll_quiet h1).effect (finishFrame_effect h2))

/-! ## The host's transactions -/

theorem drain_nil (h : s.evt = []) : drain s = s := by rw [drain, h]

theorem drain_cons {e : Event} {es : List Event} (h : s.evt = e :: es) :
    drain s = answer (.drained e) { s with evt := es } := by rw [drain, h]

theorem readStatus_answers (n : Nat) (s : State) : ∃ r, readStatus n s = answer r s := by
  unfold readStatus
  split <;> exact ⟨_, rfl⟩

/-- What a host transaction other than RESET and DRAIN can do: bytes join the input port, an answer is given, or the inputs
change (20_memory.md R57, R66). -/
theorem serve_forms {op : HostOp} (hr : op ≠ .reset) (hd : op ≠ .drain) (s : State) :
    (∃ bs, serve op s = present bs s) ∨ (∃ r, serve op s = answer r s) ∨ ∃ c, serve op s = { s with pins := c } := by
  cases op with
  | push b => exact .inl ⟨_, rfl⟩
  | parse c => exact .inl ⟨_, rfl⟩
  | drain => exact absurd rfl hd
  | readStatus n => exact .inr (.inl (readStatus_answers n s))
  | frame d => exact .inr (.inl ⟨_, rfl⟩)
  | reset => exact absurd rfl hr
  | driveInputs c => exact .inr (.inr ⟨_, rfl⟩)

theorem present_registers (bs : List Byte) (s : State) : SameRegisters s (present bs s) :=
  ⟨⟨rfl, rfl, rfl, rfl⟩, ⟨rfl, rfl, rfl, rfl, rfl, rfl, rfl, rfl, rfl, rfl, rfl, rfl, rfl, rfl, rfl⟩,
    ⟨rfl, rfl, rfl, rfl, rfl, rfl⟩, ⟨rfl, rfl, rfl⟩, rfl, rfl⟩

theorem answer_registers (r : Response) (es : List Event) (s : State) :
    SameRegisters s (answer r { s with evt := es }) :=
  ⟨⟨rfl, rfl, rfl, rfl⟩, ⟨rfl, rfl, rfl, rfl, rfl, rfl, rfl, rfl, rfl, rfl, rfl, rfl, rfl, rfl, rfl⟩,
    ⟨rfl, rfl, rfl, rfl, rfl, rfl⟩, ⟨rfl, rfl, rfl⟩, rfl, rfl⟩

theorem pins_registers (c : ConfigInputs) (s : State) : SameRegisters s { s with pins := c } :=
  ⟨⟨rfl, rfl, rfl, rfl⟩, ⟨rfl, rfl, rfl, rfl, rfl, rfl, rfl, rfl, rfl, rfl, rfl, rfl, rfl, rfl, rfl⟩,
    ⟨rfl, rfl, rfl, rfl, rfl, rfl⟩, ⟨rfl, rfl, rfl⟩, rfl, rfl⟩

/-- Moving the schedule on touches no register. -/
theorem nextTurn_registers (s : State) : SameRegisters s (nextTurn s) :=
  ⟨⟨rfl, rfl, rfl, rfl⟩, ⟨rfl, rfl, rfl, rfl, rfl, rfl, rfl, rfl, rfl, rfl, rfl, rfl, rfl, rfl, rfl⟩,
    ⟨rfl, rfl, rfl, rfl, rfl, rfl⟩, ⟨rfl, rfl, rfl⟩, rfl, rfl⟩

theorem SameRegisters.trans (h : SameRegisters s u) (k : SameRegisters u t) : SameRegisters s t :=
  ⟨h.config.trans k.config,
    ⟨k.header.phase.trans h.header.phase, k.header.hFin.trans h.header.hFin, k.header.hRsv1.trans h.header.hRsv1,
      k.header.hRsv2.trans h.header.hRsv2, k.header.hRsv3.trans h.header.hRsv3,
      k.header.hOpcode.trans h.header.hOpcode, k.header.hMask.trans h.header.hMask,
      k.header.hLen7.trans h.header.hLen7, k.header.ext.trans h.header.ext,
      k.header.extNeed.trans h.header.extNeed, k.header.extCnt.trans h.header.extCnt,
      k.header.key.trans h.header.key, k.header.keyCnt.trans h.header.keyCnt, k.header.plen.trans h.header.plen,
      k.header.pcnt.trans h.header.pcnt⟩,
    ⟨k.message.msgOpen.trans h.message.msgOpen, k.message.msgOpcode.trans h.message.msgOpcode,
      k.message.msgRsv1.trans h.message.msgRsv1, k.message.msgRsv2.trans h.message.msgRsv2,
      k.message.msgRsv3.trans h.message.msgRsv3, k.message.msgLen.trans h.message.msgLen⟩,
    h.error.trans k.error, k.msgBuf.trans h.msgBuf, k.ctrlBuf.trans h.ctrlBuf⟩

/-! ## The forms of a step -/

/-- The state once bytes have been taken from the input port. -/
@[simps] def afterInput (rest : List Byte) (s : State) : State := { s with inp := rest, sched := s.sched.tail }

/-- The state once the host's oldest transaction has been taken. -/
@[simps] def afterHost (rest : List HostOp) (s : State) : State := { s with host := rest, sched := s.sched.tail }

theorem afterInput_registers (rest : List Byte) (s : State) : SameRegisters s (afterInput rest s) :=
  ⟨⟨rfl, rfl, rfl, rfl⟩, ⟨rfl, rfl, rfl, rfl, rfl, rfl, rfl, rfl, rfl, rfl, rfl, rfl, rfl, rfl, rfl⟩,
    ⟨rfl, rfl, rfl, rfl, rfl, rfl⟩, ⟨rfl, rfl, rfl⟩, rfl, rfl⟩

theorem afterHost_registers (rest : List HostOp) (s : State) : SameRegisters s (afterHost rest s) :=
  ⟨⟨rfl, rfl, rfl, rfl⟩, ⟨rfl, rfl, rfl, rfl, rfl, rfl, rfl, rfl, rfl, rfl, rfl, rfl, rfl, rfl, rfl⟩,
    ⟨rfl, rfl, rfl, rfl, rfl, rfl⟩, ⟨rfl, rfl, rfl⟩, rfl, rfl⟩

/-- The four forms of a step: the host is served, the decoder takes a byte or a whole frame, or nothing can move. -/
inductive StepForm (s : State) : Prop where
  | host (op : HostOp) (rest : List HostOp) (hs : s.host = op :: rest)
      (h : step s = .next (serve op (afterHost rest s)))
  | wait (h : step s = .next (nextTurn s))
  | byte (b : Byte) (rest : List Byte) (hi : s.inp = b :: rest) (hp : portOpen s = true)
      (h : step s = pushByte b (afterInput rest s))
  | frame (i : Instr) (rest : List Byte) (hd : decode s.inp = .ok (i, rest)) (hz : s.phase = .hdr0)
      (hp : portOpen s = true) (h : step s = exec i (afterInput rest s))

theorem stepForm_of_host (hr : hostReady (nextTurn s) = true) (h : step s = .next (serveHost (nextTurn s))) :
    StepForm s := by
  cases hs : s.host with
  | nil =>
    have : (nextTurn s).host = [] := hs
    rw [hostReady, this] at hr
    cases hr
  | cons op rest =>
    have hn : (nextTurn s).host = op :: rest := hs
    refine .host op rest hs ?_
    rw [h, serveHost, hn]
    rfl

theorem stepForm_of_byte (hr : inputReady (nextTurn s) = true) (h : step s = byteTurn (nextTurn s)) : StepForm s := by
  simp only [inputReady, Bool.and_eq_true] at hr
  cases hi : s.inp with
  | nil =>
    have : (nextTurn s).inp = [] := hi
    rw [this] at hr
    cases hr.1
  | cons b rest =>
    have hn : (nextTurn s).inp = b :: rest := hi
    refine .byte b rest hi hr.2 ?_
    rw [h, byteTurn, hn]
    rfl

theorem fetch_eq_some {i : Instr} {rest : List Byte} (h : fetch s = some (i, rest)) :
    s.phase = .hdr0 ∧ decode s.inp = .ok (i, rest) := by
  unfold fetch at h
  split at h
  · rename_i hp
    split at h
    · rename_i r hd
      cases h
      exact ⟨hp, hd⟩
    · cases h
  · cases h

theorem stepForm_of_frame (hr : inputReady (nextTurn s) = true) (h : step s = frameTurn (nextTurn s)) : StepForm s := by
  unfold frameTurn at h
  split at h
  · rename_i i rest hf
    obtain ⟨hz, hd⟩ := fetch_eq_some hf
    simp only [inputReady, Bool.and_eq_true] at hr
    exact .frame i rest hd hz hr.2 h
  · exact stepForm_of_byte hr h

/-- Every step has one of the four forms. -/
theorem step_form (s : State) : StepForm s := by
  by_cases ht : turnOf s = .host
  · by_cases hh : hostReady (nextTurn s) = true
    · exact stepForm_of_host hh (by rw [step, if_pos ht, if_pos hh])
    · by_cases hi : inputReady (nextTurn s) = true
      · exact stepForm_of_frame hi (by rw [step, if_pos ht, if_neg hh, if_pos hi, decoderTurn])
      · exact .wait (by rw [step, if_pos ht, if_neg hh, if_neg hi])
  · by_cases hi : inputReady (nextTurn s) = true
    · have hs : step s = decoderTurn (turnOf s) (nextTurn s) := by rw [step, if_neg ht, if_pos hi]
      cases h : turnOf s with
      | host => exact absurd h ht
      | byte => exact stepForm_of_byte hi (by rw [hs, h, decoderTurn])
      | frame => exact stepForm_of_frame hi (by rw [hs, h, decoderTurn])
    · by_cases hh : hostReady (nextTurn s) = true
      · exact stepForm_of_host hh (by rw [step, if_neg ht, if_neg hi, if_pos hh])
      · exact .wait (by rw [step, if_neg ht, if_neg hi, if_neg hh])

end Sys2Proof.Machine
end

