-- ==== Sys2Proof/Tests/Slice0.lean ====
section
/-! SUPPORT. The model's own tests: well-formedness, decoding from bytes written out from 30_encoding.md R71 to R77, single steps
whose results 95_test_vectors.md gives, and for each statement with hypotheses a state and operands that meet them. -/

namespace Sys2Proof.Tests

open Sys2Proof.Machine Sys2Proof.Claim

/-! ## Helpers -/

/-- A field of the next state. -/
def after {α : Type} (g : State → α) (r : Result) : Option α :=
  match r with
  | .next t => some (g t)
  | .fault _ => none
  | .refused _ => none

/-- The bytes of a frame wait at the input port, and it is the frame's turn. -/
def fed (bs : List Byte) (s : State) : State := { s with inp := bs, sched := [.frame] }

/-- The host's turn, with one transaction. -/
def asked (op : HostOp) (s : State) : State := { s with host := [op], sched := [.host] }

def server : State := { State.reset with requireMasking := true }
def lax : State := { State.reset with strictLen := false }
def limited : State := { State.reset with params := { Config.resetParams with maxMessageBytes := some 4 } }
def halted : State := { State.reset with halted := true, errCause := 1, errCode := 1002 }

/-- 43_reassembler.md R141's example: `01 02 41 42` opened a message "AB". -/
def openAB : State :=
  { State.reset with msgOpen := true, msgOpcode := 1, msgBuf := [(0, 0x41), (1, 0x42)], msgLen := 2 }

def frameOf (op : Bool) (p : List Byte) : Frame := ⟨op, false, false, false, minimalField p.length, none, p⟩

/-! ## Well-formedness -/

theorem test_wf_good : (Instr.text (frameOf true [0x68, 0x69])).wf = true := by decide

/-- R72: 126 is a marker, not a direct length. -/
theorem test_wf_direct_marker :
    (Instr.text ⟨true, false, false, false, .direct 126, none, List.replicate 126 0⟩).wf = false := by decide

/-- R70 item 5: exactly PLEN payload bytes. -/
theorem test_wf_payload_short : (Instr.ping ⟨true, false, false, false, .direct 2, none, [0x70]⟩).wf = false := by decide
theorem test_wf_payload_long : (Instr.ping ⟨true, false, false, false, .ext16 1, none, [0x70, 0x71]⟩).wf = false := by
  decide

/-! ## Decoding, one word for every constructor -/

/-- 1000_0000 0000_0001 42. -/
theorem test_decode_cont : decode [0x80, 0x01, 0x42] = .ok (.cont (frameOf true [0x42]), []) := by decide
/-- 1000_0001 0000_0010 68 69 (S1). -/
theorem test_decode_text : decode [0x81, 0x02, 0x68, 0x69] = .ok (.text (frameOf true [0x68, 0x69]), []) := by decide
/-- 0000_0010 0000_0010 AA BB (P5): FIN = 0. -/
theorem test_decode_binary : decode [0x02, 0x02, 0xAA, 0xBB] = .ok (.binary (frameOf false [0xAA, 0xBB]), []) := by decide
theorem test_decode_op3 : decode [0x83, 0x00] = .ok (.op3 (frameOf true []), []) := by decide
theorem test_decode_op4 : decode [0x84, 0x00] = .ok (.op4 (frameOf true []), []) := by decide
/-- 1111_0101 0000_0000 (V-H4): the three RSV bits. -/
theorem test_decode_op5 : decode [0xF5, 0x00] = .ok (.op5 ⟨true, true, true, true, .direct 0, none, []⟩, []) := by decide
theorem test_decode_op6 : decode [0x86, 0x00] = .ok (.op6 (frameOf true []), []) := by decide
theorem test_decode_op7 : decode [0x87, 0x00] = .ok (.op7 (frameOf true []), []) := by decide
/-- 88 02 03 E8 (V-C2), and the byte after it. -/
theorem test_decode_close : decode [0x88, 0x02, 0x03, 0xE8, 0x89] = .ok (.close (frameOf true [0x03, 0xE8]), [0x89]) := by
  decide
/-- 89 81 AA BB CC DD DA (P1): a key. -/
theorem test_decode_ping : decode [0x89, 0x81, 0xAA, 0xBB, 0xCC, 0xDD, 0xDA] =
    .ok (.ping ⟨true, false, false, false, .direct 1, some ⟨0xAA, 0xBB, 0xCC, 0xDD⟩, [0xDA]⟩, []) := by decide
/-- 0111_1010 0000_0000 (V-H5). -/
theorem test_decode_pong : decode [0x7A, 0x00] = .ok (.pong ⟨false, true, true, true, .direct 0, none, []⟩, []) := by decide
theorem test_decode_op11 : decode [0x8B, 0x00] = .ok (.op11 (frameOf true []), []) := by decide
theorem test_decode_op12 : decode [0x8C, 0x00] = .ok (.op12 (frameOf true []), []) := by decide
theorem test_decode_op13 : decode [0x8D, 0x00] = .ok (.op13 (frameOf true []), []) := by decide
theorem test_decode_op14 : decode [0x8E, 0x00] = .ok (.op14 (frameOf true []), []) := by decide
theorem test_decode_op15 : decode [0x8F, 0x01, 0x05] = .ok (.op15 (frameOf true [0x05]), []) := by decide

/-- P4: `82 7E 00 03 61 62 63`, a 16-bit length. -/
theorem test_decode_ext16 : decode [0x82, 0x7E, 0x00, 0x03, 0x61, 0x62, 0x63] =
    .ok (.binary ⟨true, false, false, false, .ext16 3, none, [0x61, 0x62, 0x63]⟩, []) := by decide
/-- V-L13: a 64-bit length. -/
theorem test_decode_ext64 : decode [0x82, 0x7F, 0, 0, 0, 0, 0, 0, 0, 0x02, 0x01, 0x02] =
    .ok (.binary ⟨true, false, false, false, .ext64 2, none, [0x01, 0x02]⟩, []) := by decide

/-- R115: the field whose bytes are still to come. -/
theorem test_decode_incomplete :
    decode [] = .error .byte0 ∧ decode [0x81] = .error .byte1 ∧ decode [0x81, 0xFE, 0x00] = .error .extendedLength ∧
      decode [0x81, 0x81, 0x01, 0x02, 0x03] = .error .maskingKey ∧ decode [0x81, 0x02, 0x68] = .error .payload := by
  decide

/-- The table's masks and patterns leave no two rows in one word (R78). -/
theorem test_table_rows_apart :
    tableRows.Pairwise fun a b => a.mask = 0x0F00#16 ∧ b.mask = 0x0F00#16 ∧ a.pattern &&& a.mask ≠ b.pattern &&& b.mask := by
  decide

/-- Every row of the table is the row its opcode selects. -/
theorem test_table_rows_select :
    ∀ r ∈ tableRows, r.build (frameOf true []) = instrOf (r.pattern.extractLsb' 8 4) (frameOf true []) := by decide

theorem test_encode_masked_close : encode (.close
    ⟨true, false, false, false, .direct 2, some ⟨1, 1, 1, 1⟩, [0x02, 0xE9]⟩) =
    [0x88, 0x82, 0x01, 0x01, 0x01, 0x01, 0x02, 0xE9] := by decide

/-- P1 frame 0, in the notation of R86: `TEXT.nf key=01:02:03:04 "Hel"`. -/
theorem test_notation : (assemble { op := 1, nf := true, key := some ⟨1, 2, 3, 4⟩, payload := [0x48, 0x65, 0x6C] }).map encode =
    some [0x01, 0x83, 0x01, 0x02, 0x03, 0x04, 0x49, 0x67, 0x6F] := by decide

/-! ## One step of each instruction (results from 95_test_vectors.md) -/

/-- S2's second frame. -/
theorem test_cont_completes : after (·.evt) (step (fed [0x80, 0x02, 0x43, 0x44] openAB)) =
    some [.message 1 false false false [0x41, 0x42, 0x43, 0x44]] := by decide
/-- V-E9. -/
theorem test_cont_without_message : after cr2 (step (fed [0x80, 0x00] State.reset)) = some 0x03EA00A1 := by decide
/-- S1. -/
theorem test_text_message : after (·.evt) (step (fed [0x81, 0x02, 0x68, 0x69] State.reset)) =
    some [.message 1 false false false [0x68, 0x69]] := by decide
/-- V-R1. -/
theorem test_text_opens : after (fun t => (cr2 t, t.msgOpcode, t.msgLen)) (step (fed [0x01, 0x02, 0x41, 0x42] State.reset)) =
    some (0x00000002, 1, 2) := by decide
/-- V-E15: exactly the limit. -/
theorem test_binary_at_limit : after (·.evt) (step (fed [0x82, 0x04, 0x01, 0x02, 0x03, 0x04] limited)) =
    some [.message 2 false false false [0x01, 0x02, 0x03, 0x04]] := by decide
/-- V-E14: one byte more. -/
theorem test_binary_too_big : after cr2 (step (fed [0x82, 0x05, 0x01, 0x02, 0x03, 0x04, 0x05] limited)) =
    some 0x03F10121 := by decide
/-- V-C6: a masked close frame. -/
theorem test_close_masked : after (·.evt)
    (step (fed [0x88, 0x86, 0x11, 0x22, 0x33, 0x44, 0x12, 0xCA, 0x57, 0x2B, 0x7F, 0x47] server)) =
    some [.close 1000 [0x64, 0x6F, 0x6E, 0x65]] := by decide
/-- V-E13. -/
theorem test_close_one_byte : after cr2 (step (fed [0x88, 0x01, 0x00] State.reset)) = some 0x03EA0101 := by decide
/-- P1 frame 1. -/
theorem test_ping_masked : after (·.evt) (step (fed [0x89, 0x81, 0xAA, 0xBB, 0xCC, 0xDD, 0xDA] server)) =
    some [.ping [0x70]] := by decide
/-- V-P3: the length is reported before the mask. -/
theorem test_ping_too_long :
    after cr2 (pushAll [0x89, 0xFE, 0x00, 0xFF, 0x00, 0x00, 0x00, 0x00] State.reset) = some 0x03EA0061 := by decide
/-- V-G2, with the message of V-R8 open. -/
theorem test_pong_interleaved : after (fun t => (t.evt, t.msgLen, t.msgOpen)) (step (fed [0x8A, 0x00] openAB)) =
    some ([.pong []], 2, true) := by decide
/-- V-H5. -/
theorem test_pong_fragmented : after cr2 (step (fed [0x7A, 0x00] State.reset)) = some 0x03EA0041 := by decide
/-- V-E1. -/
theorem test_op3 : after cr2 (step (fed [0x83, 0x00] State.reset)) = some 0x03EA0021 := by decide
theorem test_op4 : after cr2 (step (fed [0x84, 0x00] State.reset)) = some 0x03EA0021 := by decide
/-- V-H4. -/
theorem test_op5 : after cr2 (step (fed [0xF5, 0x00] State.reset)) = some 0x03EA0021 := by decide
theorem test_op6 : after cr2 (step (fed [0x06, 0x00] State.reset)) = some 0x03EA0021 := by decide
theorem test_op7 : after cr2 (step (fed [0x87, 0x00] openAB)) = some 0x03EA0023 := by decide
theorem test_op11 : after cr2 (step (fed [0x8B, 0x00] State.reset)) = some 0x03EA0021 := by decide
theorem test_op12 : after cr2 (step (fed [0x8C, 0x00] State.reset)) = some 0x03EA0021 := by decide
theorem test_op13 : after cr2 (step (fed [0x8D, 0x00] State.reset)) = some 0x03EA0021 := by decide
theorem test_op14 : after cr2 (step (fed [0x8E, 0x00] State.reset)) = some 0x03EA0021 := by decide
/-- V-E2: the payload is dropped. -/
theorem test_op15 : after (fun t => (cr2 t, t.inp)) (step (fed [0x8F, 0x05, 0x01, 0x02, 0x03, 0x04, 0x05] State.reset)) =
    some (0x03EA0021, []) := by decide

/-- A table word placed by withFetchWord is the very next frame. -/
theorem test_fetch_word : after cr2 (step (State.reset.withFetchWord 16 0x8300)) = some 0x03EA0021 := by decide
theorem test_table_word : decodeTableWord 16 0x0981 = some (.ping ⟨false, false, false, false, .direct 1, some ⟨0, 0, 0, 0⟩, [0]⟩) := by
  decide

/-! ## Byte steps, masking, the encoder and the host's transactions -/

/-- V-H7: byte 1 of a masked frame with a 16-bit length. -/
theorem test_phase_extLen : after (fun t => (t.phase, t.extNeed, t.hMask)) (pushAll [0x82, 0xFE] State.reset) =
    some (.extLen, 2, true) := by decide
/-- V-L10: the top bit of a 64-bit length is part of it. -/
theorem test_length_top_bit :
    after (fun t => (t.phase, t.plen)) (pushAll [0x82, 0x7F, 0x80, 0, 0, 0, 0, 0, 0, 0] State.reset) =
      some (.payload, 0x8000000000000000) := by decide
/-- P4 with STRICT_LEN = 0. -/
theorem test_lax_length : after (·.evt) (pushAll [0x82, 0x7E, 0x00, 0x03, 0x61, 0x62, 0x63] lax) =
    some [.message 2 false false false [0x61, 0x62, 0x63]] := by decide
/-- P4 with STRICT_LEN = 0: PCNT keeps the frame's count after frame complete (log entry 11). -/
theorem test_counter_after_frame :
    after (fun t => (t.phase, t.pcnt)) (pushAll [0x82, 0x7E, 0x00, 0x03, 0x61, 0x62, 0x63] lax) = some (.hdr0, 3) := by decide
/-- P2, frames 1 to 3: the raising frame leaves PCNT as frame 2's header complete set it (log entry 11). -/
theorem test_counter_after_error :
    after (fun t => (t.pcnt, t.plen, cr2 t)) (pushAll [0x01, 0x01, 0x41, 0x8A, 0x00, 0x83, 0x00] State.reset) =
      some (0, 0, 0x03EA0023) := by decide
/-- V-M3. -/
theorem test_mask_lanes : maskApply [0xFF, 0xFF, 0xFF, 0xFF, 0xFF, 0xFF] ⟨0x0F, 0xF0, 0x55, 0xAA⟩ =
    [0xF0, 0x0F, 0xAA, 0x55, 0xF0, 0x0F] := by decide
/-- S4. -/
theorem test_encoder_masked : frameResponse true
    ⟨true, false, false, false, 2, 2, some ⟨0, 1, 2, 3⟩, [0x05, 0x05]⟩ =
    .bytes [0x82, 0x82, 0x00, 0x01, 0x02, 0x03, 0x05, 0x04] := by decide
/-- V-X14: the first violation in order. -/
theorem test_encoder_violation : frameResponse true ⟨true, false, false, false, 2, 3, none, [0x01, 0x02]⟩ =
    .violation .lengthMismatch := by decide
/-- V-S3: RESET discards a partial frame. -/
theorem test_reset_mid_frame : after (fun t => (t.phase, cr2 t)) (step (asked .reset { State.reset with phase := .payload, plen := 2, pcnt := 1, msgLen := 1 })) =
    some (.hdr0, 0) := by decide
/-- R35. -/
theorem test_read_status : after (·.resp) (step (asked (.readStatus 2) halted)) =
    some [.status 2 (.word 0x03EA0021)] := by decide

/-! ## Witnesses: for each statement with hypotheses, operands that meet them -/

def someText : Instr := .text ⟨true, false, false, false, .direct 2, none, [0x68, 0x69]⟩

theorem witness_DecodeOfEncodeIsTheInstruction : someText.wf = true := by decide
theorem witness_EncodeOfDecodeIsTheBytes : decode [0x81, 0x02, 0x68, 0x69, 0x89] = .ok (someText, [0x89]) := by decide
theorem witness_BeginningOfAFrameNeedsMoreData :
    someText.wf = true ∧ encode someText = [0x81, 0x02, 0x68] ++ [0x69] ∧ ([0x69] : List Byte) ≠ [] := by decide
theorem witness_TableWordSelectsRowAndFields : 0 < 65536 ∧ 0xFFFF < 65536 := by decide

/-- Direct lengths 0 and 2, a 16-bit and a 64-bit length. -/
theorem witness_PayloadLengthIsAssembledBigEndian :
    decode [0x89, 0x00] = .ok (.ping (frameOf true []), []) ∧
    decode [0x82, 0x7E, 0x00, 0x01, 0x07] = .ok (.binary ⟨true, false, false, false, .ext16 1, none, [7]⟩, []) ∧
    decode [0x82, 0x7F, 0, 0, 0, 0, 0, 0, 0, 0] = .ok (.binary ⟨true, false, false, false, .ext64 0, none, []⟩, []) := by
  decide
theorem witness_FrameLengthIsHeaderPlusPayload : someText.wf = true := by decide
theorem witness_FirstHeaderByteFillsItsRegisters : State.reset.halted = false ∧ State.reset.phase = .hdr0 := by decide

def inHdr1 : State := { State.reset with hFin := true, hOpcode := 2, phase := .hdr1 }

/-- Both clauses, at the largest direct length, the largest 16-bit length and a 64-bit length. -/
theorem witness_SerialLengthAssemblyGivesPlen :
    (LenField.direct 125).wf = true ∧ (LenField.ext16 0xFFFF).wf = true ∧ (LenField.ext64 0x10000).wf = true ∧
    inHdr1.halted = false ∧ inHdr1.phase = .hdr1 ∧
    after (·.plen) (pushAll (byte1 false 125 :: (LenField.direct 125).bytes) inHdr1) = some 125 ∧
    after (·.plen) (pushAll (byte1 false 126 :: (LenField.ext16 0xFFFF).bytes) inHdr1) = some 0xFFFF ∧
    after (·.plen) (pushAll (byte1 false 127 :: (LenField.ext64 0x10000).bytes) inHdr1) = some 0x10000 := by decide

def inExt (cnt : BitVec 4) (mask : Bool) : State :=
  { inHdr1 with phase := .extLen, hLen7 := 126, extNeed := 2, extCnt := cnt, hMask := mask, ext := 1 }
def inKey (cnt : BitVec 3) : State :=
  { server with hFin := true, hOpcode := 2, hMask := true, hLen7 := 2, phase := .maskKey, keyCnt := cnt, plen := 2 }
def inPayload (n : Length) : State :=
  { inHdr1 with phase := .payload, hLen7 := 2, plen := 2, pcnt := n, msgLen := n.toNat, msgBuf := [(0, 1)] }

/-- Every row of the table has a byte and a state on each side of its condition. -/
theorem witness_PhaseTransitionTable :
    after (·.phase) (pushByte 0x81 State.reset) = some .hdr1 ∧
    after (·.phase) (pushByte 126 inHdr1) = some .extLen ∧ after (·.phase) (pushByte 0xFF inHdr1) = some .extLen ∧
    after (·.phase) (pushByte 0xFD inHdr1) = some .maskKey ∧ after (·.phase) (pushByte 0x80 inHdr1) = some .maskKey ∧
    after (·.phase) (pushByte 125 inHdr1) = some .payload ∧ after (·.phase) (pushByte 0 inHdr1) = some .hdr0 ∧
    after (·.phase) (pushByte 0 (inExt 0 false)) = some .extLen ∧
    after (·.phase) (pushByte 0 (inExt 1 true)) = some .maskKey ∧
    after (·.phase) (pushByte 0 (inExt 1 false)) = some .payload ∧
    after (·.phase) (pushByte 0 (inKey 2)) = some .maskKey ∧ after (·.phase) (pushByte 0 (inKey 3)) = some .payload ∧
    after (·.phase) (pushByte 0 (inPayload 0)) = some .payload ∧
    after (·.phase) (pushByte 0 (inPayload 1)) = some .hdr0 := by decide
theorem witness_FrameMeaningIsByteSerial : someText.wf = true ∧ State.reset.phase = .hdr0 := by decide
theorem witness_PushIgnoresEventPort : after (·.evt) (pushByte 0x00 { State.reset with phase := .hdr1, hOpcode := 9, hFin := true }) =
    some [.ping []] := by decide
theorem witness_StepRunsTheWaitingFrame :
    someText.wf = true ∧ (fed (encode someText ++ [0x89]) State.reset).inp = encode someText ++ [0x89] ∧
    (fed (encode someText ++ [0x89]) State.reset).phase = .hdr0 ∧
    turnOf (fed (encode someText ++ [0x89]) State.reset) = .frame ∧
    portOpen (fed (encode someText ++ [0x89]) State.reset) = true := by decide

def byteWaits : State := { State.reset with inp := [0x89], sched := [.byte] }
theorem witness_StepPushesOneByte :
    byteWaits.inp = [0x89] ∧ turnOf byteWaits = .byte ∧ portOpen byteWaits = true := by decide

/-- V-S6: EVT_DEPTH = 1 and one record undrained. -/
def fullPort : State :=
  { State.reset with
    params := { Config.resetParams with evtDepth := some 1 }
    evt := [.ping []]
    inp := [0x89, 0x00]
    host := [.drain] }
theorem witness_FullEventPortHoldsTheInput :
    fullPort.params.evtDepth = some 1 ∧ 1 ≤ fullPort.evt.length ∧ fullPort.halted = false ∧
      fullPort.host.head? ≠ some .reset ∧ after (·.evt) (step fullPort) = some [] := by decide
theorem witness_StepAppendsAtMostOneRecord :
    after (·.evt.length) (step (fed [0x89, 0x00] State.reset)) = some 1 ∧
      (fed [0x89, 0x00] State.reset).host.head? ≠ some .reset ∧ after (·.evt.length) (step fullPort) = some 0 := by decide
theorem witness_ConfigurationChangesOnlyAtReset :
    after (·.txMasking) (step (asked (.driveInputs ⟨true, some false, true⟩) State.reset)) = some false ∧
      (asked (.driveInputs ⟨true, some false, true⟩) State.reset).host.head? ≠ some .reset := by decide
theorem witness_OnlyTheErrorEntryHalts :
    (fed [0x83, 0x00] State.reset).halted = false ∧ after (·.halted) (step (fed [0x83, 0x00] State.reset)) = some true := by
  decide

/-- A state inside a frame that meets the invariant and steps on. -/
def inFrame : State := { inHdr1 with inp := [0x02] }
theorem inFrame_inv : inFrame.Inv :=
  { (BetweenPayloads.inv (s := inFrame)
      { running := rfl, noError := rfl, ext_need := .inl rfl, ext_cnt := Nat.le_refl _, key_cnt := Nat.zero_le _
        msg_opcode := nofun, msg_len_zero := fun _ => rfl, msg_limit := nofun, msg_buf := ⟨rfl, nofun⟩
        ctrl_buf := ⟨rfl, nofun⟩, msg_filled := nofun } nofun nofun nofun fun _ => Nat.zero_le _) with
    evt_depth := nofun }
theorem witness_EveryStepKeepsTheInvariant :
    inFrame.Inv ∧ after (fun t => (t.phase, t.plen)) (step inFrame) = some (.payload, 2) := ⟨inFrame_inv, by decide⟩
theorem witness_EveryStepGoesOn : inFrame.Inv := inFrame_inv
theorem witness_HaltedInputIsDiscarded : halted.halted = true := by decide
theorem witness_HaltedUntilReset : halted.halted = true ∧ halted.host.head? ≠ some .reset := by decide

/-- Two checks fail, and the first is reported. -/
theorem witness_FirstFailingCheckIsReported :
    checkFails .reservedOpcode { State.reset with hOpcode := 3, hMask := true } = true ∧
      checkFails .maskMismatch { State.reset with hOpcode := 3, hMask := true } = true ∧
      validate { State.reset with hOpcode := 3, hMask := true } = some .reservedOpcode ∧ validate inHdr1 = none := by
  decide

def masked (p : List Byte) : Frame := ⟨true, false, false, false, .direct 2, some ⟨1, 2, 3, 4⟩, p⟩
theorem witness_ReservedOpcodeFrameEffect :
    State.reset.halted = false ∧ Instr.op15 (frameOf true []) ∈ reservedFrames (frameOf true []) := by decide
theorem witness_FragmentedControlFrameIsRejected :
    State.reset.halted = false ∧ (frameOf false []).fin = false ∧
      Instr.pong (frameOf false []) ∈ controlFrames (frameOf false []) := by decide
def longPing : Frame := ⟨true, false, false, false, .ext16 126, none, List.replicate 126 0⟩
theorem witness_LongControlFrameIsRejected :
    State.reset.halted = false ∧ longPing.fin = true ∧ 125 < longPing.len.count ∧
      Instr.ping longPing ∈ controlFrames longPing := by decide
theorem witness_WrongMaskBitIsRejected :
    State.reset.halted = false ∧ (masked [0, 0]).key.isSome ≠ State.reset.requireMasking ∧
      (frameOf true []).key.isSome ≠ server.requireMasking ∧ (masked [0, 0]).fin = true ∧
      (masked [0, 0]).len.count ≤ 125 := by decide
theorem witness_ContinuationWithoutMessageIsRejected :
    State.reset.halted = false ∧ (frameOf true []).key.isSome = State.reset.requireMasking ∧
      State.reset.msgOpen = false := by decide
theorem witness_DataFrameInsideMessageIsRejected :
    openAB.halted = false ∧ (frameOf true []).key.isSome = openAB.requireMasking ∧ openAB.msgOpen = true := by decide

/-- 125 in 16 bits, 65535 in 64 bits: the largest lengths that are not minimal. -/
theorem witness_NonMinimalLengthIsRejected :
    State.reset.halted = false ∧ State.reset.strictLen = true ∧ (¬ShortestForm (.ext16 125)) ∧
      (¬ShortestForm (.ext64 65535)) ∧ openAB.msgOpen = true ∧ State.reset.msgOpen = false ∧
      (LenField.ext16 125).count ≤ 125 := by
  refine ⟨by decide, by decide, ?_, ?_, by decide, by decide, by decide⟩ <;> simp [ShortestForm]

theorem accepted_reset (p : List Byte) (fin : Bool) (h : (frameOf fin p).wf = true)
    (hs : ShortestForm (frameOf fin p).len) : Accepted (frameOf fin p) State.reset :=
  ⟨h, by decide, rfl, fun _ => hs⟩
theorem acceptedControl_reset (p : List Byte) (h : (frameOf true p).wf = true) (hs : ShortestForm (frameOf true p).len)
    (hl : p.length ≤ 125) : AcceptedControl (frameOf true p) State.reset :=
  { accepted_reset p true h hs with fin := rfl, short := hl }
theorem witness_OneByteCloseIsRejected :
    AcceptedControl (frameOf true [7]) State.reset ∧ (frameOf true [7]).payload.length = 1 :=
  ⟨acceptedControl_reset [7] (by decide) trivial (by decide), rfl⟩
theorem witness_TooBigMessageIsRejected :
    Accepted (frameOf true [1, 2, 3, 4, 5]) limited ∧ limited.params.maxMessageBytes = some 4 ∧
      4 < limited.msgLen + (frameOf true [1, 2, 3, 4, 5]).payload.length ∧ limited.msgOpen = false ∧
      Accepted (frameOf true [1, 2, 3, 4, 5]) { limited with msgOpen := true, msgOpcode := 2 } :=
  ⟨⟨by decide, rfl, rfl, fun _ => trivial⟩, rfl, by decide, rfl, ⟨by decide, rfl, rfl, fun _ => trivial⟩⟩

/-- TEXT and BINARY: both values of FIN, with exactly the limit; and a frame that halts. -/
theorem witness_TextFrameEffect :
    Accepted (frameOf true [1, 2, 3, 4]) limited ∧ Accepted (frameOf false []) limited ∧ limited.msgOpen = false ∧
      limited.msgLen = 0 ∧ Fits limited 4 ∧ openAB.halted = false ∧
      after (·.halted) (exec (.text (frameOf true [])) openAB) = some true :=
  ⟨⟨by decide, rfl, rfl, fun _ => trivial⟩, ⟨by decide, rfl, rfl, fun _ => trivial⟩, rfl, rfl,
    fun m h => by cases h; decide, rfl, by decide⟩
theorem witness_BinaryFrameEffect :
    Accepted (frameOf true [1, 2, 3, 4]) limited ∧ Accepted (frameOf false []) limited ∧ limited.msgOpen = false ∧
      limited.msgLen = 0 ∧ Fits limited 4 ∧ limited.halted = false ∧
      after (·.halted) (exec (.binary (frameOf true [1, 2, 3, 4, 5])) limited) = some true :=
  ⟨⟨by decide, rfl, rfl, fun _ => trivial⟩, ⟨by decide, rfl, rfl, fun _ => trivial⟩, rfl, rfl,
    fun m h => by cases h; decide, rfl, by decide⟩
theorem witness_ContinuationFrameEffect :
    Accepted (frameOf true [1]) openAB ∧ Accepted (frameOf false [1]) openAB ∧ openAB.msgOpen = true ∧ Fits openAB 1 ∧
      openAB.msgBuf.readBytes 0 openAB.msgLen = some [0x41, 0x42] ∧ State.reset.halted = false ∧
      after (·.halted) (exec (.cont (frameOf true [])) State.reset) = some true :=
  ⟨⟨by decide, rfl, rfl, fun _ => trivial⟩, ⟨by decide, rfl, rfl, fun _ => trivial⟩, rfl, nofun, by decide, rfl,
    by decide⟩
theorem witness_CloseFrameEffect :
    AcceptedControl (frameOf true []) State.reset ∧ (frameOf true []).payload.length ≠ 1 ∧
      AcceptedControl (frameOf true [3, 0xE8]) State.reset ∧ State.reset.halted = false ∧
      after (·.halted) (exec (.close (frameOf true [7])) State.reset) = some true :=
  ⟨acceptedControl_reset [] (by decide) trivial (by decide), by decide,
    acceptedControl_reset [3, 0xE8] (by decide) trivial (by decide), rfl, by decide⟩
theorem witness_PingFrameEffect :
    AcceptedControl (frameOf true [0x70]) State.reset ∧ State.reset.halted = false ∧
      after (·.halted) (exec (.ping (frameOf false [])) State.reset) = some true :=
  ⟨acceptedControl_reset [0x70] (by decide) trivial (by decide), rfl, by decide⟩
theorem witness_PongFrameEffect :
    AcceptedControl (frameOf true []) State.reset ∧ State.reset.halted = false ∧
      after (·.halted) (exec (.pong (frameOf false [])) State.reset) = some true :=
  ⟨acceptedControl_reset [] (by decide) trivial (by decide), rfl, by decide⟩
theorem witness_EveryFrameLeavesItsFieldsInTheHeader :
    someText.wf = true ∧ State.reset.halted = false ∧ after (·.pcnt) (exec someText State.reset) = some 2 ∧
      after (fun t => (t.halted, t.pcnt)) (exec someText { openAB with pcnt := 7 }) = some (true, 7) := by decide
theorem witness_DataFramesChangeOnlyTheirOwn :
    (frameOf true [1]).wf = true ∧ Instr.cont (frameOf true [1]) ∈ Instr.cont (frameOf true [1]) :: dataFrames (frameOf true [1]) ∧
      after (·.halted) (exec (.cont (frameOf true [1])) openAB) = some false ∧
      after (·.halted) (exec (.text (frameOf true [1])) openAB) = some true := by decide
theorem witness_ControlFramesChangeOnlyTheirOwn :
    (frameOf true [1]).wf = true ∧ Instr.ping (frameOf true [1]) ∈ controlFrames (frameOf true [1]) ∧
      after (·.halted) (exec (.ping (frameOf true [1])) openAB) = some false ∧
      after (·.halted) (exec (.close (frameOf true [1])) openAB) = some true := by decide
theorem witness_ControlFrameLeavesTheMessageAlone :
    (frameOf true [1]).wf = true ∧ Instr.ping (frameOf true [1]) ∈ controlFrames (frameOf true [1]) ∧
      after (·.halted) (exec (.ping (frameOf true [1])) openAB) = some false ∧
      after (·.evt) (andThen (exec (.ping (frameOf true [1])) openAB) (exec (.cont (frameOf true [2])))) =
        some [.ping [1], .message 1 false false false [0x41, 0x42, 2]] := by decide

/-- A ping, an empty fragment and a close between the first and the last fragment. -/
theorem witness_FragmentedMessageIsDeliveredOnce :
    Accepted (frameOf false [1]) State.reset ∧
      (∀ i ∈ [Instr.ping (frameOf true []), .cont (frameOf false []), .close (frameOf true [3, 0xE8])],
        MayInterleave State.reset i) ∧
      Accepted (frameOf true [2]) State.reset ∧ State.reset.msgOpen = false ∧ State.reset.msgLen = 0 ∧
      Fits State.reset 2 := by
  refine ⟨accepted_reset [1] false (by decide) trivial, ?_, accepted_reset [2] true (by decide) trivial, rfl, rfl, nofun⟩
  intro i hi
  simp only [List.mem_cons, List.not_mem_nil, or_false] at hi
  rcases hi with rfl | rfl | rfl
  · exact acceptedControl_reset [] (by decide) trivial (by decide)
  · exact ⟨accepted_reset [] false (by decide) trivial, rfl⟩
  · exact ⟨acceptedControl_reset [3, 0xE8] (by decide) trivial (by decide), by decide⟩
theorem witness_MaskApplyIsBytewiseXor : (4 : Nat) < ([1, 2, 3, 4, 5] : List Byte).length := by decide
theorem witness_MaskApplySplits : ([1, 2, 3, 4] : List Byte).length % 4 = 0 := by decide

def maskedHi : Descriptor := ⟨true, false, false, false, 1, 2, some ⟨1, 2, 3, 4⟩, [0x68, 0x69]⟩
theorem witness_FrameRequestGivesTheWireBytes :
    maskedHi.payloadLength = maskedHi.payload.length ∧ maskedHi.payloadLength < 2 ^ 64 ∧
      maskedHi.maskingKey.isSome = true := by decide
theorem witness_FrameRequestOutputLength :
    frameResponse true maskedHi = .bytes [0x81, 0x82, 1, 2, 3, 4, 0x69, 0x6B] := by decide
theorem witness_FrameRequestOutputDecodes :
    frameResponse true maskedHi = .bytes [0x81, 0x82, 1, 2, 3, 4, 0x69, 0x6B] := by decide
theorem witness_EncodedFrameComesBackAsItsEvent :
    frameResponse true maskedHi = .bytes [0x81, 0x82, 1, 2, 3, 4, 0x69, 0x6B] ∧ maskedHi.fin = true ∧
      maskedHi.opcode = 1 ∧ isControl maskedHi.opcode = false ∧ Fits server 2 ∧ server.halted = false ∧
      server.phase = .hdr0 ∧ server.requireMasking = true ∧ server.msgOpen = false ∧ server.msgLen = 0 :=
  ⟨by decide, rfl, rfl, by decide, nofun, rfl, rfl, rfl, rfl, rfl⟩
/-- S4 as a request of an encoder with TX_MASKING = 1 and REQUIRE_MASKING = 0; and a DRAIN that can be served. -/
theorem witness_HostTransactionsLeaveTheRegisters :
    HostOp.drain ≠ .reset ∧ HostOp.readStatus 2 ≠ .drain ∧
      after (·.resp) (step (asked (.frame ⟨true, false, false, false, 2, 2, some ⟨0, 1, 2, 3⟩, [0x05, 0x05]⟩)
        { State.reset with txMasking := true })) =
        some [.bytes [0x82, 0x82, 0x00, 0x01, 0x02, 0x03, 0x05, 0x04]] ∧
      after (·.inp) (step (asked (.parse [2, 3]) { State.reset with inp := [1] })) = some [1, 2, 3] ∧
      turnOf (asked .drain { State.reset with evt := [.ping []] }) = .host ∧
      (asked .drain { State.reset with evt := [.ping []] }).host = [.drain] ∧
      (asked .drain { State.reset with evt := [.ping []] }).evt ≠ [] := by decide

/-- A record to drain; and an empty EVT, on which the host waits (V-S8). -/
theorem witness_DrainTakesTheHeadRecord :
    turnOf (asked .drain { State.reset with evt := [.ping []] }) = .host ∧
      (asked .drain { State.reset with evt := [.ping []] }).host = [.drain] ∧
      (asked .drain State.reset).evt = [] ∧ (asked .drain State.reset).inp = [] := by decide
theorem witness_StatusReadsShowTheirFields : (3 : Nat) ≤ 3 := by decide
theorem witness_ResetGivesTheTabledValues :
    turnOf (asked .reset halted) = .host ∧ (asked .reset halted).host = [.reset] := by decide

end Sys2Proof.Tests
end

/-! SUPPORT. The statements of the state family (10_state.md): the frame, the registers and the invariant that every step keeps. -/

namespace Sys2Proof.Machine

open Sys2Proof.Claim

variable {s t : State}

/-! ## A whole frame is its bytes -/

/-- What the decoder reads is a well-formed instruction (30_encoding.md R70). -/
theorem decode_wf {bs rest : List Byte} {i : Instr} (h : decode bs = .ok (i, rest)) : i.wf = true := by
  unfold decode at h
  split at h
  · cases h
  · cases h
  · split at h
    · cases h
    · rename_i hlen
      split at h
      · cases h
      · split at h
        · cases h
        · rename_i hpay
          obtain ⟨rfl, -⟩ := Prod.mk.inj (Except.ok.inj h)
          simp [Instr.wf, Frame.wf, (takeLen_some hlen).1, (takePayload_some hpay).1]

/-- After a frame's header, its payload bytes one by one do what the rest of the frame's meaning does
(42_header_decoder.md R116; 44_parser.md R171, R172). -/
theorem headerComplete_pushAll_payload {op : BitVec 4} {f : Frame} (hw : f.wf = true) (hh : s.halted = false) :
    andThen (headerComplete (loadHeader op f s)) (pushAll f.payload) = runFrame op (frameRule op) f s := by
  have hlen : f.payload.length = f.len.plen.toNat := by rw [Frame.wf_length hw, LenField.plen_toNat]
  unfold headerComplete
  cases hv : validate (loadHeader op f s) with
  | some c => rw [runFrame_rejected hh hv, andThen_next, pushAll_of_halted rfl]
  | none =>
    have hrun : runFrame op (frameRule op) f s =
        andThen (storeAll f.payload (startPayload (loadHeader op f s))) (finishFrame (frameRule op)) := by
      simp [runFrame, hh, hv]
    rw [hrun]
    by_cases h0 : f.len.plen = 0
    · have hnil : f.payload = [] := List.length_eq_zero_iff.1 (by rw [hlen, h0]; rfl)
      simp only [loadHeader_plen, h0, if_true, hnil]
      exact andThen_pure _
    · have hne : f.payload ≠ [] := fun e => h0 (BitVec.eq_of_toNat_eq (by rw [← hlen, e]; rfl))
      simp only [loadHeader_plen, h0, if_false, andThen_next]
      rw [pushAll_payload (s := setPhase .payload (startPayload (loadHeader op f s))) hh rfl hne
          (by simpa using hlen),
        ← storeAll_finish_setPhase (frameRule_phaseBlind op) .payload]
      cases hst : storeAll f.payload (setPhase .payload (startPayload (loadHeader op f s))) with
      | next u =>
        have hop : u.hOpcode = op := storeAll_hOpcode hst
        simp only [andThen_next, frameComplete, hop]
      | fault e => rfl
      | refused e => rfl

/-- A frame's meaning is what PUSH of its bytes one by one does at a frame boundary (70_reset_and_hazards.md R260). -/
theorem exec_eq_pushAll {i : Instr} (hw : i.wf = true) (hp : s.phase = .hdr0) : exec i s = pushAll (encode i) s := by
  rw [exec_eq_runFrame]
  cases hh : s.halted with
  | true => rw [runFrame_halted hh, pushAll_of_halted hh]
  | false =>
    rw [encode, pushAll_header hh hp (Frame.wf_len hw)]
    exact (headerComplete_pushAll_payload hw hh).symm

/-! ## What a step can do -/

/-- No host transaction but RESET changes a register or a buffer (20_memory.md R57, R66). -/
theorem serve_registers {op : HostOp} (hr : op ≠ .reset) (s : State) : SameRegisters s (serve op s) := by
  by_cases hd : op = .drain
  · subst hd
    show SameRegisters s (drain s)
    cases he : s.evt with
    | nil => rw [drain_nil he]; exact .refl s
    | cons e es => rw [drain_cons he]; exact answer_registers _ _ _
  · rcases serve_forms hr hd s with ⟨bs, h⟩ | ⟨r, h⟩ | ⟨c, h⟩ <;> rw [h]
    · exact present_registers _ _
    · exact answer_registers _ s.evt _
    · exact pins_registers _ _

/-- No host transaction makes EVT longer (20_memory.md R67; 70_reset_and_hazards.md R250). -/
theorem serve_evt_length_le (op : HostOp) (s : State) : (serve op s).evt.length ≤ s.evt.length := by
  by_cases hr : op = .reset
  · subst hr
    exact Nat.zero_le _
  by_cases hd : op = .drain
  · subst hd
    show (drain s).evt.length ≤ s.evt.length
    cases he : s.evt with
    | nil => rw [drain_nil he, he]
    | cons e es => rw [drain_cons he]; exact Nat.le_succ _
  · rcases serve_forms hr hd s with ⟨bs, h⟩ | ⟨r, h⟩ | ⟨c, h⟩ <;> rw [h] <;> exact Nat.le_refl _

/-- What a step that answers a next state can do: RESET, a change of the host's side and EVT's head only, or bytes of the
input port pushed one by one. -/
inductive StepCase (s t : State) : Prop where
  | reset (rest : List HostOp) (hs : s.host = .reset :: rest) (ht : t = applyReset (afterHost rest s))
  | idle (hr : SameRegisters s t) (he : t.evt.length ≤ s.evt.length)
  | decoder (bs rest : List Byte) (hp : portOpen s = true) (hb : pushAll bs (afterInput rest s) = .next t)
      (he : Effect (afterInput rest s) t)

theorem step_cases (h : step s = .next t) : StepCase s t := by
  cases step_form s with
  | host op rest hs hstep =>
    obtain rfl := Host.Outcome.next.inj (hstep.symm.trans h)
    by_cases hr : op = .reset
    · subst hr
      exact .reset rest hs rfl
    · exact .idle ((afterHost_registers rest s).trans (serve_registers hr _)) (serve_evt_length_le op _)
  | wait hstep =>
    obtain rfl := Host.Outcome.next.inj (hstep.symm.trans h)
    exact .idle (nextTurn_registers s) (Nat.le_refl _)
  | byte b rest _ hp hstep =>
    have hb := hstep.symm.trans h
    exact .decoder [b] rest hp (by rw [pushAll_cons, hb]; rfl) (pushByte_effect hb)
  | frame i rest hd hz hp hstep =>
    have hb := hstep.symm.trans h
    exact .decoder (encode i) rest hp (by rw [← exec_eq_pushAll (decode_wf hd) (by exact hz)]; exact hb) (exec_effect hb)

/-! ## What an effect of the decoder keeps -/

theorem Effect.config (h : Effect s t) : SameConfig s t := by
  cases h with
  | quiet h => exact h.config
  | reported h => exact h.config
  | raised h => exact h.config

theorem Effect.side (h : Effect s t) : SameHostSide s t := by
  cases h with
  | quiet h => exact h.side
  | reported h => exact h.side
  | raised h => exact h.side

theorem Effect.atMostOneMore (h : Effect s t) : AtMostOneMore s.evt t.evt := by
  cases h with
  | quiet h => exact ⟨[], by rw [h.evt, List.append_nil], Nat.zero_le _⟩
  | reported h =>
    obtain ⟨e, he⟩ := h.evt
    exact ⟨[e], he, Nat.le_refl _⟩
  | raised h =>
    obtain ⟨c, -, -, he⟩ := h.cause
    exact ⟨_, he, Nat.le_refl _⟩

/-- The error registers change with the halt only (60_exceptions.md R230). -/
theorem Effect.error (h : Effect s t) (hh : t.halted = s.halted) : SameError s t := by
  cases h with
  | quiet h => exact h.error
  | reported h => exact h.error
  | raised h => exact Bool.noConfusion (h.halted.symm.trans (hh.trans h.running))

/-- A decoder that halts has taken the error entry (60_exceptions.md R230). -/
theorem Effect.raised_of_halts (h : Effect s t) (hs : s.halted = false) (ht : t.halted = true) : Raised s t := by
  cases h with
  | quiet h => exact Bool.noConfusion (ht.symm.trans (h.error.halted.trans hs))
  | reported h => exact Bool.noConfusion (ht.symm.trans (h.error.halted.trans hs))
  | raised h => exact h

/-! ## The invariant -/

/-- The decoder's invariant reads registers, buffers and parameters only. -/
theorem State.DecoderInv.congr (h : s.DecoderInv) (k : SameRegisters s t) : t.DecoderInv := by
  have ht : t = { s with evt := t.evt, inp := t.inp, host := t.host, resp := t.resp, pins := t.pins, sched := t.sched } := by
    obtain ⟨⟨h1, h2, h3, h4⟩, ⟨p1, p2, p3, p4, p5, p6, p7, p8, p9, p10, p11, p12, p13, p14, p15⟩,
      ⟨m1, m2, m3, m4, m5, m6⟩, ⟨e1, e2, e3⟩, b1, b2⟩ := k
    cases s
    cases t
    simp_all only
  rw [ht]
  exact { h with }

/-- Every run of byte steps keeps the decoder's invariant (44_parser.md R161). -/
theorem State.DecoderInv.bytes {bs : List Byte} (h : s.DecoderInv) (hb : pushAll bs s = .next t) : t.DecoderInv := by
  induction bs generalizing s with
  | nil => exact Host.Outcome.next.inj hb ▸ h
  | cons b bs ih =>
    obtain ⟨u, hu, hrest⟩ := andThen_eq_next.1 hb
    obtain ⟨v, hv, hinv⟩ := h.byte b
    obtain rfl := Host.Outcome.next.inj (hv.symm.trans hu)
    exact ih hinv hrest

/-- RESET leaves a state that meets the invariant (10_state.md R41; 70_reset_and_hazards.md R250). -/
theorem applyReset_inv (s : State) : (applyReset s).Inv where
  toDecoderInv := BetweenPayloads.inv
    { running := rfl
      noError := rfl
      ext_need := .inl rfl
      ext_cnt := Nat.le_refl _
      key_cnt := Nat.zero_le _
      msg_opcode := nofun
      msg_len_zero := fun _ => rfl
      msg_limit := fun _ _ => Nat.zero_le _
      msg_buf := Mem.nil_good
      ctrl_buf := Mem.nil_good
      msg_filled := Mem.filled_zero }
    nofun nofun nofun fun _ => Nat.le_refl _
  evt_depth := fun _ _ => Nat.zero_le _

theorem portOpen_iff :
    portOpen s = true ↔ s.halted = true ∨ ∀ d, s.params.evtDepth = some d → s.evt.length < d := by
  unfold portOpen
  cases s.params.evtDepth <;> simp

/-- Bytes that an open port accepts, with at most one record for all of them, keep EVT within its depth (20_memory.md R68). -/
theorem Effect.evt_depth {bs : List Byte} (h : Effect s t) (hb : pushAll bs s = .next t)
    (hp : portOpen s = true) (hd : ∀ d, s.params.evtDepth = some d → s.evt.length ≤ d) :
    ∀ d, t.params.evtDepth = some d → t.evt.length ≤ d := by
  intro d hdt
  rw [h.config.params] at hdt
  rcases portOpen_iff.1 hp with hh | hroom
  · rw [pushAll_of_halted hh] at hb
    exact Host.Outcome.next.inj hb ▸ hd d hdt
  · obtain ⟨more, he, hmore⟩ := h.atMostOneMore
    have := hroom d hdt
    rw [he, List.length_append]
    omega

/-! ## The status registers -/

/-- A field placed above `v` lower bits (10_state.md R22, R35). -/
theorem toNat_append_eq_add {w v : Nat} (x : BitVec w) (y : BitVec v) : (x ++ y).toNat = x.toNat * 2 ^ v + y.toNat := by
  rw [BitVec.toNat_append, ← Nat.shiftLeft_add_eq_or_of_lt y.isLt, Nat.shiftLeft_eq]

theorem phase_code_toNat (p : Phase) : p.code.toNat = phaseNumber p := by cases p <;> rfl

theorem cr0_toNat (s : State) :
    (cr0 s).toNat = s.requireMasking.toNat + 2 * s.strictLen.toNat + 4 * s.txMasking.toNat := by
  simp only [cr0, toNat_append_eq_add, BitVec.toNat_ofBool, BitVec.toNat_ofNat]
  omega

theorem cr2_toNat (s : State) :
    (cr2 s).toNat = s.halted.toNat + 2 * s.msgOpen.toNat + 4 * phaseNumber s.phase + 32 * s.errCause.toNat +
      65536 * s.errCode.toNat := by
  simp only [cr2, toNat_append_eq_add, BitVec.toNat_ofBool, BitVec.toNat_ofNat, phase_code_toNat]
  omega

/-! ## What a frame leaves unchanged -/

/-- No opcode's rule at frame complete writes a buffer, KEY or HALTED (10_state.md R36). -/
theorem frameRule_keeps {op : BitVec 4} (h : frameRule op s = .next t) :
    t.msgBuf = s.msgBuf ∧ t.ctrlBuf = s.ctrlBuf ∧ t.key = s.key ∧ t.halted = s.halted := by
  rcases frameRule_cases h with ⟨e, rfl⟩ | ⟨o, r1, r2, r3, rfl⟩ | rfl | ⟨e, rfl⟩ <;> exact ⟨rfl, rfl, rfl, rfl⟩

/-- The rule of a control frame appends one record and does nothing else (44_parser.md R180 to R183). -/
theorem frameRule_control {op : BitVec 4} (hop : isControl op = true) (h : frameRule op s = .next t) :
    ∃ e, t = emit e s := by
  have classes : ∀ op : BitVec 4, isControl op = true → op = 8 ∨ op = 9 ∨ op = 10 := by decide
  rcases classes op hop with rfl | rfl | rfl
  · obtain ⟨c, r, e⟩ := closeComplete_cases h
    exact ⟨_, e⟩
  · obtain ⟨p, e⟩ := pingComplete_cases h
    exact ⟨_, e⟩
  · obtain ⟨p, e⟩ := pongComplete_cases h
    exact ⟨_, e⟩

/-- A frame without a key leaves KEY alone (10_state.md R27). -/
theorem loadHeader_key_of_none (op : BitVec 4) {f : Frame} (h : f.key = none) : (loadHeader op f s).key = s.key := by
  rw [loadHeader_key, h]
  rfl

/-- What a data or continuation frame leaves unchanged in the buffers, the open message and KEY (43_reassembler.md R142). -/
theorem exec_message_frame {i : Instr} (hw : i.wf = true) (hop : isControl i.opcode = false)
    (h : exec i s = .next t) :
    t.ctrlBuf = s.ctrlBuf ∧
    (∀ a, a < s.msgLen ∨ s.msgLen + i.frame.payload.length ≤ a → t.msgBuf.read a = s.msgBuf.read a) ∧
    (t.halted = true → t.msgBuf = s.msgBuf ∧ SameMessage s t) ∧ (i.frame.key = none → t.key = s.key) := by
  rw [exec_eq_runFrame] at h
  rcases runFrame_message_cases hw hop h with ⟨-, rfl⟩ | ⟨-, c, -, rfl⟩ | ⟨hrun, -, u, hu, rfl⟩
  · exact ⟨rfl, fun _ _ => rfl, fun _ => ⟨rfl, .refl _⟩, fun _ => rfl⟩
  · exact ⟨rfl, fun _ _ => rfl, fun _ => ⟨rfl, rfl, rfl, rfl, rfl, rfl, rfl⟩, loadHeader_key_of_none i.opcode⟩
  · obtain ⟨hmsg, hctrl, hkey, hhalt⟩ := frameRule_keeps hu
    refine ⟨hctrl, fun a ha => ?_, fun ht => ?_, fun hk => hkey.trans (loadHeader_key_of_none i.opcode hk)⟩
    · rw [setPhase_msgBuf, hmsg]
      exact Mem.read_writeRun_outside (by rwa [appPayload_length])
    · exact Bool.noConfusion (hrun.symm.trans (hhalt.symm.trans ht))

/-- What a control frame leaves unchanged in the buffers, the open message and KEY (43_reassembler.md R140; 44_parser.md R177). -/
theorem exec_control_frame {i : Instr} (hw : i.wf = true) (hop : isControl i.opcode = true)
    (h : exec i s = .next t) :
    SameMessage s t ∧ t.msgBuf = s.msgBuf ∧
    (∀ a, i.frame.payload.length ≤ a → t.ctrlBuf.read a = s.ctrlBuf.read a) ∧
    (t.halted = true → t.ctrlBuf = s.ctrlBuf) ∧ (i.frame.key = none → t.key = s.key) := by
  rw [exec_eq_runFrame] at h
  rcases runFrame_control_cases hw hop h with ⟨-, rfl⟩ | ⟨-, c, -, rfl⟩ | ⟨hrun, -, u, hu, rfl⟩
  · exact ⟨.refl _, rfl, fun _ _ => rfl, fun _ => rfl, fun _ => rfl⟩
  · exact ⟨⟨rfl, rfl, rfl, rfl, rfl, rfl⟩, rfl, fun _ _ => rfl, fun _ => rfl, loadHeader_key_of_none i.opcode⟩
  · obtain ⟨e, rfl⟩ := frameRule_control hop hu
    refine ⟨⟨rfl, rfl, rfl, rfl, rfl, rfl⟩, rfl, fun a ha => ?_, fun ht => ?_, loadHeader_key_of_none i.opcode⟩
    · exact Mem.read_writeRun_outside (.inr (by rwa [appPayload_length, Nat.zero_add]))
    · exact Bool.noConfusion (hrun.symm.trans ht)

end Sys2Proof.Machine

namespace Sys2Proof.Proofs

open Sys2Proof.Machine Sys2Proof.Claim

/-- Settles O21: RESET establishes the invariant, host transactions and waiting touch no register, and whatever the decoder takes
is a run of byte steps, each of which keeps the decoder's invariant; the open port leaves room for the one record. -/
theorem everyStepKeepsTheInvariant : Obligations.EveryStepKeepsTheInvariant := by
  intro s t hinv h
  cases step_cases h with
  | reset rest _ ht => exact ht ▸ applyReset_inv _
  | idle hr he =>
    refine ⟨hinv.toDecoderInv.congr hr, fun d hd => ?_⟩
    exact Nat.le_trans he (hinv.evt_depth d (hr.config.params ▸ hd))
  | decoder bs rest hp hb he =>
    have hdec := hinv.toDecoderInv.congr (afterInput_registers rest s)
    exact ⟨hdec.bytes hb, he.evt_depth hb hp hinv.evt_depth⟩

/-- Settles O18, by the cases of a step: only RESET writes the configuration, and it writes the input levels. -/
theorem configurationChangesOnlyAtReset : Obligations.ConfigurationChangesOnlyAtReset := by
  refine ⟨fun s t h hne => ?_, fun s c => pins_registers c s, fun _ => ⟨rfl, rfl, rfl⟩⟩
  cases step_cases h with
  | reset rest hs _ => exact absurd (by rw [hs]; rfl) hne
  | idle hr _ => exact hr.config
  | decoder bs rest _ _ he => exact (afterInput_registers rest s).config.trans he.config

/-- Settles O19, by the cases of a step: RESET and the host leave HALTED at 0, and of the decoder's effects only the error
entry sets it. -/
theorem onlyTheErrorEntryHalts : Obligations.OnlyTheErrorEntryHalts := by
  intro s t h hs ht
  cases step_cases h with
  | reset rest _ e =>
    rw [e] at ht
    cases ht
  | idle hr _ => exact Bool.noConfusion (hs.symm.trans (hr.error.halted.symm.trans ht))
  | decoder bs rest _ _ he =>
    have hraised := he.raised_of_halts hs ht
    obtain ⟨c, hcause, hcode, hevt⟩ := hraised.cause
    exact ⟨c, hcause, hcode, hraised.phase, hevt⟩

/-- Settles O45: what every frame keeps, and what a data or continuation frame keeps of the buffers and the message. -/
theorem dataFramesChangeOnlyTheirOwn : Obligations.DataFramesChangeOnlyTheirOwn := by
  intro f s t hw i hi h
  have hframe : i.frame = f ∧ isControl i.opcode = false := by
    simp only [dataFrames, List.mem_cons, List.not_mem_nil, or_false] at hi
    rcases hi with rfl | rfl | rfl <;> exact ⟨rfl, rfl⟩
  obtain ⟨rfl, hop⟩ := hframe
  have he := exec_effect h
  obtain ⟨hctrl, hread, hhalt, hkey⟩ := exec_message_frame hw hop h
  exact ⟨he.config, he.side, hctrl, he.atMostOneMore, hread, hhalt, he.error, hkey⟩

/-- Settles O46: what every frame keeps, and what a control frame keeps of the buffers and the message. -/
theorem controlFramesChangeOnlyTheirOwn : Obligations.ControlFramesChangeOnlyTheirOwn := by
  intro f s t hw i hi h
  have hframe : i.frame = f ∧ isControl i.opcode = true := by
    simp only [controlFrames, List.mem_cons, List.not_mem_nil, or_false] at hi
    rcases hi with rfl | rfl | rfl <;> exact ⟨rfl, rfl⟩
  obtain ⟨rfl, hop⟩ := hframe
  have he := exec_effect h
  obtain ⟨hmsg, hbuf, hread, hhalt, hkey⟩ := exec_control_frame hw hop h
  exact ⟨he.config, he.side, hmsg, hbuf, he.atMostOneMore, hread, hhalt, he.error, hkey⟩

/-- Settles O20: the state after reset is what RESET leaves of itself. -/
theorem resetMeetsTheInvariant : Obligations.ResetMeetsTheInvariant :=
  ⟨applyReset_inv State.reset, applyReset_inv⟩

/-- Settles O59, from the values of CR0 and CR2 as sums of their fields. -/
theorem statusReadsShowTheirFields : Obligations.StatusReadsShowTheirFields := by
  intro s
  refine ⟨⟨cr0 s, rfl, cr0_toNat s⟩, rfl, ⟨cr2 s, rfl, cr2_toNat s⟩, fun n hn => ?_⟩
  obtain ⟨m, rfl⟩ := Nat.exists_eq_add_of_le' hn
  rfl

end Sys2Proof.Proofs

/-! SUPPORT. The statements of the memory family (20_memory.md): what a step can do to EVT, and the host's turn. -/

namespace Sys2Proof.Machine

open Sys2Proof.Claim

variable {s t : State} {op : HostOp}

/-! ## The host's transactions and EVT -/

/-- No host transaction but RESET and DRAIN changes EVT (20_memory.md R66, R67). -/
theorem serve_evt (hr : op ≠ .reset) (hd : op ≠ .drain) (s : State) : (serve op s).evt = s.evt := by
  rcases serve_forms hr hd s with ⟨bs, h⟩ | ⟨r, h⟩ | ⟨c, h⟩ <;> rw [h]
  · exact present_evt s bs
  · exact answer_evt s r

/-- A host transaction other than RESET leaves EVT alone, or drains its head record (20_memory.md R67; 44_parser.md R191). -/
theorem serve_evt_cases (hr : op ≠ .reset) (s : State) :
    (serve op s).evt = s.evt ∨
      ∃ e, s.evt = e :: (serve op s).evt ∧ (serve op s).resp = s.resp ++ [.drained e] := by
  by_cases hd : op = .drain
  · subst hd
    rw [show serve .drain s = drain s from rfl]
    cases he : s.evt with
    | nil => exact .inl (by rw [drain_nil he, he])
    | cons e es => exact .inr ⟨e, by rw [drain_cons he]; rfl, by rw [drain_cons he]; rfl⟩
  · exact .inl (serve_evt hr hd s)

theorem atMostOneMore_of_eq {old new : List Event} (h : new = old) : AtMostOneMore old new :=
  ⟨[], by rw [h, List.append_nil], Nat.zero_le _⟩

/-! ## The host's turn -/

/-- Every transaction can be served at all times, a DRAIN when EVT holds a record (44_parser.md R191; 60_exceptions.md R241). -/
theorem canServe_iff : canServe op s = true ↔ (op = .drain → s.evt ≠ []) := by
  cases op <;> simp [canServe]

/-- On its turn the host has its oldest transaction served, a DRAIN when EVT holds a record (log entry 3). -/
theorem step_hostTurn {rest : List HostOp} (ht : turnOf s = .host) (hs : s.host = op :: rest)
    (hc : op = .drain → s.evt ≠ []) : step s = .next (serve op (afterHost rest s)) := by
  have hn : (nextTurn s).host = op :: rest := hs
  have hready : hostReady (nextTurn s) = true := by
    rw [hostReady, hn]
    exact canServe_iff.2 hc
  rw [step, if_pos ht, if_pos hready, serveHost, hn]
  rfl

end Sys2Proof.Machine

namespace Sys2Proof.Proofs

open Sys2Proof.Machine Sys2Proof.Claim

/-- Settles O17, by the forms of a step: the host's transactions other than RESET leave EVT alone or drain its head, waiting
leaves it alone, and a byte or a frame appends at most one record. -/
theorem stepAppendsAtMostOneRecord : Obligations.StepAppendsAtMostOneRecord := by
  intro s t h hne
  cases step_form s with
  | host op rest hs hstep =>
    obtain rfl := Host.Outcome.next.inj (hstep.symm.trans h)
    have hr : op ≠ .reset := fun e => hne (by rw [hs, e]; rfl)
    exact (serve_evt_cases hr (afterHost rest s)).imp_left atMostOneMore_of_eq
  | wait hstep =>
    obtain rfl := Host.Outcome.next.inj (hstep.symm.trans h)
    exact .inl (atMostOneMore_of_eq (nextTurn_evt s))
  | byte b rest _ _ hstep => exact .inl (pushByte_effect (hstep.symm.trans h)).atMostOneMore
  | frame i rest _ _ _ hstep => exact .inl (exec_effect (hstep.symm.trans h)).atMostOneMore

/-- Settles O57: the registers and EVT by what each transaction can do, the four effects by the definition of `serve`, and the
turn by `step_hostTurn`. -/
theorem hostTransactionsLeaveTheRegisters : Obligations.HostTransactionsLeaveTheRegisters := by
  exact ⟨fun op s hr => ⟨serve_registers hr s, fun hd => serve_evt hr hd s⟩, fun _ _ => rfl, fun _ _ => rfl,
    fun _ _ => rfl, fun _ _ => rfl, fun s op rest ht hs hc => step_hostTurn ht hs hc⟩

end Sys2Proof.Proofs

/-! SUPPORT. The statements of the encoding family (30_encoding.md): what the decoder accepts are exactly the encodings of the
well-formed instructions, and the sizes and numbers that a frame's header announces. -/

namespace Sys2Proof

open Sys2Proof.Machine Sys2Proof.Claim

/-! ## Decoder and encoder are inverse -/

/-- The bytes of a frame, field after field, with the bytes after it (30_encoding.md R70). -/
theorem encode_append (i : Instr) (rest : List Byte) :
    encode i ++ rest =
      byte0 i.frame.fin i.frame.rsv1 i.frame.rsv2 i.frame.rsv3 i.opcode ::
        byte1 i.frame.key.isSome i.frame.len.len7 ::
          (i.frame.len.bytes ++ (keyBytes i.frame.key ++ (i.frame.payload ++ rest))) := by
  simp [encode, header]

/-- Every field of a well-formed frame is read back from where the encoder writes it (30_encoding.md R70 to R78). -/
theorem decode_encode_append {i : Instr} (h : i.wf = true) (rest : List Byte) :
    decode (encode i ++ rest) = .ok (i, rest) := by
  have hrow : instrOf i.opcode i.frame = i := Laws.OpcodeMap.of_any i
  rw [encode_append, decode]
  simp only [len7Of_byte1, maskOf_byte1, takeLen_bytes (Frame.wf_len h), takeKey_bytes, ← Frame.wf_length h,
    takePayload_append, finOf_byte0, rsv1Of_byte0, rsv2Of_byte0, rsv3Of_byte0, opcodeOf_byte0, hrow]

/-- The decoder drops no bit: what it read is the encoding of what it answers (30_encoding.md R70, R83). -/
theorem encode_of_decode {bs rest : List Byte} {i : Instr} (h : decode bs = .ok (i, rest)) : encode i ++ rest = bs := by
  unfold decode at h
  split at h
  · cases h
  · cases h
  next b0 b1 afterFixed =>
    split at h
    · cases h
    next hlen =>
      split at h
      · cases h
      next hkey =>
        split at h
        · cases h
        next hpay =>
          obtain ⟨rfl, rfl⟩ := Prod.mk.inj (Except.ok.inj h)
          obtain ⟨-, hlen7, hbytes⟩ := takeLen_some hlen
          obtain ⟨hmask, hkeyBytes⟩ := takeKey_some hkey
          obtain ⟨-, hpayload⟩ := takePayload_some hpay
          simp only [encode_append, instrOf_frame, instrOf_opcode, hlen7, hmask, byte0_fields, byte1_fields, hbytes,
            hkeyBytes, hpayload]

/-- The decoder accepts the encodings of the well-formed instructions and nothing else. -/
theorem decode_eq_ok_iff {bs rest : List Byte} {i : Instr} :
    decode bs = .ok (i, rest) ↔ i.wf = true ∧ encode i ++ rest = bs :=
  ⟨fun h => ⟨decode_wf h, encode_of_decode h⟩, fun ⟨hw, hb⟩ => hb ▸ decode_encode_append hw rest⟩

/-- Bytes that follow a whole frame do not change what is read: they are left over (30_encoding.md R70). -/
theorem decode_append {bs rest : List Byte} {i : Instr} (h : decode bs = .ok (i, rest)) (more : List Byte) :
    decode (bs ++ more) = .ok (i, rest ++ more) := by
  obtain ⟨hw, rfl⟩ := decode_eq_ok_iff.1 h
  exact decode_eq_ok_iff.2 ⟨hw, (List.append_assoc _ _ _).symm⟩

/-! ## Sizes -/

/-- `ext(LEN7)`: how many extended length bytes follow byte 1 (30_encoding.md R84). -/
theorem LenField.bytes_length {l : LenField} (h : l.wf = true) :
    l.bytes.length = if l.len7.toNat ≤ 125 then 0 else if l.len7.toNat = 126 then 2 else 8 := by
  cases l with
  | direct n => exact (if_pos (of_decide_eq_true h)).symm
  | ext16 n => rfl
  | ext64 n => rfl

/-- The key takes four bytes when the `MASK` bit is 1 (30_encoding.md R76). -/
theorem keyBytes_length (k : Option Key) : (keyBytes k).length = 4 * k.isSome.toNat := by
  cases k <;> rfl

theorem header_length (op : BitVec 4) (f : Frame) :
    (header op f).length = 2 + f.len.bytes.length + 4 * f.key.isSome.toNat := by
  simp only [header, List.length_cons, List.length_append, keyBytes_length]
  omega

/-- `LEN7` is the low seven bits of byte 1 (30_encoding.md R72). -/
theorem byte1_toNat_mod : ∀ (m : Bool) (l : BitVec 7), (byte1 m l).toNat % 128 = l.toNat := by decide

/-- `BE_8` as the sum of its bytes' powers (00_scope.md R8). -/
theorem be8_toNat_powers (a b c d e f g h : Byte) :
    (be8 a b c d e f g h).toNat =
      a.toNat * 256 ^ 7 + b.toNat * 256 ^ 6 + c.toNat * 256 ^ 5 + d.toNat * 256 ^ 4 + e.toNat * 256 ^ 3 +
        f.toNat * 256 ^ 2 + g.toNat * 256 + h.toNat := by
  rw [be8_toNat]
  ring

/-- The length a field announces, from `LEN7` and the bytes that begin with its own (30_encoding.md R74). -/
theorem LenField.count_eq {l : LenField} (h : l.wf = true) (rest : List Byte) :
    let at' := fun k => ((l.bytes ++ rest).getD k 0).toNat
    (l.len7.toNat ≤ 125 → l.count = l.len7.toNat) ∧
    (l.len7.toNat = 126 → l.count = at' 0 * 256 + at' 1) ∧
    (l.len7.toNat = 127 → l.count =
      at' 0 * 256 ^ 7 + at' 1 * 256 ^ 6 + at' 2 * 256 ^ 5 + at' 3 * 256 ^ 4 + at' 4 * 256 ^ 3 + at' 5 * 256 ^ 2 +
        at' 6 * 256 + at' 7) := by
  cases l with
  | direct n =>
    have hn : n.toNat ≤ 125 := of_decide_eq_true h
    exact ⟨fun _ => rfl, fun h6 : n.toNat = 126 => by omega, fun h7 : n.toNat = 127 => by omega⟩
  | ext16 n =>
    have hn := be2_toNat (n.extractLsb' 8 8) (n.extractLsb' 0 8)
    rw [be2_of_bytes2] at hn
    exact ⟨fun h5 => absurd h5 (by simp [LenField.len7]), fun _ => hn, fun h7 => absurd h7 (by simp [LenField.len7])⟩
  | ext64 n =>
    have hn := be8_toNat_powers (n.extractLsb' 56 8) (n.extractLsb' 48 8) (n.extractLsb' 40 8) (n.extractLsb' 32 8)
      (n.extractLsb' 24 8) (n.extractLsb' 16 8) (n.extractLsb' 8 8) (n.extractLsb' 0 8)
    rw [be8_of_bytes8] at hn
    exact ⟨fun h5 => absurd h5 (by simp [LenField.len7]), fun h6 => absurd h6 (by simp [LenField.len7]), fun _ => hn⟩

/-! ## Words of the opcode table -/

/-- The length field of `LEN7` when its extended length bytes are zero (30_encoding.md R73; log entry 15). -/
def zeroLen (l7 : BitVec 7) : LenField :=
  if l7 = 126#7 then .ext16 0 else if l7 = 127#7 then .ext64 0 else .direct l7

/-- The frame of header bytes `b0` and `b1` when all its operand bytes are zero (log entry 15). -/
def zeroFrame (b0 b1 : Byte) : Frame where
  fin := finOf b0
  rsv1 := rsv1Of b0
  rsv2 := rsv2Of b0
  rsv3 := rsv3Of b0
  len := zeroLen (len7Of b1)
  key := if maskOf b1 then some ⟨0, 0, 0, 0⟩ else none
  payload := List.replicate (zeroLen (len7Of b1)).count 0

theorem zeroLen_wf : ∀ l7 : BitVec 7, (zeroLen l7).wf = true := by decide

theorem zeroLen_len7 : ∀ l7 : BitVec 7, (zeroLen l7).len7 = l7 := by decide

/-- The extended length bytes of a table word are zeros. -/
theorem zeroLen_bytes :
    ∀ l7 : BitVec 7, (zeroLen l7).bytes = List.replicate (zeroLen l7).bytes.length 0 := by decide

/-- The extended length of a table word, or the payload of its direct length, as `zeroOperands` counts them. -/
theorem zeroLen_sizes :
    ∀ l7 : BitVec 7, (zeroLen l7).bytes.length + (zeroLen l7).count =
      if l7 = 126#7 then 2 else if l7 = 127#7 then 8 else l7.toNat := by decide

theorem zeroFrame_wf (b0 b1 : Byte) : (zeroFrame b0 b1).wf = true := by
  simp [Frame.wf, zeroFrame, zeroLen_wf]

theorem zeroFrame_len7 (b0 b1 : Byte) : (zeroFrame b0 b1).len.len7 = len7Of b1 := zeroLen_len7 _

theorem zeroFrame_key_isSome (b0 b1 : Byte) : (zeroFrame b0 b1).key.isSome = maskOf b1 := by
  cases h : maskOf b1 <;> simp [zeroFrame, h]

theorem zeroFrame_keyBytes (b0 b1 : Byte) :
    keyBytes (zeroFrame b0 b1).key = List.replicate (if maskOf b1 then 4 else 0) 0 := by
  cases h : maskOf b1 <;> simp [zeroFrame, h, keyBytes, Key.bytes, List.replicate]

/-- The extended length, key and payload of a table word's frame are the word's zero operand bytes. -/
theorem zeroFrame_operands (b0 b1 : Byte) :
    (zeroFrame b0 b1).len.bytes ++ (keyBytes (zeroFrame b0 b1).key ++ (zeroFrame b0 b1).payload) =
      List.replicate (zeroOperands b1) 0 := by
  have hlen : (zeroFrame b0 b1).len = zeroLen (len7Of b1) := rfl
  have hpayload : (zeroFrame b0 b1).payload = List.replicate (zeroLen (len7Of b1)).count 0 := rfl
  rw [hlen, zeroLen_bytes, zeroFrame_keyBytes, hpayload, List.replicate_append_replicate,
    List.replicate_append_replicate, zeroOperands, ← zeroLen_sizes]
  congr 1
  omega

/-- A table word with its zero operand bytes is the encoding of its frame (30_encoding.md R78; log entry 15). -/
theorem encode_zeroFrame (b0 b1 : Byte) :
    encode (instrOf (opcodeOf b0) (zeroFrame b0 b1)) = b0 :: b1 :: List.replicate (zeroOperands b1) 0 := by
  have hb0 : byte0 (zeroFrame b0 b1).fin (zeroFrame b0 b1).rsv1 (zeroFrame b0 b1).rsv2 (zeroFrame b0 b1).rsv3
      (opcodeOf b0) = b0 := byte0_fields b0
  have hb1 : byte1 (zeroFrame b0 b1).key.isSome (zeroFrame b0 b1).len.len7 = b1 := by
    rw [zeroFrame_key_isSome, zeroFrame_len7, byte1_fields]
  rw [← List.append_nil (encode _), encode_append, List.append_nil, instrOf_frame, instrOf_opcode, hb0, hb1,
    zeroFrame_operands]

/-- Any two header bytes followed by their zero operand bytes decode to a frame, with no byte left over. -/
theorem decode_zeroOperands (b0 b1 : Byte) :
    decode (b0 :: b1 :: List.replicate (zeroOperands b1) 0) = .ok (instrOf (opcodeOf b0) (zeroFrame b0 b1), []) := by
  refine decode_eq_ok_iff.2 ⟨?_, by rw [List.append_nil, encode_zeroFrame]⟩
  rw [Instr.wf, instrOf_frame, zeroFrame_wf]

/-- The high byte of a table word is byte 0 of its frame, the low byte is byte 1 (30_encoding.md R78). -/
theorem tableBytes_word {w : Nat} (hw : w < 2 ^ 16) :
    tableBytes 16 w = BitVec.ofNat 8 (w / 256) :: BitVec.ofNat 8 w ::
      List.replicate (zeroOperands (BitVec.ofNat 8 w)) 0 := by
  rw [tableBytes, Nat.mod_eq_of_lt hw]
  simp [wordBytes, List.range_succ, Nat.shiftRight_eq_div_pow]

theorem decodeTableWord_eq {w : Nat} (hw : w < 2 ^ 16) :
    decodeTableWord 16 w = some (instrOf (opcodeOf (BitVec.ofNat 8 (w / 256)))
      (zeroFrame (BitVec.ofNat 8 (w / 256)) (BitVec.ofNat 8 w))) := by
  rw [decodeTableWord, tableBytes_word hw, decode_zeroOperands]

/-- The rows of the table by number are the rows that the opcode bits select (30_encoding.md R78). -/
theorem rowOf_toNat (op : BitVec 4) (f : Frame) : rowOf op.toNat f = instrOf op f := by
  obtain ⟨op⟩ := op
  fin_cases op <;> rfl

end Sys2Proof

namespace Sys2Proof.Machine

/-! ## The RSV bits -/

/-- No check reads the RSV registers (30_encoding.md R81). -/
theorem checkFails_rsv (c : Cause) (s : State) (r1 r2 r3 : Bool) :
    checkFails c { s with hRsv1 := r1, hRsv2 := r2, hRsv3 := r3 } = checkFails c s := by
  cases c <;> rfl

end Sys2Proof.Machine

namespace Sys2Proof.Proofs

open Sys2Proof.Machine Sys2Proof.Claim

/-- Settles O1: `decode_encode_append`. -/
theorem decodeOfEncodeIsTheInstruction : Obligations.DecodeOfEncodeIsTheInstruction :=
  fun _ rest h => decode_encode_append h rest

/-- Settles O2: one direction of `decode_eq_ok_iff`. -/
theorem encodeOfDecodeIsTheBytes : Obligations.EncodeOfDecodeIsTheBytes :=
  fun _ _ _ => decode_eq_ok_iff.1

/-- Settles O3: a frame read from the front part would be read from the whole encoding too, with `back` left over, but from
the whole encoding the decoder leaves nothing. -/
theorem beginningOfAFrameNeedsMoreData : Obligations.BeginningOfAFrameNeedsMoreData := by
  intro i front back hw hsplit hne
  cases hd : decode front with
  | error e => exact ⟨e, rfl⟩
  | ok p =>
    obtain ⟨j, rest⟩ := p
    have hfront : decode (encode i) = .ok (j, rest ++ back) := hsplit ▸ decode_append hd back
    have hwhole : decode (encode i) = .ok (i, []) := decode_eq_ok_iff.2 ⟨hw, List.append_nil _⟩
    have hleft : rest ++ back = [] := (Prod.mk.inj (Except.ok.inj (hfront.symm.trans hwhole))).2
    exact absurd (List.append_eq_nil_iff.1 hleft).2 hne

/-- Settles O4: `decodeTableWord_eq`, each header field being the bits of the word that byte 0 or byte 1 holds. -/
theorem tableWordSelectsRowAndFields : Obligations.TableWordSelectsRowAndFields := by
  intro w hw
  have hrow : w / 256 % 16 = (opcodeOf (BitVec.ofNat 8 (w / 256))).toNat := by simp [opcodeOf]
  have hbit : ∀ n, ∀ k < 8, (BitVec.ofNat 8 n).getLsbD k = n.testBit k := by
    intro n k hk
    simp only [BitVec.getLsbD_ofNat, hk, decide_true, Bool.true_and]
  have hhigh : ∀ k < 8, (BitVec.ofNat 8 (w / 256)).getLsbD k = w.testBit (k + 8) := by
    intro k hk
    rw [hbit _ k hk, show 256 = 2 ^ 8 from rfl, Nat.testBit_div_two_pow]
  refine ⟨zeroFrame (BitVec.ofNat 8 (w / 256)) (BitVec.ofNat 8 w), ?_, hhigh 7 (by decide), hhigh 6 (by decide),
    hhigh 5 (by decide), hhigh 4 (by decide), ?_, ?_⟩
  · rw [hrow, rowOf_toNat, decodeTableWord_eq hw]
  · rw [zeroFrame_key_isSome, maskOf, hbit w 7 (by decide)]
  · simp [zeroFrame_len7, len7Of]

/-- Settles O6: the bytes read are the encoding of the instruction, and its length field announces the payload. -/
theorem payloadLengthIsAssembledBigEndian : Obligations.PayloadLengthIsAssembledBigEndian := by
  intro bs rest i h
  obtain ⟨hw, rfl⟩ := decode_eq_ok_iff.1 h
  have hcount := LenField.count_eq (Frame.wf_len hw) (keyBytes i.frame.key ++ (i.frame.payload ++ rest))
  simp only [encode_append, List.getD_cons_succ, List.getD_cons_zero, byte1_toNat_mod, LenField.plen_toNat]
  exact ⟨Frame.wf_length hw, hcount⟩

/-- Settles O7: `header_length`, with the extended length bytes that `LEN7` selects. -/
theorem frameLengthIsHeaderPlusPayload : Obligations.FrameLengthIsHeaderPlusPayload := by
  intro i hw
  refine ⟨?_, ?_⟩
  · rw [header_length, LenField.bytes_length (Frame.wf_len hw)]
  · rw [encode, List.length_append, Frame.wf_length hw, LenField.plen_toNat]

/-- Settles O5: the decoder run on each byte string. -/
theorem writtenOutFramesDecode : Obligations.WrittenOutFramesDecode := by
  unfold Obligations.WrittenOutFramesDecode
  decide

/-- Settles O28: each check of the order answers the same, so the first failing one is the same. -/
theorem rsvBitsAreNeverAnError : Obligations.RsvBitsAreNeverAnError := by
  intro s r1 r2 r3
  simp only [validate, checkFails_rsv]

end Sys2Proof.Proofs

/-! SUPPORT. The statements of the mask engine family (41_mask_engine.md): the transform byte by byte, its inverse and where
its key index starts after a split. -/

namespace Sys2Proof

/-- The key register read at index `i` is entry `i mod 4` of the key's bytes in wire order (41_mask_engine.md R100). -/
theorem Key.at_eq_getD (k : Key) (i : Nat) : k.at i = [k.k0, k.k1, k.k2, k.k3].getD (i % 4) 0 := by
  have hlt : i % 4 < 4 := Nat.mod_lt i (by decide)
  unfold Key.at
  generalize i % 4 = r at hlt ⊢
  match r, hlt with
  | 0, _ | 1, _ | 2, _ | 3, _ => rfl

/-- Only the index modulo 4 selects the key register. -/
theorem Key.at_mod (k : Key) (i : Nat) : k.at (i % 4) = k.at i := by
  rw [Key.at_eq_getD, Key.at_eq_getD, Nat.mod_mod]

end Sys2Proof

namespace Sys2Proof.Machine

/-- Byte `j` of the payload meets the key byte at index `i + j` (41_mask_engine.md R100, R105). -/
theorem maskFrom_eq_mapIdx (k : Key) (i : Nat) (bs : List Byte) :
    maskFrom k i bs = bs.mapIdx fun j b => b ^^^ k.at (i + j) := by
  induction bs generalizing i with
  | nil => rfl
  | cons b bs ih =>
    have hindex (j : Nat) : i + 1 + j = i + (j + 1) := by omega
    simp only [maskFrom_cons, ih, List.mapIdx_cons, Nat.add_zero, hindex]

/-- The second part of a split goes on from the key index that the first part reached (41_mask_engine.md R105). -/
theorem maskFrom_append (k : Key) (i : Nat) (a b : List Byte) :
    maskFrom k i (a ++ b) = maskFrom k i a ++ maskFrom k (i + a.length) b := by
  have hindex (j : Nat) : i + (j + a.length) = i + a.length + j := by omega
  simp only [maskFrom_eq_mapIdx, List.mapIdx_append, hindex]

/-- The transform from any index is undone by the transform from the same index: each byte meets its key byte twice. -/
theorem maskFrom_maskFrom (k : Key) (i : Nat) (bs : List Byte) : maskFrom k i (maskFrom k i bs) = bs := by
  induction bs generalizing i with
  | nil => rfl
  | cons b bs ih => rw [maskFrom_cons, maskFrom_cons, ih, BitVec.xor_assoc, BitVec.xor_self, BitVec.xor_zero]

/-- The starting index counts modulo 4 only. -/
theorem maskFrom_mod (k : Key) (i : Nat) (bs : List Byte) : maskFrom k (i % 4) bs = maskFrom k i bs := by
  have hat (j : Nat) : k.at (i % 4 + j) = k.at (i + j) := by
    rw [← Key.at_mod, Nat.mod_add_mod, Key.at_mod]
  simp only [maskFrom_eq_mapIdx, hat]

end Sys2Proof.Machine

namespace Sys2Proof.Proofs

open Sys2Proof.Machine

/-- Settles O49: `maskFrom_eq_mapIdx` from index 0, with the key byte as `Key.at_eq_getD` lists it. -/
theorem maskApplyIsBytewiseXor : Obligations.MaskApplyIsBytewiseXor := by
  intro p k
  refine ⟨maskFrom_length k 0 p, fun i hi => ?_⟩
  have hout : (maskApply p k)[i]? = some (p[i] ^^^ k.at i) := by
    simp [maskApply, maskFrom_eq_mapIdx, hi]
  rw [← Key.at_eq_getD, List.getD_eq_getElem?_getD, hout, List.getD_eq_getElem _ _ hi, Option.getD_some]

/-- Settles O50: `maskFrom_maskFrom` from index 0. -/
theorem maskApplyIsSelfInverse : Obligations.MaskApplyIsSelfInverse :=
  fun p k => maskFrom_maskFrom k 0 p

/-- Settles O51: the second part starts at index `|a|` (`maskFrom_append`), which counts modulo 4 (`maskFrom_mod`); a
multiple of 4 is index 0. -/
theorem maskApplySplits : Obligations.MaskApplySplits := by
  intro a b k
  have hsplit : maskApply (a ++ b) k = maskApply a k ++ maskFrom k (a.length % 4) b := by
    rw [maskApply, maskFrom_append, Nat.zero_add, maskFrom_mod, maskApply]
  refine ⟨fun haligned => ?_, hsplit⟩
  rw [hsplit, haligned, maskApply, maskApply]

end Sys2Proof.Proofs

/-! SUPPORT. The statements of the header decoder family (42_header_decoder.md): what header complete can do, the byte steps in
each phase, and the check that stops a frame, by the frame's own fields. -/

namespace Sys2Proof

open Sys2Proof.Claim

/-! ## Fields of the fixed bytes as numbers -/

/-- `OPCODE` is the low four bits of byte 0 (30_encoding.md R71). -/
theorem opcodeOf_eq_ofNat (b : Byte) : opcodeOf b = BitVec.ofNat 4 (b.toNat % 16) := by
  apply BitVec.eq_of_toNat_eq
  simp [opcodeOf, BitVec.extractLsb'_toNat]

/-- `LEN7` is the low seven bits of byte 1 (30_encoding.md R72). -/
theorem len7Of_toNat (b : Byte) : (len7Of b).toNat = b.toNat % 128 := by
  simp [len7Of, BitVec.extractLsb'_toNat]

/-! ## Length fields -/

/-- Only the extended forms can be longer than needed, and they are well-formed whatever they hold (30_encoding.md R72, R75). -/
theorem LenField.wf_of_not_shortestForm {l : LenField} (h : ¬ShortestForm l) : l.wf = true := by
  cases l with
  | direct n => exact absurd trivial h
  | ext16 n => rfl
  | ext64 n => rfl

/-- Check 7 reads R75 off the length field (42_header_decoder.md R126). -/
theorem minimalLength_iff {l : LenField} (h : l.wf = true) :
    Machine.minimalLength l.len7 l.plen = true ↔ ShortestForm l := by
  cases l with
  | direct n =>
    have hn : n.toNat ≤ 125 := of_decide_eq_true h
    simp [Machine.minimalLength, LenField.len7, ShortestForm, hn]
  | ext16 n => simp [Machine.minimalLength, LenField.len7, ShortestForm, LenField.count]
  | ext64 n => simp [Machine.minimalLength, LenField.len7, ShortestForm, LenField.count]

/-- `EXT_NEED` is how many extended length bytes there are (42_header_decoder.md R111). -/
theorem LenField.need_toNat (l : LenField) : l.need.toNat = l.bytes.length := by cases l <;> rfl

/-- `EXT` is 0 for a direct length and the length itself for an extended one (42_header_decoder.md R111, R112). -/
theorem LenField.ext_toNat {l : LenField} (h : l.wf = true) :
    l.ext.toNat = if l.len7.toNat ≤ 125 then 0 else l.count := by
  cases l with
  | direct n => exact (if_pos (of_decide_eq_true h)).symm
  | ext16 n => exact LenField.plen_toNat (.ext16 n)
  | ext64 n => rfl

/-- `KEY_CNT` is 4 after a key and 0 without one (42_header_decoder.md R111, R113). -/
theorem keyCnt_toNat (key : Option Key) : (if key.isSome then 4 else 0 : BitVec 3).toNat = 4 * key.isSome.toNat := by
  cases key <;> rfl

end Sys2Proof

namespace Sys2Proof.Machine

open Sys2Proof.Claim

variable {s t u : State} {op : BitVec 4} {f : Frame} {i : Instr} {c : Cause} {b : Byte}

/-! ## The header registers of two states -/

/-- The state with another payload counter. -/
@[simps] def withPcnt (n : Length) (s : State) : State := { s with pcnt := n }

theorem SameHeader.trans (h : SameHeader s u) (k : SameHeader u t) : SameHeader s t where
  phase := k.phase.trans h.phase
  hFin := k.hFin.trans h.hFin
  hRsv1 := k.hRsv1.trans h.hRsv1
  hRsv2 := k.hRsv2.trans h.hRsv2
  hRsv3 := k.hRsv3.trans h.hRsv3
  hOpcode := k.hOpcode.trans h.hOpcode
  hMask := k.hMask.trans h.hMask
  hLen7 := k.hLen7.trans h.hLen7
  ext := k.ext.trans h.ext
  extNeed := k.extNeed.trans h.extNeed
  extCnt := k.extCnt.trans h.extCnt
  key := k.key.trans h.key
  keyCnt := k.keyCnt.trans h.keyCnt
  plen := k.plen.trans h.plen
  pcnt := k.pcnt.trans h.pcnt

theorem SameHeader.setPhase (h : SameHeader s t) (p : Phase) :
    SameHeader (Machine.setPhase p s) (Machine.setPhase p t) :=
  { h with phase := rfl }

theorem SameHeader.withPcnt (h : SameHeader s t) (n : Length) :
    SameHeader (Machine.withPcnt n s) (Machine.withPcnt n t) :=
  { h with pcnt := rfl }

/-- The error entry writes no header register but PHASE (60_exceptions.md R230). -/
theorem raiseError_header (c : Cause) (s : State) : SameHeader (setPhase .hdr0 s) (raiseError c s) :=
  ⟨rfl, rfl, rfl, rfl, rfl, rfl, rfl, rfl, rfl, rfl, rfl, rfl, rfl, rfl, rfl⟩

/-- No opcode's rule at frame complete writes a header register (10_state.md R36). -/
theorem frameRule_header (h : frameRule op s = .next t) : SameHeader s t := by
  rcases frameRule_cases h with ⟨e, rfl⟩ | ⟨o, r1, r2, r3, rfl⟩ | rfl | ⟨e, rfl⟩ <;>
    exact ⟨rfl, rfl, rfl, rfl, rfl, rfl, rfl, rfl, rfl, rfl, rfl, rfl, rfl, rfl, rfl⟩

/-- The end of a frame goes to HDR0, and keeps every other header register and HALTED (44_parser.md R172). -/
theorem finishFrame_header (h : finishFrame (frameRule op) s = .next t) :
    SameHeader (setPhase .hdr0 s) t ∧ t.halted = s.halted := by
  obtain ⟨u, hu, rfl⟩ := finishFrame_eq_next.1 h
  obtain ⟨-, -, -, hhalt⟩ := frameRule_keeps hu
  exact ⟨(frameRule_header hu).setPhase .hdr0, hhalt⟩

/-- A payload byte writes no header register but the payload counter (44_parser.md R171). -/
theorem payloadStore_header {w : Byte} (h : payloadStore w s = .next t) : SameHeader (withPcnt (s.pcnt + 1) s) t := by
  obtain ⟨v, hv, ht⟩ := andThen_eq_next.1 h
  obtain rfl := Host.Outcome.next.inj ht
  have hstore : SameHeader s v := by
    unfold ctrlStore msgAppend at hv
    split at hv <;> split at hv <;> cases hv <;>
      exact ⟨rfl, rfl, rfl, rfl, rfl, rfl, rfl, rfl, rfl, rfl, rfl, rfl, rfl, rfl, rfl⟩
  rw [← hstore.pcnt]
  exact hstore.withPcnt _

theorem storeAll_header {ws : List Byte} (h : storeAll ws s = .next t) :
    SameHeader (withPcnt (s.pcnt + BitVec.ofNat 64 ws.length) s) t := by
  induction ws generalizing s with
  | nil =>
    obtain rfl := Host.Outcome.next.inj h
    exact { SameHeader.refl s with pcnt := (BitVec.add_zero _).symm }
  | cons w ws ih =>
    obtain ⟨u, hu, hrest⟩ := andThen_eq_next.1 h
    have hone := payloadStore_header hu
    have hmore := ih hrest
    rw [hone.pcnt, withPcnt_pcnt, pcnt_add_succ] at hmore
    exact (hone.withPcnt _).trans hmore

/-! ## The registers a whole frame leaves -/

/-- Whatever a frame does to a running decoder, it leaves its own header, with PCNT as it was when it is rejected and at
PLEN when it completes (42_header_decoder.md R116; 60_exceptions.md R221). -/
theorem exec_header (hw : i.wf = true) (hr : s.halted = false) (h : exec i s = .next t) :
    SameHeader (setPhase .hdr0
      (withPcnt (if t.halted then s.pcnt else i.frame.len.plen) (loadHeader i.opcode i.frame s))) t := by
  rw [exec_eq_runFrame] at h
  cases hv : validate (loadHeader i.opcode i.frame s) with
  | some c =>
    rw [runFrame_rejected hr hv] at h
    obtain rfl := Host.Outcome.next.inj h
    exact raiseError_header c _
  | none =>
    simp only [runFrame, hr, hv, Bool.false_eq_true, if_false] at h
    obtain ⟨u, hu, hfinish⟩ := andThen_eq_next.1 h
    obtain ⟨hfinal, hhalt⟩ := finishFrame_header hfinish
    have ht : t.halted = false := hhalt.trans ((storeAll_quiet hu).error.halted.trans hr)
    have hcount : (0 : Length) + BitVec.ofNat 64 i.frame.payload.length = i.frame.len.plen := by
      rw [Frame.wf_length hw, ← LenField.plen_toNat]
      exact (BitVec.zero_add _).trans (by rw [BitVec.ofNat_toNat, BitVec.setWidth_eq])
    have hstored := storeAll_header hu
    rw [startPayload_pcnt, hcount] at hstored
    rw [ht]
    exact (hstored.setPhase .hdr0).trans hfinal

/-! ## Header complete -/

/-- What header complete can do: the error entry, a payload to come, or a frame that is over (42_header_decoder.md R116). -/
inductive HeaderOutcome (s t : State) : Prop where
  | rejected (h : SameHeader (setPhase .hdr0 s) t) (hh : t.halted = true)
  | payload (h : SameHeader (setPhase .payload (startPayload s)) t) (hh : t.halted = false) (hl : s.plen ≠ 0)
  | complete (h : SameHeader (setPhase .hdr0 (startPayload s)) t) (hh : t.halted = false) (hl : s.plen = 0)

theorem headerComplete_cases (h : headerComplete s = .next t) (hr : s.halted = false) : HeaderOutcome s t := by
  unfold headerComplete at h
  split at h
  · obtain rfl := Host.Outcome.next.inj h
    exact .rejected (raiseError_header _ s) rfl
  · split at h
    · rename_i hl
      obtain ⟨hsame, hhalt⟩ := finishFrame_header h
      exact .complete hsame (hhalt.trans hr) hl
    · rename_i hl
      obtain rfl := Host.Outcome.next.inj h
      exact .payload (.refl _) hr hl

/-- Header complete keeps the length, the mask bit, LEN7 and the key (42_header_decoder.md R116). -/
theorem headerComplete_keeps (h : headerComplete s = .next t) (hr : s.halted = false) :
    t.plen = s.plen ∧ t.hMask = s.hMask ∧ t.hLen7 = s.hLen7 ∧ t.key = s.key := by
  cases headerComplete_cases h hr with
  | rejected k _ => exact ⟨k.plen, k.hMask, k.hLen7, k.key⟩
  | payload k _ _ => exact ⟨k.plen, k.hMask, k.hLen7, k.key⟩
  | complete k _ _ => exact ⟨k.plen, k.hMask, k.hLen7, k.key⟩

/-- The outcomes of header complete in the phase table (42_header_decoder.md R118). -/
def HeaderDone (t : State) : Prop :=
  (t.halted = true ∧ t.phase = .hdr0) ∨ (t.halted = false ∧ 0 < t.plen.toNat ∧ t.phase = .payload) ∨
    (t.halted = false ∧ t.plen.toNat = 0 ∧ t.phase = .hdr0)

theorem headerComplete_done (h : headerComplete s = .next t) (hr : s.halted = false) : HeaderDone t := by
  cases headerComplete_cases h hr with
  | rejected k hh => exact .inl ⟨hh, k.phase⟩
  | payload k hh hl =>
    have hpos : 0 < s.plen.toNat := Nat.pos_of_ne_zero fun e => hl (BitVec.eq_of_toNat_eq e)
    exact .inr (.inl ⟨hh, by rwa [k.plen], k.phase⟩)
  | complete k hh hl =>
    have hzero : t.plen.toNat = 0 := congrArg BitVec.toNat (k.plen.trans hl)
    exact .inr (.inr ⟨hh, hzero, k.phase⟩)

/-! ## Byte 1 and the length field, byte by byte -/

/-- `EXT_NEED` is 0 for a direct length only (42_header_decoder.md R111). -/
theorem extNeedOf_pos_iff (l7 : BitVec 7) : 0 < (extNeedOf l7).toNat ↔ 126 ≤ l7.toNat := by
  revert l7; decide

/-- Byte 1 that announces an extended length. -/
theorem pushByte_byte1_extended (hr : s.halted = false) (hp : s.phase = .hdr1) (hl : 126 ≤ (len7Of b).toNat) :
    pushByte b s = .next (setPhase .extLen (loadByte1 b s)) := by
  rw [pushByte_hdr1 hr hp, hdr1Step, if_pos ((extNeedOf_pos_iff _).2 hl)]

/-- Byte 1 with a direct length: the key or header complete comes next. -/
theorem pushByte_byte1_direct (hr : s.halted = false) (hp : s.phase = .hdr1) (hl : (len7Of b).toNat ≤ 125) :
    pushByte b s =
      if maskOf b then .next (setPhase .maskKey (loadByte1 b s)) else headerComplete (loadByte1 b s) := by
  have hnot : ¬126 ≤ (len7Of b).toNat := by omega
  rw [pushByte_hdr1 hr hp, hdr1Step, if_neg fun e => hnot ((extNeedOf_pos_iff _).1 e)]

/-- The frame whose header a decoder in HDR1 reads, once its key and length field are given. -/
def frameInHdr1 (key : Option Key) (len : LenField) (s : State) : Frame :=
  ⟨s.hFin, s.hRsv1, s.hRsv2, s.hRsv3, len, key, []⟩

/-- From HDR1, byte 1 and the extended length bytes assemble the length; the key or header complete comes next
(42_header_decoder.md R111, R112). -/
theorem pushAll_byte1_length (key : Option Key) {len : LenField} (hw : len.wf = true) (hr : s.halted = false)
    (hp : s.phase = .hdr1) :
    ∃ p, pushAll (byte1 key.isSome len.len7 :: len.bytes) s =
      lengthDone (setPhase p (loadLength s.hOpcode (frameInHdr1 key len s) s)) := by
  have hbyte := loadByte1_byte1 (s := s) (op := s.hOpcode) (f := frameInHdr1 key len s) hw
  rw [← hp] at hbyte
  have hstep : hdr1Step (byte1 key.isSome len.len7) s =
      if 0 < len.need.toNat then .next (setPhase .extLen (loadFixed s.hOpcode (frameInHdr1 key len s) s))
      else lengthDone (loadFixed s.hOpcode (frameInHdr1 key len s) s) := by
    rw [hdr1Step, len7Of_byte1, maskOf_byte1, extNeedOf_len7 hw]
    exact hbyte ▸ rfl
  obtain ⟨p, hlen⟩ := hdr1_length (op := s.hOpcode) (f := frameInHdr1 key len s) hr []
  refine ⟨p, Eq.trans ?_ (hlen.trans (andThen_pure _))⟩
  rw [pushAll_cons, pushByte_hdr1 hr hp, hstep, List.append_nil]
  rfl

/-- After the length of a masked frame comes its key (42_header_decoder.md R112). -/
theorem lengthDone_masked (hm : s.hMask = true) : lengthDone s = .next (setPhase .maskKey s) := if_pos hm

/-- After the length of an unmasked frame its header is complete (42_header_decoder.md R112). -/
theorem lengthDone_unmasked (hm : s.hMask = false) : lengthDone s = headerComplete s := if_neg (by simp [hm])

/-! ## The key and the payload, byte by byte -/

/-- The MASKKEY step stores the byte, and the fourth one completes the header (42_header_decoder.md R113). -/
theorem pushByte_maskKey_cases (hr : s.halted = false) (hp : s.phase = .maskKey) (h : pushByte b s = .next t) :
    ∃ k, (s.keyCnt + 1 = 4 ∧ headerComplete (withKey k (s.keyCnt + 1) s) = .next t) ∨
      (s.keyCnt + 1 ≠ 4 ∧ t = withKey k (s.keyCnt + 1) s) := by
  cases hk : s.key.put s.keyCnt.toNat b with
  | none =>
    rw [pushByte_maskKey hr hp, maskKeyStep, hk] at h
    cases h
  | some k =>
    by_cases hn : s.keyCnt + 1 = 4
    · rw [pushByte_keyLast hr hp hk hn] at h
      exact ⟨k, .inl ⟨hn, h⟩⟩
    · rw [pushByte_key hr hp hk hn] at h
      exact ⟨k, .inr ⟨hn, (Host.Outcome.next.inj h).symm⟩⟩

/-- The PAYLOAD step counts the byte, and the last one ends the frame (44_parser.md R171). -/
theorem pushByte_payload_phase (hr : s.halted = false) (hp : s.phase = .payload) (h : pushByte b s = .next t) :
    t.phase = if s.pcnt + 1 = s.plen then .hdr0 else .payload := by
  rw [pushByte_payload hr hp, payloadStep] at h
  obtain ⟨u, hu, hend⟩ := andThen_eq_next.1 h
  have hstore := payloadStore_header hu
  rw [hstore.pcnt, hstore.plen, withPcnt_pcnt, withPcnt_plen] at hend
  split at hend
  · rename_i hlast
    obtain ⟨hfinal, -⟩ := finishFrame_header hend
    rw [if_pos hlast]
    exact hfinal.phase
  · rename_i hmore
    obtain rfl := Host.Outcome.next.inj hend
    rw [if_neg hmore]
    exact hstore.phase.trans hp

/-! ## The check that stops a frame -/

/-- Check by check: a search takes the head of the list when it holds there, and goes on otherwise. -/
theorem find?_cons_eq_ite {α : Type} (p : α → Bool) (a : α) (as : List α) :
    (a :: as).find? p = if p a then some a else as.find? p := by
  rw [List.find?_cons]
  cases p a <;> rfl

/-- The checks of a control frame, in order (42_header_decoder.md R119): 2, 3, 4, 7 and 8. -/
theorem validate_control (hop : isControl op = true) :
    validate (loadHeader op f s) =
      if f.fin = false then some .fragmentedControl
      else if 125 < f.len.count then some .controlTooLong
      else if f.key.isSome ≠ s.requireMasking then some .maskMismatch
      else if s.strictLen = true ∧ minimalLength f.len.len7 f.len.plen = false then some .nonMinimalLength
      else if op = 8 ∧ f.len.plen = 1 then some .invalidClose
      else none := by
  have classes : ∀ op : BitVec 4, isControl op = true →
      isReserved op = false ∧ isCont op = false ∧ isData op = false := by decide
  obtain ⟨hres, hcont, hdata⟩ := classes op hop
  simp [validate, checkOrder, find?_cons_eq_ite, checkFails, hop, hres, hcont, hdata]

/-- The checks of a data or continuation frame, in order (42_header_decoder.md R119): 4 to 7 and 9. -/
theorem validate_message (hop : isControl op = false) (hres : isReserved op = false) :
    validate (loadHeader op f s) =
      if f.key.isSome ≠ s.requireMasking then some .maskMismatch
      else if isCont op = true ∧ s.msgOpen = false then some .unexpectedContinuation
      else if isData op = true ∧ s.msgOpen = true then some .dataWhileOpen
      else if s.strictLen = true ∧ minimalLength f.len.len7 f.len.plen = false then some .nonMinimalLength
      else if tooBig s.params.maxMessageBytes (s.msgLen + f.len.count) = true then some .messageTooBig
      else none := by
  have classes : ∀ op : BitVec 4, isControl op = false → isReserved op = false →
      (isData op || isCont op) = true ∧ op ≠ 8#4 := by decide
  obtain ⟨hclass, hclose⟩ := classes op hop hres
  simp [validate, checkOrder, find?_cons_eq_ite, checkFails, hop, hres, hclass, hclose]

/-- An accepted frame passes check 7 (42_header_decoder.md R126). -/
theorem minimalLength_of_accepted (h : Accepted f s) (hs : s.strictLen = true) :
    minimalLength f.len.len7 f.len.plen = true :=
  (minimalLength_iff (Frame.wf_len h.wf)).2 (h.minimal hs)

/-- A frame that a check stops takes the error entry of that check (60_exceptions.md R230). -/
theorem exec_stopsWithError (h : s.halted = false) (hv : validate (loadHeader i.opcode i.frame s) = some c) :
    StopsWithError c.code (statusCode c s) (reasonText c) s (exec i s) := by
  rw [exec_eq_runFrame, runFrame_rejected h hv]
  exact ⟨_, rfl, rfl, rfl, rfl, rfl, rfl, ⟨rfl, rfl, rfl, rfl⟩, ⟨rfl, rfl, rfl, rfl, rfl, rfl⟩, rfl, rfl, rfl,
    ⟨rfl, rfl, rfl, rfl, rfl⟩⟩

/-! ## The opcode classes of the rows -/

theorem of_mem_reservedFrames (h : i ∈ reservedFrames f) : i.frame = f ∧ isReserved i.opcode = true := by
  simp only [reservedFrames, List.mem_cons, List.not_mem_nil, or_false] at h
  rcases h with rfl | rfl | rfl | rfl | rfl | rfl | rfl | rfl | rfl | rfl <;> exact ⟨rfl, rfl⟩

theorem of_mem_controlFrames (h : i ∈ controlFrames f) : i.frame = f ∧ isControl i.opcode = true := by
  simp only [controlFrames, List.mem_cons, List.not_mem_nil, or_false] at h
  rcases h with rfl | rfl | rfl <;> exact ⟨rfl, rfl⟩

theorem of_mem_dataFrames (h : i ∈ dataFrames f) : i.frame = f ∧ isData i.opcode = true := by
  simp only [dataFrames, List.mem_cons, List.not_mem_nil, or_false] at h
  rcases h with rfl | rfl <;> exact ⟨rfl, rfl⟩

/-- A data frame is of no other class (30_encoding.md R79). -/
theorem classes_of_isData (h : isData op = true) :
    isControl op = false ∧ isReserved op = false ∧ isCont op = false := by
  revert op; decide

theorem of_mem_messageFrames (h : i ∈ .cont f :: dataFrames f) :
    i.frame = f ∧ isControl i.opcode = false ∧ isReserved i.opcode = false := by
  rcases List.mem_cons.1 h with rfl | h
  · exact ⟨rfl, rfl, rfl⟩
  · obtain ⟨hf, hdata⟩ := of_mem_dataFrames h
    obtain ⟨hctl, hres, -⟩ := classes_of_isData hdata
    exact ⟨hf, hctl, hres⟩

end Sys2Proof.Machine

namespace Sys2Proof.Proofs

open Sys2Proof.Machine Sys2Proof.Claim

/-- Settles O9: the length bytes end in `lengthDone` with the length assembled (`pushAll_byte1_length`), which waits for the
key or completes the header, and that keeps PLEN. -/
theorem serialLengthAssemblyGivesPlen : Obligations.SerialLengthAssemblyGivesPlen := by
  intro len s hw hr hp
  refine ⟨?_, fun t ht => ?_⟩
  · obtain ⟨p, hlen⟩ := pushAll_byte1_length (some s.key) hw hr hp
    exact ⟨_, hlen.trans (lengthDone_masked rfl), LenField.plen_toNat len, rfl, rfl, rfl, rfl, rfl⟩
  · obtain ⟨p, hlen⟩ := pushAll_byte1_length none hw hr hp
    have hheader := (hlen.trans (lengthDone_unmasked rfl)).symm.trans ht
    obtain ⟨hplen, hmask, hlen7, hkey⟩ := headerComplete_keeps hheader hr
    exact ⟨(congrArg BitVec.toNat hplen).trans (LenField.plen_toNat len), hmask, hlen7, hkey⟩

/-- Settles O10, row by row: what the byte step of the row's phase does under the row's condition. -/
theorem phaseTransitionTable : Obligations.PhaseTransitionTable := by
  intro b s t hr h l7 headerDone
  have hl7 : (len7Of b).toNat = l7 := len7Of_toNat b
  refine ⟨fun hp => ?hdr0, fun hp hl => ?hdr1_extended, fun hp hl hm => ?hdr1_masked,
    fun hp hl hm => ?hdr1_unmasked, fun hp hc => ?extLen_more, fun hp hc hm => ?extLen_masked,
    fun hp hc hm => ?extLen_unmasked, fun hp hc => ?maskKey_more, fun hp hc => ?maskKey_last,
    fun hp hc => ?payload_more, fun hp hc => ?payload_last⟩
  case hdr0 =>
    rw [pushByte_hdr0 hr hp] at h
    exact Host.Outcome.next.inj h ▸ rfl
  case hdr1_extended =>
    rw [pushByte_byte1_extended hr hp (hl7 ▸ hl)] at h
    exact Host.Outcome.next.inj h ▸ rfl
  case hdr1_masked =>
    have hm' : maskOf b = true := hm
    rw [pushByte_byte1_direct hr hp (hl7 ▸ hl), if_pos hm'] at h
    exact Host.Outcome.next.inj h ▸ rfl
  case hdr1_unmasked =>
    have hm' : ¬maskOf b = true := Bool.eq_false_iff.1 hm
    rw [pushByte_byte1_direct hr hp (hl7 ▸ hl), if_neg hm'] at h
    exact headerComplete_done h hr
  case extLen_more =>
    rw [pushByte_ext hr hp (by bv_omega)] at h
    exact Host.Outcome.next.inj h ▸ hp
  case extLen_masked =>
    rw [pushByte_extLast hr hp (by bv_omega), lengthDone_masked (by exact hm)] at h
    exact Host.Outcome.next.inj h ▸ rfl
  case extLen_unmasked =>
    rw [pushByte_extLast hr hp (by bv_omega), lengthDone_unmasked (by exact hm)] at h
    exact headerComplete_done h hr
  case maskKey_more =>
    obtain ⟨k, ⟨hlast, -⟩ | ⟨-, rfl⟩⟩ := pushByte_maskKey_cases hr hp h
    · bv_omega
    · exact hp
  case maskKey_last =>
    obtain ⟨k, ⟨-, hdone⟩ | ⟨hmore, -⟩⟩ := pushByte_maskKey_cases hr hp h
    · exact headerComplete_done hdone hr
    · bv_omega
  case payload_more =>
    rw [pushByte_payload_phase hr hp h, if_neg (by bv_omega)]
  case payload_last =>
    rw [pushByte_payload_phase hr hp h, if_pos (by bv_omega)]

/-- Settles O29: check 1 is the first of all (`validate_reserved`). -/
theorem reservedOpcodeFrameEffect : Obligations.ReservedOpcodeFrameEffect := by
  intro f s hs i hi
  obtain ⟨rfl, hop⟩ := of_mem_reservedFrames hi
  exact exec_stopsWithError hs (validate_reserved hop)

/-- Settles O30: check 2 is the first that looks at a control frame. -/
theorem fragmentedControlFrameIsRejected : Obligations.FragmentedControlFrameIsRejected := by
  intro f s hs hfin i hi
  obtain ⟨rfl, hop⟩ := of_mem_controlFrames hi
  exact exec_stopsWithError (c := .fragmentedControl) hs (by rw [validate_control hop, if_pos hfin])

/-- Settles O31: with FIN = 1 check 3 is the first that looks at a control frame. -/
theorem longControlFrameIsRejected : Obligations.LongControlFrameIsRejected := by
  intro f s hs hfin hlong i hi
  obtain ⟨rfl, hop⟩ := of_mem_controlFrames hi
  exact exec_stopsWithError (c := .controlTooLong) hs (by simp [validate_control hop, hfin, hlong])

/-- Settles O32: check 4 is the first that looks at a data or continuation frame, and the next after 2 and 3 for a control
frame. -/
theorem wrongMaskBitIsRejected : Obligations.WrongMaskBitIsRejected := by
  intro f s hs hmask
  refine ⟨fun i hi => ?_, fun hfin hshort i hi => ?_⟩
  · obtain ⟨rfl, hctl, hres⟩ := of_mem_messageFrames hi
    exact exec_stopsWithError (c := .maskMismatch) hs (by rw [validate_message hctl hres, if_pos hmask])
  · obtain ⟨rfl, hop⟩ := of_mem_controlFrames hi
    exact exec_stopsWithError (c := .maskMismatch) hs (by simp [validate_control hop, hfin, hshort, hmask])

/-- Settles O33: a continuation with the right mask bit meets check 5 next. -/
theorem continuationWithoutMessageIsRejected : Obligations.ContinuationWithoutMessageIsRejected := by
  intro f s hs hmask hopen
  exact exec_stopsWithError (i := .cont f) (c := .unexpectedContinuation) hs
    ((validate_message rfl rfl).trans (by simp [Instr.opcode, Instr.frame, isCont, hmask, hopen]))

/-- Settles O34: a data frame with the right mask bit meets check 6 next. -/
theorem dataFrameInsideMessageIsRejected : Obligations.DataFrameInsideMessageIsRejected := by
  intro f s hs hmask hopen i hi
  obtain ⟨rfl, hdata⟩ := of_mem_dataFrames hi
  obtain ⟨hctl, hres, hcont⟩ := classes_of_isData hdata
  exact exec_stopsWithError (c := .dataWhileOpen) hs (by simp [validate_message hctl hres, hmask, hcont, hdata, hopen])

/-- Settles O35: with the earlier checks passed, a length field that is not the shortest form fails check 7
(`minimalLength_iff`). -/
theorem nonMinimalLengthIsRejected : Obligations.NonMinimalLengthIsRejected := by
  intro f s hs hmask hstrict hlen
  have hmin : minimalLength f.len.len7 f.len.plen = false :=
    Bool.eq_false_iff.2 fun e => hlen ((minimalLength_iff (LenField.wf_of_not_shortestForm hlen)).1 e)
  refine ⟨fun hopen => ?_, fun hopen i hi => ?_, fun hfin hshort i hi => ?_⟩
  · exact exec_stopsWithError (i := .cont f) (c := .nonMinimalLength) hs
      ((validate_message rfl rfl).trans
        (by simp [Instr.opcode, Instr.frame, isData, hmask, hopen, hstrict, hmin]))
  · obtain ⟨rfl, hdata⟩ := of_mem_dataFrames hi
    obtain ⟨hctl, hres, hcont⟩ := classes_of_isData hdata
    exact exec_stopsWithError (c := .nonMinimalLength) hs
      (by simp [validate_message hctl hres, hmask, hcont, hopen, hstrict, hmin])
  · obtain ⟨rfl, hop⟩ := of_mem_controlFrames hi
    exact exec_stopsWithError (c := .nonMinimalLength) hs
      (by simp [validate_control hop, hfin, hshort, hmask, hstrict, hmin])

/-- Settles O36: an accepted close frame of one payload byte passes checks 2, 3, 4 and 7. -/
theorem oneByteCloseIsRejected : Obligations.OneByteCloseIsRejected := by
  intro f s hacc hone
  have hcount : f.len.count = 1 := (Frame.wf_length hacc.wf).symm.trans hone
  have hplen : f.len.plen = 1 := BitVec.eq_of_toNat_eq ((LenField.plen_toNat _).trans hcount)
  have hmin := minimalLength_of_accepted hacc.toAccepted
  exact exec_stopsWithError (i := .close f) (c := .invalidClose) hacc.running
    ((validate_control rfl).trans
      (by simpa [Instr.opcode, Instr.frame, hacc.fin, hacc.mask, hcount, hplen] using hmin))

/-- Settles O37: an accepted data frame outside a message, or continuation inside one, passes checks 4 to 7. -/
theorem tooBigMessageIsRejected : Obligations.TooBigMessageIsRejected := by
  intro f s m hacc hmax hbig
  rw [Frame.wf_length hacc.wf] at hbig
  have hmin := minimalLength_of_accepted hacc
  refine ⟨fun hopen => ?_, fun hopen i hi => ?_⟩
  · exact exec_stopsWithError (i := .cont f) (c := .messageTooBig) hacc.running
      ((validate_message rfl rfl).trans
        (by simpa [Instr.opcode, Instr.frame, isData, hacc.mask, hopen, tooBig, hmax, hbig] using hmin))
  · obtain ⟨rfl, hdata⟩ := of_mem_dataFrames hi
    obtain ⟨hctl, hres, hcont⟩ := classes_of_isData hdata
    exact exec_stopsWithError (c := .messageTooBig) hacc.running
      (by simpa [validate_message hctl hres, hacc.mask, hcont, hopen, tooBig, hmax, hbig] using hmin)

/-- Settles O44: each register is that of `exec_header`, read as a number. -/
theorem everyFrameLeavesItsFieldsInTheHeader : Obligations.EveryFrameLeavesItsFieldsInTheHeader := by
  intro i s t hw hr h f
  have k := exec_header hw hr h
  have hcount : f.payload.length = f.len.count := Frame.wf_length hw
  refine ⟨k.hFin, k.hRsv1, k.hRsv2, k.hRsv3, k.hOpcode, k.hMask, k.hLen7, ?plen, k.key, ?keyCnt, ?extNeed,
    k.extCnt.trans k.extNeed.symm, ?ext, fun ht => ?rejected, fun ht => ?accepted⟩
  case plen =>
    rw [hcount, k.plen]
    exact LenField.plen_toNat f.len
  case keyCnt =>
    rw [k.keyCnt]
    exact keyCnt_toNat f.key
  case extNeed =>
    rw [k.extNeed]
    exact LenField.need_toNat f.len
  case ext =>
    rw [hcount, k.ext]
    exact LenField.ext_toNat (Frame.wf_len hw)
  case rejected => exact k.pcnt.trans (if_pos ht)
  case accepted => exact k.pcnt.trans ((if_neg (Bool.eq_false_iff.1 ht)).trans k.plen.symm)

/-- Settles O8, from the bits of byte 0. -/
theorem firstHeaderByteFillsItsRegisters : Obligations.FirstHeaderByteFillsItsRegisters := by
  intro b s hr hp
  rw [pushByte_hdr0 hr hp, hdr0Step, opcodeOf_eq_ofNat]
  rfl

/-- Settles O23, by running the two streams. -/
theorem stalePayloadCounterInAHeader : Obligations.StalePayloadCounterInAHeader := by
  refine ⟨⟨_, rfl, rfl, ?_⟩, ⟨_, rfl, rfl, ?_⟩⟩ <;> decide

end Sys2Proof.Proofs

/-! SUPPORT. The statements of the parser family (44_parser.md): runs of bytes and of frames, the decoder's turn, what an accepted
frame of each row does and the causes that halt one, fragmented messages, the encoder's frames, and the event port. -/

namespace Sys2Proof.Machine

open Sys2Proof.Claim

section

variable {s t u : State} {op : BitVec 4} {f : Frame} {i : Instr} {c : Cause}

/-! ## Runs of bytes and of frames -/

/-- PARSE of two chunks is PARSE of their concatenation (44_parser.md R162). -/
theorem pushAll_append (a b : List Byte) (s : State) : pushAll (a ++ b) s = andThen (pushAll a s) (pushAll b) := by
  induction a generalizing s with
  | nil => rfl
  | cons x xs ih =>
    rw [List.cons_append, pushAll_cons, pushAll_cons, andThen_assoc]
    exact congrArg (andThen (pushByte x s)) (funext ih)

theorem runFrames_append (a b : List Instr) (s : State) :
    runFrames (a ++ b) s = andThen (runFrames a s) (runFrames b) := by
  induction a generalizing s with
  | nil => rfl
  | cons x xs ih =>
    rw [List.cons_append, runFrames, runFrames, andThen_assoc]
    exact congrArg (andThen (exec x s)) (funext ih)

/-- While halted every frame is discarded (44_parser.md R160). -/
theorem exec_of_halted (h : s.halted = true) : exec i s = .next s := by
  rw [exec_eq_runFrame, runFrame_halted h]

/-- No byte string stops a decoder that meets its invariant (44_parser.md R160, R161). -/
theorem State.DecoderInv.pushAll_goes_on (h : s.DecoderInv) (bs : List Byte) : ∃ t, pushAll bs s = .next t := by
  induction bs generalizing s with
  | nil => exact ⟨s, rfl⟩
  | cons b bs ih =>
    obtain ⟨u, hu, hinv⟩ := h.byte b
    obtain ⟨t, ht⟩ := ih hinv
    exact ⟨t, by rw [pushAll_cons, hu, andThen_next, ht]⟩

/-! ## The decoder's turn -/

theorem inputReady_iff : inputReady s = true ↔ s.inp ≠ [] ∧ portOpen s = true := by
  simp [inputReady]

/-- On the decoder's turn an open port with bytes waiting moves (20_memory.md R68; log entry 3). -/
theorem step_decoderTurn (ht : turnOf s ≠ .host) (hi : s.inp ≠ []) (hp : portOpen s = true) :
    step s = decoderTurn (turnOf s) (nextTurn s) := by
  have hready : inputReady (nextTurn s) = true := inputReady_iff.2 ⟨hi, hp⟩
  rw [step, if_neg ht, if_pos hready]

/-- At a frame boundary the fetch reads the whole frame that waits (70_reset_and_hazards.md R260). -/
theorem fetch_encode {rest : List Byte} (hw : i.wf = true) (hi : s.inp = encode i ++ rest) (hp : s.phase = .hdr0) :
    fetch s = some (i, rest) := by
  rw [fetch, if_pos hp, hi, decode_encode_append hw]

/-- When neither port can move, only the schedule does (60_exceptions.md R245; log entry 12). -/
theorem step_waits (hh : hostReady (nextTurn s) = false) (hi : inputReady (nextTurn s) = false) :
    step s = .next (nextTurn s) := by
  simp [step, hh, hi]

/-! ## Accepted frames pass the checks -/

theorem tooBig_eq_false_iff {n : Nat} : tooBig s.params.maxMessageBytes (s.msgLen + n) = false ↔ Fits s n := by
  cases h : s.params.maxMessageBytes <;> simp [tooBig, Fits, h]

/-- Check 7 does not stop an accepted frame (42_header_decoder.md R126). -/
theorem not_nonMinimal_of_accepted (h : Accepted f s) :
    ¬(s.strictLen = true ∧ minimalLength f.len.len7 f.len.plen = false) :=
  fun ⟨hs, hm⟩ => Bool.noConfusion (hm.symm.trans (minimalLength_of_accepted h hs))

/-- An accepted data or continuation frame that suits MSG_OPEN and fits passes every check (42_header_decoder.md R119). -/
theorem validate_accepted_message (hctl : isControl op = false) (hres : isReserved op = false) (hacc : Accepted f s)
    (hfit : Fits s f.payload.length) (hcont : isCont op = true → s.msgOpen = true)
    (hdata : isData op = true → s.msgOpen = false) : validate (loadHeader op f s) = none := by
  have hbig := tooBig_eq_false_iff.2 (Frame.wf_length hacc.wf ▸ hfit)
  rw [validate_message hctl hres, if_neg (not_not.2 hacc.mask),
    if_neg fun ⟨hop, ho⟩ => Bool.noConfusion (ho.symm.trans (hcont hop)),
    if_neg fun ⟨hop, ho⟩ => Bool.noConfusion (ho.symm.trans (hdata hop)),
    if_neg (not_nonMinimal_of_accepted hacc), if_neg (Bool.eq_false_iff.1 hbig)]

/-- An accepted control frame, when a close frame not of one byte, passes every check (42_header_decoder.md R119). -/
theorem validate_accepted_control (hop : isControl op = true) (hacc : AcceptedControl f s)
    (hclose : op = 8 → f.payload.length ≠ 1) : validate (loadHeader op f s) = none := by
  have hlen : f.payload.length = f.len.plen.toNat := by rw [Frame.wf_length hacc.wf, LenField.plen_toNat]
  have hshort : ¬125 < f.len.count := Nat.not_lt.2 (Frame.wf_length hacc.wf ▸ hacc.short)
  rw [validate_control hop, if_neg (by simp [hacc.fin]), if_neg hshort, if_neg (not_not.2 hacc.mask),
    if_neg (not_nonMinimal_of_accepted hacc.toAccepted), if_neg fun ⟨h8, h1⟩ => hclose h8 (by rw [hlen, h1]; rfl)]

/-! ## The causes that halt a frame -/

theorem checkFails_of_validate (h : validate s = some c) : checkFails c s = true := by
  simpa using List.find?_some h

/-- A frame that halts a running decoder does so by a check that its header fails (60_exceptions.md R221, R230). -/
theorem exec_halts (hs : s.halted = false) (h : exec i s = .next t) (ht : t.halted = true) :
    ∃ c, checkFails c (loadHeader i.opcode i.frame s) = true ∧ t.errCause = c.code := by
  rw [exec_eq_runFrame] at h
  cases hv : validate (loadHeader i.opcode i.frame s) with
  | some c =>
    rw [runFrame_rejected hs hv] at h
    exact ⟨c, checkFails_of_validate hv, Host.Outcome.next.inj h ▸ rfl⟩
  | none =>
    simp only [runFrame, hs, hv, Bool.false_eq_true, if_false] at h
    obtain ⟨u, hu, hfinish⟩ := andThen_eq_next.1 h
    have hrun : t.halted = false := (finishFrame_header hfinish).2.trans ((storeAll_quiet hu).error.halted.trans hs)
    exact Bool.noConfusion (hrun.symm.trans ht)

/-- The causes of a data or continuation frame: 4, 7 and 9, cause 5 for CONT, cause 6 for TEXT and BINARY
(44_parser.md R173 to R175). -/
theorem exec_message_causes (hctl : isControl i.opcode = false) (hres : isReserved i.opcode = false)
    (hs : s.halted = false) (h : exec i s = .next t) (ht : t.halted = true) :
    t.errCause = 4 ∨ (isCont i.opcode = true ∧ t.errCause = 5) ∨ (isData i.opcode = true ∧ t.errCause = 6) ∨
      t.errCause = 7 ∨ t.errCause = 9 := by
  have hclose : ∀ op : BitVec 4, isControl op = false → op ≠ 8 := by decide
  obtain ⟨c, hc, he⟩ := exec_halts hs h ht
  cases c with
  | maskMismatch => exact .inl he
  | unexpectedContinuation => exact .inr (.inl ⟨(Bool.and_eq_true_iff.1 hc).1, he⟩)
  | dataWhileOpen => exact .inr (.inr (.inl ⟨(Bool.and_eq_true_iff.1 hc).1, he⟩))
  | nonMinimalLength => exact .inr (.inr (.inr (.inl he)))
  | messageTooBig => exact .inr (.inr (.inr (.inr he)))
  | invalidClose => exact absurd (eq_of_beq (Bool.and_eq_true_iff.1 hc).1) (hclose _ hctl)
  | reservedOpcode | fragmentedControl | controlTooLong => simp [checkFails, hctl, hres] at hc

/-- The causes of a control frame: 2, 3, 4 and 7, and cause 8 for CLOSE (44_parser.md R180 to R182). -/
theorem exec_control_causes (hctl : isControl i.opcode = true) (hs : s.halted = false) (h : exec i s = .next t)
    (ht : t.halted = true) :
    t.errCause = 2 ∨ t.errCause = 3 ∨ t.errCause = 4 ∨ t.errCause = 7 ∨ (i.opcode = 8 ∧ t.errCause = 8) := by
  have classes : ∀ op : BitVec 4, isControl op = true →
      isReserved op = false ∧ isCont op = false ∧ isData op = false := by decide
  obtain ⟨hres, hcont, hdata⟩ := classes _ hctl
  obtain ⟨c, hc, he⟩ := exec_halts hs h ht
  cases c with
  | fragmentedControl => exact .inl he
  | controlTooLong => exact .inr (.inl he)
  | maskMismatch => exact .inr (.inr (.inl he))
  | nonMinimalLength => exact .inr (.inr (.inr (.inl he)))
  | invalidClose => exact .inr (.inr (.inr (.inr ⟨eq_of_beq (Bool.and_eq_true_iff.1 hc).1, he⟩)))
  | reservedOpcode | unexpectedContinuation | dataWhileOpen | messageTooBig =>
    simp [checkFails, hres, hcont, hdata] at hc

/-! ## What an accepted frame does -/

/-- The rule of a data frame at frame complete (44_parser.md R173, R174). -/
def dataComplete (op : BitVec 4) (s : State) : Result :=
  if s.hFin then emitMessage op s.hRsv1 s.hRsv2 s.hRsv3 s else .next (msgOpenAs op s.hRsv1 s.hRsv2 s.hRsv3 s)

/-- TEXT and BINARY have one rule, each with its own opcode. -/
theorem frameRule_data (hop : isData op = true) : frameRule op = dataComplete op := by
  have classes : ∀ op : BitVec 4, isData op = true → op = 1 ∨ op = 2 := by decide
  rcases classes op hop with rfl | rfl <;> rfl

/-- An accepted data or continuation frame stores its payload and runs its rule (44_parser.md R171, R172). -/
theorem exec_accepted_message (hctl : isControl i.opcode = false) (hres : isReserved i.opcode = false)
    (hacc : Accepted i.frame s) (hfit : Fits s i.frame.payload.length) (hcont : isCont i.opcode = true → s.msgOpen = true)
    (hdata : isData i.opcode = true → s.msgOpen = false)
    (hrule : frameRule i.opcode (storedMessage i.opcode i.frame s) = .next u) : exec i s = .next (setPhase .hdr0 u) := by
  rw [exec_eq_runFrame, runFrame_message hctl hacc.running
    (validate_accepted_message hctl hres hacc hfit hcont hdata) (frame_payload_lt hacc.wf) hfit, finishFrame_next hrule]

/-- The state that a data or continuation frame with FIN = 1 leaves: the message `p` delivered, the reassembler cleared. -/
def delivered (op : BitVec 4) (r1 r2 r3 : Bool) (p : List Byte) (i : Instr) (s : State) : State :=
  setPhase .hdr0 (emit (.message op r1 r2 r3 p) (msgClear (storedMessage i.opcode i.frame s)))

/-- An accepted data frame with FIN = 1 is a whole message (44_parser.md R173, R174). -/
theorem exec_data_final (hop : isData i.opcode = true) (hacc : Accepted i.frame s) (hopen : s.msgOpen = false)
    (hlen : s.msgLen = 0) (hfit : Fits s i.frame.payload.length) (hfin : i.frame.fin = true) :
    exec i s = .next (delivered i.opcode i.frame.rsv1 i.frame.rsv2 i.frame.rsv3 (appPayload i.frame) i s) := by
  obtain ⟨hctl, hres, hcont⟩ := classes_of_isData hop
  refine exec_accepted_message hctl hres hacc hfit (fun h => Bool.noConfusion (hcont.symm.trans h)) (fun _ => hopen) ?_
  rw [frameRule_data hop]
  exact (if_pos hfin).trans (emitMessage_of_read (storedMessage_reads (old := []) (by rw [hlen]; rfl)))

/-- An accepted data frame with FIN = 0 opens a message (44_parser.md R173, R174). -/
theorem exec_data_first (hop : isData i.opcode = true) (hacc : Accepted i.frame s) (hopen : s.msgOpen = false)
    (hfit : Fits s i.frame.payload.length) (hfin : i.frame.fin = false) :
    exec i s = .next (setPhase .hdr0 (msgOpenAs i.opcode i.frame.rsv1 i.frame.rsv2 i.frame.rsv3
      (storedMessage i.opcode i.frame s))) := by
  obtain ⟨hctl, hres, hcont⟩ := classes_of_isData hop
  refine exec_accepted_message hctl hres hacc hfit (fun h => Bool.noConfusion (hcont.symm.trans h)) (fun _ => hopen) ?_
  rw [frameRule_data hop]
  exact if_neg (Bool.eq_false_iff.1 hfin)

/-- CONT with FIN = 1 at frame complete delivers the open message (44_parser.md R175). -/
theorem contComplete_final {p : List Byte} (hfin : s.hFin = true) (h : s.msgBuf.readBytes 0 s.msgLen = some p) :
    contComplete s = .next (emit (.message s.msgOpcode s.msgRsv1 s.msgRsv2 s.msgRsv3 p) (msgClear s)) :=
  (if_pos hfin).trans (emitMessage_of_read h)

/-- CONT with FIN = 0 at frame complete leaves the message open (44_parser.md R175). -/
theorem contComplete_middle (hfin : s.hFin = false) : contComplete s = .next s := if_neg (Bool.eq_false_iff.1 hfin)

/-- An accepted continuation with FIN = 1 completes the message (44_parser.md R175). -/
theorem exec_cont_final {old : List Byte} (hacc : Accepted f s) (hopen : s.msgOpen = true)
    (hfit : Fits s f.payload.length) (hold : s.msgBuf.readBytes 0 s.msgLen = some old) (hfin : f.fin = true) :
    exec (.cont f) s =
      .next (delivered s.msgOpcode s.msgRsv1 s.msgRsv2 s.msgRsv3 (old ++ appPayload f) (.cont f) s) :=
  exec_accepted_message (i := .cont f) rfl rfl hacc hfit (fun _ => hopen) nofun
    (contComplete_final (s := storedMessage 0 f s) hfin (storedMessage_reads hold))

/-- An accepted continuation with FIN = 0 extends the message (44_parser.md R175). -/
theorem exec_cont_middle (hacc : Accepted f s) (hopen : s.msgOpen = true) (hfit : Fits s f.payload.length)
    (hfin : f.fin = false) : exec (.cont f) s = .next (setPhase .hdr0 (storedMessage 0 f s)) :=
  exec_accepted_message (i := .cont f) rfl rfl hacc hfit (fun _ => hopen) nofun
    (contComplete_middle (s := storedMessage 0 f s) hfin)

/-- The record of a close frame whose payload has been read (44_parser.md R180). -/
theorem closeComplete_of_read {p : List Byte} (h : s.ctrlBuf.readBytes 0 s.plen.toNat = some p) (h1 : p.length ≠ 1) :
    ∃ e, closeEvents p = [e] ∧ closeComplete s = .next (emit e s) := by
  have hlen := Mem.readBytes_length h
  match p with
  | [] =>
    have hzero : s.plen = 0 := BitVec.eq_of_toNat_eq hlen.symm
    exact ⟨_, rfl, if_pos hzero⟩
  | [_] => exact absurd rfl h1
  | c0 :: c1 :: reason =>
    have hplen : s.plen.toNat = reason.length + 2 := hlen.symm
    have hne0 : s.plen ≠ 0 := fun e => by rw [e] at hplen; cases hplen
    have hne1 : s.plen ≠ 1 := fun e => by rw [e] at hplen; cases hplen
    rw [hplen] at h
    obtain ⟨b0, b1, rest, hp, hr0, hr1, hrest⟩ := Mem.readBytes_two_rest h
    obtain ⟨rfl, rfl, rfl⟩ := by simpa using hp
    refine ⟨.close (be2 c0 c1) reason, ?_, ?_⟩
    · rw [closeEvents, ← be2_toNat, BitVec.ofNat_toNat, BitVec.setWidth_eq]
    · rw [closeComplete, if_neg hne0, if_neg hne1, hr0, hr1, hplen, Nat.add_sub_cancel, hrest]

/-- The record of a ping frame whose payload has been read (44_parser.md R181). -/
theorem pingComplete_of_read {p : List Byte} (h : s.ctrlBuf.readBytes 0 s.plen.toNat = some p) :
    pingComplete s = .next (emit (.ping p) s) := by
  rw [pingComplete, h]

/-- The record of a pong frame whose payload has been read (44_parser.md R182). -/
theorem pongComplete_of_read {p : List Byte} (h : s.ctrlBuf.readBytes 0 s.plen.toNat = some p) :
    pongComplete s = .next (emit (.pong p) s) := by
  rw [pongComplete, h]

/-- A control frame whose payload is stored appends its own record (44_parser.md R180 to R182). -/
theorem frameRule_storedControl (hop : isControl i.opcode = true) (hw : i.wf = true)
    (hclose : i.opcode = 8 → i.frame.payload.length ≠ 1) :
    ∃ e, controlEvents i = [e] ∧
      frameRule i.opcode (storedControl i.opcode i.frame s) = .next (emit e (storedControl i.opcode i.frame s)) := by
  have hread : (storedControl i.opcode i.frame s).ctrlBuf.readBytes 0
      (storedControl i.opcode i.frame s).plen.toNat = some (appPayload i.frame) := by
    have hplen : (storedControl i.opcode i.frame s).plen.toNat = i.frame.payload.length :=
      (LenField.plen_toNat _).trans (Frame.wf_length hw).symm
    rw [hplen, storedControl_reads]
  cases i with
  | close f => exact closeComplete_of_read hread (by rw [appPayload_length]; exact hclose rfl)
  | ping f => exact ⟨_, rfl, pingComplete_of_read hread⟩
  | pong f => exact ⟨_, rfl, pongComplete_of_read hread⟩
  | cont | text | binary | op3 | op4 | op5 | op6 | op7 | op11 | op12 | op13 | op14 | op15 => cases hop

/-- An accepted control frame appends its record, stores its payload in CTRL_BUF, and leaves its header
(44_parser.md R177, R180 to R182). -/
theorem exec_accepted_control (hop : isControl i.opcode = true) (hacc : AcceptedControl i.frame s)
    (hclose : i.opcode = 8 → i.frame.payload.length ≠ 1) :
    ∃ e, controlEvents i = [e] ∧
      exec i s = .next (setPhase .hdr0 (emit e (storedControl i.opcode i.frame s))) := by
  obtain ⟨e, he, hrule⟩ := frameRule_storedControl (s := s) hop hacc.wf hclose
  refine ⟨e, he, ?_⟩
  rw [exec_eq_runFrame, runFrame_control hop hacc.running (validate_accepted_control hop hacc hclose) hacc.short,
    finishFrame_next hrule]

/-! ## The effects of accepted frames and the causes of halting ones -/

/-- With MSG_LEN = 0 the message so far is empty. -/
theorem msgLen_zero_reads (h : s.msgLen = 0) : s.msgBuf.readBytes 0 s.msgLen = some [] := by rw [h]; rfl

/-- An accepted data frame with no message open: FIN = 1 delivers it, FIN = 0 opens it (44_parser.md R173, R174). -/
theorem exec_data_effect (hop : isData i.opcode = true) (hacc : Accepted i.frame s) (hopen : s.msgOpen = false)
    (hlen : s.msgLen = 0) (hfit : Fits s i.frame.payload.length) :
    (i.frame.fin = true → ∃ t, exec i s = .next t ∧
      t.evt = s.evt ++ [.message i.opcode i.frame.rsv1 i.frame.rsv2 i.frame.rsv3 (appPayload i.frame)] ∧
      MessageClosed t ∧ t.phase = .hdr0 ∧ SameError s t) ∧
    (i.frame.fin = false → ∃ t, exec i s = .next t ∧ t.evt = s.evt ∧
      MessageOpenAs i.opcode i.frame.rsv1 i.frame.rsv2 i.frame.rsv3 t ∧ t.msgLen = i.frame.payload.length ∧
      t.msgBuf.readBytes 0 t.msgLen = some (appPayload i.frame) ∧ t.phase = .hdr0 ∧ SameError s t) := by
  refine ⟨fun hfin => ?_, fun hfin => ?_⟩
  · exact ⟨_, exec_data_final hop hacc hopen hlen hfit hfin, rfl, ⟨rfl, rfl, rfl, rfl, rfl, rfl⟩, rfl, rfl, rfl, rfl⟩
  · have hcount : s.msgLen + i.frame.payload.length = i.frame.payload.length := by rw [hlen, Nat.zero_add]
    exact ⟨_, exec_data_first hop hacc hopen hfit hfin, rfl, ⟨rfl, rfl, rfl, rfl, rfl⟩, hcount,
      storedMessage_reads (op := i.opcode) (msgLen_zero_reads hlen), rfl, rfl, rfl, rfl⟩

/-- The causes that halt a data frame (44_parser.md R173, R174). -/
theorem exec_data_causes (hop : isData i.opcode = true) (hs : s.halted = false) (h : exec i s = .next t)
    (ht : t.halted = true) : t.errCause = 4 ∨ t.errCause = 6 ∨ t.errCause = 7 ∨ t.errCause = 9 := by
  obtain ⟨hctl, hres, hcont⟩ := classes_of_isData hop
  rcases exec_message_causes hctl hres hs h ht with he | ⟨hc, -⟩ | ⟨-, he⟩ | he | he
  · exact .inl he
  · exact Bool.noConfusion (hcont.symm.trans hc)
  · exact .inr (.inl he)
  · exact .inr (.inr (.inl he))
  · exact .inr (.inr (.inr he))

/-- What every accepted control frame does (44_parser.md R177, R180 to R183). -/
theorem exec_control_effect (hop : isControl i.opcode = true) (hacc : AcceptedControl i.frame s)
    (hclose : i.opcode = 8 → i.frame.payload.length ≠ 1) :
    ∃ t, exec i s = .next t ∧ t.evt = s.evt ++ controlEvents i ∧ SameMessage s t ∧ t.msgBuf = s.msgBuf ∧
      t.phase = .hdr0 ∧ SameError s t := by
  obtain ⟨e, he, hx⟩ := exec_accepted_control hop hacc hclose
  exact ⟨_, hx, by rw [he]; rfl, ⟨rfl, rfl, rfl, rfl, rfl, rfl⟩, rfl, rfl, rfl, rfl, rfl⟩

/-- The causes that halt a control frame other than CLOSE (44_parser.md R181, R182). -/
theorem exec_control_causes_of_ne (hop : isControl i.opcode = true) (hne : i.opcode ≠ 8) (hs : s.halted = false)
    (h : exec i s = .next t) (ht : t.halted = true) :
    t.errCause = 2 ∨ t.errCause = 3 ∨ t.errCause = 4 ∨ t.errCause = 7 := by
  rcases exec_control_causes hop hs h ht with he | he | he | he | ⟨h8, -⟩
  · exact .inl he
  · exact .inr (.inl he)
  · exact .inr (.inr (.inl he))
  · exact .inr (.inr (.inr he))
  · exact absurd h8 hne

/-! ## A control frame and the message -/

/-- The checks read the frame, the configuration, MSG_OPEN and MSG_LEN, and nothing else (42_header_decoder.md R120 to R128). -/
theorem validate_loadHeader_congr (hc : SameConfig s u) (hm : SameMessage s u) :
    validate (loadHeader op f u) = validate (loadHeader op f s) := by
  have hcheck : ∀ c, checkFails c (loadHeader op f u) = checkFails c (loadHeader op f s) := fun c => by
    cases c <;> simp [checkFails, hc.params, hc.requireMasking, hc.strictLen, hm.msgOpen, hm.msgLen]
  simp only [validate, hcheck]

/-- A control frame that does not halt leaves its record, its header and its payload in CTRL_BUF, and nothing else
(44_parser.md R177). -/
theorem exec_control_eq_stored (hop : isControl i.opcode = true) (hw : i.wf = true) (h : exec i s = .next u)
    (hu : u.halted = false) :
    s.halted = false ∧ ∃ e, u = setPhase .hdr0 (emit e (storedControl i.opcode i.frame s)) := by
  rw [exec_eq_runFrame] at h
  rcases runFrame_control_cases hw hop h with ⟨hs, rfl⟩ | ⟨-, c, -, rfl⟩ | ⟨hs, -, v, hv, rfl⟩
  · exact Bool.noConfusion (hu.symm.trans hs)
  · cases hu
  · obtain ⟨e, rfl⟩ := frameRule_control hop hv
    exact ⟨hs, e, rfl⟩

/-- What a data or continuation frame stores depends on the open message alone (43_reassembler.md R142). -/
theorem storedMessage_congr (hm : SameMessage s u) (hb : u.msgBuf = s.msgBuf) :
    SameMessage (storedMessage op f s) (storedMessage op f u) ∧
      (storedMessage op f u).msgBuf = (storedMessage op f s).msgBuf := by
  refine ⟨{ hm with msgLen := congrArg (· + f.payload.length) hm.msgLen }, ?_⟩
  rw [storedMessage, storedMessage, withMsg_msgBuf, withMsg_msgBuf, hb, hm.msgLen]

/-- A continuation frame does to the message, its buffer, the error registers and the events what the configuration, the open
message and MSG_BUF say, whatever else the state holds (44_parser.md R175, R177). -/
theorem exec_cont_congr (hc : SameConfig s u) (hm : SameMessage s u) (hb : u.msgBuf = s.msgBuf) (he : SameError s u)
    (hs : s.halted = false) (hw : f.wf = true) (h : exec (.cont f) u = .next t) :
    ∃ v more, exec (.cont f) s = .next v ∧ SameMessage v t ∧ t.msgBuf = v.msgBuf ∧ SameError v t ∧
      v.evt = s.evt ++ more ∧ t.evt = u.evt ++ more := by
  have hv := validate_loadHeader_congr (op := 0) (f := f) hc hm
  obtain ⟨hsame, hbuf⟩ := storedMessage_congr (op := 0) (f := f) hm hb
  rcases runFrame_message_cases hw rfl h with ⟨hh, -⟩ | ⟨-, c, hfail, rfl⟩ | ⟨-, hnone, w, hrule, rfl⟩
  case inl => exact Bool.noConfusion (hs.symm.trans (he.halted.symm.trans hh))
  case inr.inl =>
    have hcode : statusCode c (loadHeader 0 f u) = statusCode c (loadHeader 0 f s) := statusCode_congr hc.params
    exact ⟨_, _, runFrame_rejected hs (hv.symm.trans hfail), { hm with }, hb, ⟨rfl, hcode, rfl⟩, rfl,
      by rw [raiseError_evt, hcode, loadHeader_evt]⟩
  case inr.inr =>
    have hok := hv.symm.trans hnone
    have hrun : exec (.cont f) s = finishFrame contComplete (storedMessage 0 f s) :=
      runFrame_message rfl hs hok (frame_payload_lt hw) (validate_fits hw rfl hok)
    rcases contComplete_cases hrule with ⟨p, hfin, hread, rfl⟩ | ⟨hfin, rfl⟩
    · rw [hbuf, hsame.msgLen] at hread
      refine ⟨_, _, hrun.trans (finishFrame_next (contComplete_final hfin hread)), ⟨rfl, rfl, rfl, rfl, rfl, rfl⟩, hbuf,
        { he with }, rfl, ?_⟩
      rw [setPhase_evt, emit_evt, hsame.msgOpcode, hsame.msgRsv1, hsame.msgRsv2, hsame.msgRsv3]
      rfl
    · exact ⟨_, [], hrun.trans (finishFrame_next (contComplete_middle hfin)), { hsame with }, hbuf, { he with },
        (List.append_nil _).symm, (List.append_nil _).symm⟩

end

section

variable {s t : State} {op : BitVec 4} {f : Frame} {i : Instr} {r1 r2 r3 : Bool} {old : List Byte}

/-! ## Fragmented messages -/

/-- What the rest of a fragmented message starts from: a running decoder with the configuration of `s`, a message open as `op`
with these RSV bits, and `old` received of it (43_reassembler.md R141, R144). -/
structure Fragmenting (op : BitVec 4) (r1 r2 r3 : Bool) (old : List Byte) (s t : State) : Prop where
  config : SameConfig s t
  running : t.halted = false
  opened : MessageOpenAs op r1 r2 r3 t
  reads : t.msgBuf.readBytes 0 t.msgLen = some old

/-- A frame is accepted alike by every running decoder of the same configuration. -/
theorem accepted_congr (h : Accepted f s) (hc : SameConfig s t) (hr : t.halted = false) : Accepted f t :=
  ⟨h.wf, hr, h.mask.trans hc.requireMasking.symm, fun e => h.minimal (hc.strictLen.symm.trans e)⟩

/-- What still fits behind `old` fits into the message buffer as it is. -/
theorem Fragmenting.fits {n : Nat} (h : Fragmenting op r1 r2 r3 old s t) (hlen : s.msgLen = 0)
    (hfit : Fits s (old.length + n)) : Fits t n := by
  intro m hm
  have := hfit m (h.config.params ▸ hm)
  rw [← Mem.readBytes_length h.reads]
  omega

/-- A control frame adds its own record and leaves the message open as it is (44_parser.md R177). -/
theorem Fragmenting.control (h : Fragmenting op r1 r2 r3 old s t) (hop : isControl i.opcode = true)
    (hbytes : fragmentBytes i = []) (hacc : AcceptedControl i.frame s)
    (hclose : i.opcode = 8 → i.frame.payload.length ≠ 1) :
    ∃ u, exec i t = .next u ∧ u.evt = t.evt ++ controlEvents i ∧
      Fragmenting op r1 r2 r3 (old ++ fragmentBytes i) s u := by
  have hacc' : AcceptedControl i.frame t := { accepted_congr hacc.toAccepted h.config h.running, hacc with }
  obtain ⟨e, he, hx⟩ := exec_accepted_control hop hacc' hclose
  refine ⟨_, hx, by rw [he]; rfl, h.config.trans (exec_effect hx).config, h.running, h.opened, ?_⟩
  rw [hbytes, List.append_nil]
  exact h.reads

/-- Whatever may stand between the fragments adds its own record and its own bytes, and the message stays open
(44_parser.md R177, R195). -/
theorem Fragmenting.continues (h : Fragmenting op r1 r2 r3 old s t) (hlen : s.msgLen = 0) (hi : MayInterleave s i)
    (hfit : Fits s (old.length + (fragmentBytes i).length)) :
    ∃ u, exec i t = .next u ∧ u.evt = t.evt ++ controlEvents i ∧
      Fragmenting op r1 r2 r3 (old ++ fragmentBytes i) s u := by
  cases i with
  | cont f =>
    obtain ⟨hacc, hfin⟩ := hi
    have hfit' := h.fits hlen (by rwa [fragmentBytes, appPayload_length] at hfit)
    have hx := exec_cont_middle (accepted_congr hacc h.config h.running) h.opened.1 hfit' hfin
    exact ⟨_, hx, (List.append_nil _).symm, h.config.trans (exec_effect hx).config, h.running, h.opened,
      storedMessage_reads (op := 0) h.reads⟩
  | close f =>
    obtain ⟨hacc, hne⟩ := hi
    exact h.control rfl rfl hacc fun _ => hne
  | ping f => exact h.control rfl rfl hi nofun
  | pong f => exact h.control rfl rfl hi nofun
  | text | binary | op3 | op4 | op5 | op6 | op7 | op11 | op12 | op13 | op14 | op15 => exact hi.elim

/-- A whole run of such frames: each control frame's record in its place, the fragments one after another
(44_parser.md R195). -/
theorem Fragmenting.run {between : List Instr} (h : Fragmenting op r1 r2 r3 old s t) (hlen : s.msgLen = 0)
    (hb : ∀ i ∈ between, MayInterleave s i) (hfit : Fits s (old.length + (between.flatMap fragmentBytes).length)) :
    ∃ u, runFrames between t = .next u ∧ u.evt = t.evt ++ between.flatMap controlEvents ∧
      Fragmenting op r1 r2 r3 (old ++ between.flatMap fragmentBytes) s u := by
  induction between generalizing t old with
  | nil => exact ⟨t, rfl, (List.append_nil _).symm, by simpa using h⟩
  | cons i is ih =>
    simp only [List.flatMap_cons, List.length_append] at hfit ⊢
    have hone : Fits s (old.length + (fragmentBytes i).length) := fun m hm => by
      have := hfit m hm
      omega
    obtain ⟨v, hv, hevt, hstill⟩ := h.continues hlen (hb i List.mem_cons_self) hone
    obtain ⟨u, hu, hmore, hlast⟩ := ih hstill (fun j hj => hb j (List.mem_cons_of_mem _ hj)) fun m hm => by
      have := hfit m hm
      rw [List.length_append]
      omega
    refine ⟨u, by rw [runFrames, hv, andThen_next, hu], ?_, ?_⟩
    · rw [hmore, hevt, List.append_assoc]
    · rwa [List.append_assoc] at hlast

/-- The first fragment opens the message with its own bytes (44_parser.md R173, R174). -/
theorem exec_first_fragmenting (hop : isData i.opcode = true) (hacc : Accepted i.frame s) (hopen : s.msgOpen = false)
    (hlen : s.msgLen = 0) (hfit : Fits s i.frame.payload.length) (hfin : i.frame.fin = false) :
    ∃ t, exec i s = .next t ∧ t.evt = s.evt ∧
      Fragmenting i.opcode i.frame.rsv1 i.frame.rsv2 i.frame.rsv3 (appPayload i.frame) s t := by
  obtain ⟨t, hx, hevt, hopened, -, hreads, -, herr⟩ := (exec_data_effect hop hacc hopen hlen hfit).2 hfin
  exact ⟨t, hx, hevt, (exec_effect hx).config, herr.halted.trans hacc.running, hopened, hreads⟩

/-- The last fragment delivers the message (44_parser.md R175). -/
theorem Fragmenting.final (h : Fragmenting op r1 r2 r3 old s t) (hlen : s.msgLen = 0) (hacc : Accepted f s)
    (hfit : Fits s (old.length + f.payload.length)) (hfin : f.fin = true) :
    ∃ u, exec (.cont f) t = .next u ∧ u.evt = t.evt ++ [.message op r1 r2 r3 (old ++ appPayload f)] ∧
      MessageClosed u ∧ u.halted = false := by
  obtain ⟨hopen, hop, h1, h2, h3⟩ := h.opened
  refine ⟨_, exec_cont_final (accepted_congr hacc h.config h.running) hopen (h.fits hlen hfit) h.reads hfin, ?_,
    ⟨rfl, rfl, rfl, rfl, rfl, rfl⟩, h.running⟩
  rw [hop, h1, h2, h3]
  rfl

end

section

variable {s t : State} {tx : Bool} {d : Descriptor}

/-! ## The encoder's frame -/

/-- A descriptor without violation announces its payload, below 2^64 bytes, and has a key when one is sent
(45_encoder.md R205). -/
theorem violation_eq_none_iff :
    violation tx d = none ↔ d.payloadLength = d.payload.length ∧ d.payload.length < 2 ^ 64 ∧
      (tx = true → d.maskingKey.isSome = true) := by
  unfold violation
  split
  · rename_i hne
    exact ⟨nofun, fun h => absurd h.1 hne⟩
  · rename_i heq
    have heq := not_not.1 heq
    simp only [heq, true_and]
    split
    · rename_i hbig
      exact ⟨nofun, fun h => absurd h.1 (Nat.not_lt.2 hbig)⟩
    · rename_i hsmall
      simp only [Nat.not_le.1 hsmall, true_and]
      cases tx <;> cases d.maskingKey <;> simp

theorem frameResponse_eq_bytes_iff {w : List Byte} :
    frameResponse tx d = .bytes w ↔ violation tx d = none ∧ w = wireBytes tx d := by
  unfold frameResponse
  cases violation tx d <;> simp [eq_comm]

/-- The minimal length field of a length below 2^64 is a frame's length field, holds the length, and is the shortest
(45_encoder.md R201, R202). -/
theorem minimalField_spec {n : Nat} (h : n < 2 ^ 64) :
    (minimalField n).wf = true ∧ (minimalField n).count = n ∧ ShortestForm (minimalField n) := by
  unfold minimalField
  split
  · rename_i h7
    have hn : (BitVec.ofNat 7 n).toNat = n := Nat.mod_eq_of_lt (by omega)
    exact ⟨decide_eq_true (by omega), hn, trivial⟩
  · split
    · have hn : (BitVec.ofNat 16 n).toNat = n := Nat.mod_eq_of_lt (by omega)
      exact ⟨rfl, hn, by rw [ShortestForm, hn]; omega⟩
    · have hn : (BitVec.ofNat 64 n).toNat = n := Nat.mod_eq_of_lt h
      exact ⟨rfl, hn, by rw [ShortestForm, hn]; omega⟩

/-- The key that goes out: the descriptor's, when TX_MASKING is 1 (45_encoder.md R203). -/
def txKey (tx : Bool) (d : Descriptor) : Option Key := if tx then d.maskingKey else none

/-- The frame that the encoder makes of a descriptor (45_encoder.md R201). -/
def txFrame (tx : Bool) (d : Descriptor) : Frame where
  fin := d.fin
  rsv1 := d.rsv1
  rsv2 := d.rsv2
  rsv3 := d.rsv3
  len := minimalField d.payloadLength
  key := txKey tx d
  payload := match txKey tx d with
    | none => d.payload
    | some k => maskApply d.payload k

/-- The instruction that the encoder sends: the row of the descriptor's opcode (30_encoding.md R78). -/
def txInstr (tx : Bool) (d : Descriptor) : Instr := instrOf d.opcode (txFrame tx d)

@[simp] theorem txInstr_frame (tx : Bool) (d : Descriptor) : (txInstr tx d).frame = txFrame tx d := instrOf_frame _ _

@[simp] theorem txInstr_opcode (tx : Bool) (d : Descriptor) : (txInstr tx d).opcode = d.opcode := instrOf_opcode _ _

/-- The bytes of a descriptor without violation are the encoding of its frame (45_encoder.md R206). -/
theorem wireBytes_eq_encode (h : violation tx d = none) : wireBytes tx d = encode (txInstr tx d) := by
  obtain ⟨-, -, hkey⟩ := violation_eq_none_iff.1 h
  rw [← List.append_nil (encode _), encode_append, txInstr_frame, txInstr_opcode]
  cases tx with
  | false => simp [wireBytes, txPayload, txFrame, txKey, keyBytes]
  | true =>
    obtain ⟨k, hk⟩ := Option.isSome_iff_exists.1 (hkey rfl)
    simp [wireBytes, txPayload, txFrame, txKey, hk, keyBytes]

theorem txFrame_key_isSome (h : violation tx d = none) : (txFrame tx d).key.isSome = tx := by
  obtain ⟨-, -, hkey⟩ := violation_eq_none_iff.1 h
  cases tx with
  | false => rfl
  | true => exact hkey rfl

theorem txFrame_payload_length (tx : Bool) (d : Descriptor) : (txFrame tx d).payload.length = d.payload.length := by
  unfold txFrame
  cases txKey tx d with
  | none => rfl
  | some k => exact maskFrom_length k 0 _

/-- Unmasking what goes out gives the descriptor's payload (41_mask_engine.md R104). -/
theorem appPayload_txFrame (tx : Bool) (d : Descriptor) : appPayload (txFrame tx d) = d.payload := by
  unfold txFrame appPayload
  cases txKey tx d with
  | none => rfl
  | some k => exact maskFrom_maskFrom k 0 _

/-- A decoder whose REQUIRE_MASKING is the encoder's TX_MASKING accepts what the encoder sends (44_parser.md R193, R194). -/
theorem accepted_txFrame (h : violation tx d = none) (hs : s.halted = false) (hm : s.requireMasking = tx) :
    Accepted (txFrame tx d) s := by
  obtain ⟨hlen, hlt, -⟩ := violation_eq_none_iff.1 h
  obtain ⟨hwf, hcount, hshort⟩ := minimalField_spec (hlen ▸ hlt)
  refine ⟨?_, hs, (txFrame_key_isSome h).trans hm.symm, fun _ => hshort⟩
  have hpayload : (txFrame tx d).payload.length = (minimalField d.payloadLength).count := by
    rw [txFrame_payload_length, hcount, hlen]
  exact Bool.and_eq_true_iff.2 ⟨hwf, beq_iff_eq.2 hpayload⟩

/-- A control frame's record is the event of its descriptor (44_parser.md R193). -/
theorem controlEvents_txInstr (tx : Bool) (hop : isControl d.opcode = true) :
    controlEvents (txInstr tx d) = eventsOf d := by
  have classes : ∀ op : BitVec 4, isControl op = true → op = 8 ∨ op = 9 ∨ op = 10 := by decide
  rw [txInstr, eventsOf, ← appPayload_txFrame tx d]
  rcases classes _ hop with h | h | h <;> rw [h] <;> rfl

/-- A data frame's message is the event of its descriptor (44_parser.md R193). -/
theorem eventsOf_data (hop : isData d.opcode = true) :
    eventsOf d = [.message d.opcode d.rsv1 d.rsv2 d.rsv3 d.payload] := by
  have hne : ∀ op : BitVec 4, isData op = true → op ≠ 8 ∧ op ≠ 9 ∧ op ≠ 10 := by decide
  obtain ⟨h8, h9, h10⟩ := hne _ hop
  rw [eventsOf, if_neg h8, if_neg h9, if_neg h10]

end

section

variable {s t u : State} {op : BitVec 4} {b : Byte} {queue : List Event} {depth : Option Nat} {r r' : Result}
  {k : State → Result}

/-! ## The event port and the decoder -/

/-- The state with other records waiting in EVT and another EVT_DEPTH. -/
@[simps] def withPort (queue : List Event) (depth : Option Nat) (s : State) : State :=
  { s with evt := queue, params := { s.params with evtDepth := depth } }

/-- `r` and `r'` append the same records, the one to those of `s`, the other to `queue`, and leave the same registers. -/
def AgreeBehind (s : State) (queue : List Event) (depth : Option Nat) (r r' : Result) : Prop :=
  ∀ t, r = .next t → ∃ more : List Event, t.evt = s.evt ++ more ∧ r' = .next (withPort (queue ++ more) depth t)

/-- A rule that does the same whatever waits in EVT and whatever EVT_DEPTH is (20_memory.md R68; 44_parser.md R163). -/
def PortBlind (rule : State → Result) : Prop :=
  ∀ s queue depth, AgreeBehind s queue depth (rule s) (rule (withPort queue depth s))

theorem AgreeBehind.fault {e : Fault} : AgreeBehind s queue depth (.fault e) r' := by
  intro t ht
  cases ht

theorem AgreeBehind.quiet (h : u.evt = s.evt) : AgreeBehind s queue depth (.next u) (.next (withPort queue depth u)) := by
  intro t ht
  obtain rfl := Host.Outcome.next.inj ht
  exact ⟨[], by rw [h, List.append_nil], by rw [List.append_nil]⟩

theorem AgreeBehind.emitted (e : Event) (h : u.evt = s.evt) :
    AgreeBehind s queue depth (.next (emit e u)) (.next (emit e (withPort queue depth u))) := by
  intro t ht
  obtain rfl := Host.Outcome.next.inj ht
  exact ⟨[e], by rw [emit_evt, h], rfl⟩

theorem AgreeBehind.raised (c : Cause) :
    AgreeBehind s queue depth (.next (raiseError c s)) (.next (raiseError c (withPort queue depth s))) := by
  intro t ht
  obtain rfl := Host.Outcome.next.inj ht
  exact ⟨_, raiseError_evt s c, rfl⟩

/-- A rule after registers were written. -/
theorem PortBlind.after (hk : PortBlind k) (h : u.evt = s.evt) :
    AgreeBehind s queue depth (k u) (k (withPort queue depth u)) := by
  unfold AgreeBehind
  rw [← h]
  exact hk u queue depth

/-- A rule after another part of the step. -/
theorem AgreeBehind.andThen (h : AgreeBehind s queue depth r r') (hk : PortBlind k) :
    AgreeBehind s queue depth (andThen r k) (andThen r' k) := by
  intro t ht
  obtain ⟨u, hu, hkt⟩ := andThen_eq_next.1 ht
  obtain ⟨m1, h1, rfl⟩ := h u hu
  obtain ⟨m2, h2, h3⟩ := hk u (queue ++ m1) depth t hkt
  refine ⟨m1 ++ m2, by rw [h2, h1, List.append_assoc], ?_⟩
  rw [andThen_next, h3, List.append_assoc]

/-! The rules at frame complete. -/

theorem emitMessage_portBlind (o : BitVec 4) (r1 r2 r3 : Bool) : PortBlind (emitMessage o r1 r2 r3) := by
  intro s queue depth
  simp only [emitMessage, withPort_msgBuf, withPort_msgLen]
  cases s.msgBuf.readBytes 0 s.msgLen with
  | none => exact .fault
  | some p => exact AgreeBehind.emitted (u := msgClear s) _ rfl

theorem dataComplete_portBlind (op : BitVec 4) : PortBlind (dataComplete op) := by
  intro s queue depth
  simp only [dataComplete, withPort_hFin, withPort_hRsv1, withPort_hRsv2, withPort_hRsv3]
  split
  · exact emitMessage_portBlind _ _ _ _ s queue depth
  · exact AgreeBehind.quiet (u := msgOpenAs _ _ _ _ s) rfl

theorem contComplete_portBlind : PortBlind contComplete := by
  intro s queue depth
  simp only [contComplete, withPort_hFin, withPort_msgOpcode, withPort_msgRsv1, withPort_msgRsv2, withPort_msgRsv3]
  split
  · exact emitMessage_portBlind _ _ _ _ s queue depth
  · exact .quiet rfl

theorem closeComplete_portBlind : PortBlind closeComplete := by
  intro s queue depth
  simp only [closeComplete, withPort_plen, withPort_ctrlBuf]
  split
  · exact .emitted _ rfl
  · split
    · exact .fault
    · split
      · exact .emitted _ rfl
      · exact .fault

theorem pingComplete_portBlind : PortBlind pingComplete := by
  intro s queue depth
  simp only [pingComplete, withPort_plen, withPort_ctrlBuf]
  split
  · exact .emitted _ rfl
  · exact .fault

theorem pongComplete_portBlind : PortBlind pongComplete := by
  intro s queue depth
  simp only [pongComplete, withPort_plen, withPort_ctrlBuf]
  split
  · exact .emitted _ rfl
  · exact .fault

theorem frameRule_portBlind (op : BitVec 4) : PortBlind (frameRule op) := by
  unfold frameRule
  split
  · exact dataComplete_portBlind 1
  split
  · exact dataComplete_portBlind 2
  split
  · exact contComplete_portBlind
  split
  · exact closeComplete_portBlind
  split
  · exact pingComplete_portBlind
  split
  · exact pongComplete_portBlind
  · exact fun _ _ _ => .fault

/-! The byte steps. -/

theorem setPhase_portBlind (p : Phase) : PortBlind fun s => .next (setPhase p s) :=
  fun s _ _ => AgreeBehind.quiet (u := setPhase p s) rfl

theorem frameComplete_portBlind : PortBlind frameComplete :=
  fun s queue depth => (frameRule_portBlind s.hOpcode s queue depth).andThen (setPhase_portBlind .hdr0)

theorem validate_withPort (queue : List Event) (depth : Option Nat) (s : State) :
    validate (withPort queue depth s) = validate s := by
  have hcheck : ∀ c, checkFails c (withPort queue depth s) = checkFails c s := fun c => by cases c <;> rfl
  simp only [validate, hcheck]

theorem headerComplete_portBlind : PortBlind headerComplete := by
  intro s queue depth
  simp only [headerComplete, validate_withPort, withPort_plen]
  cases validate s with
  | some c => exact .raised c
  | none =>
    simp only
    split
    · exact frameComplete_portBlind.after (u := startPayload s) rfl
    · exact AgreeBehind.quiet (u := setPhase .payload (startPayload s)) rfl

theorem hdr1Step_portBlind (b : Byte) : PortBlind (hdr1Step b) := by
  intro s queue depth
  unfold hdr1Step
  split
  · exact AgreeBehind.quiet (u := setPhase .extLen (loadByte1 b s)) rfl
  · split
    · exact AgreeBehind.quiet (u := setPhase .maskKey (loadByte1 b s)) rfl
    · exact headerComplete_portBlind.after (u := loadByte1 b s) rfl

theorem lengthDone_portBlind : PortBlind lengthDone := by
  intro s queue depth
  simp only [lengthDone, withPort_hMask]
  split
  · exact AgreeBehind.quiet (u := setPhase .maskKey s) rfl
  · exact headerComplete_portBlind s queue depth

theorem extLenStep_portBlind (b : Byte) : PortBlind (extLenStep b) := by
  intro s queue depth
  have hcnt : (loadExtByte b (withPort queue depth s)).extCnt = (loadExtByte b s).extCnt := rfl
  simp only [extLenStep, hcnt, withPort_extNeed]
  split
  · exact lengthDone_portBlind.after (u := latchLength (loadExtByte b s)) rfl
  · exact AgreeBehind.quiet (u := loadExtByte b s) rfl

theorem maskKeyStep_portBlind (b : Byte) : PortBlind (maskKeyStep b) := by
  intro s queue depth
  simp only [maskKeyStep, withPort_key, withPort_keyCnt]
  cases s.key.put s.keyCnt.toNat b with
  | none => exact .fault
  | some key =>
    simp only
    split
    · exact headerComplete_portBlind.after (u := withKey key (s.keyCnt + 1) s) rfl
    · exact AgreeBehind.quiet (u := withKey key (s.keyCnt + 1) s) rfl

theorem ctrlStore_portBlind (v : Byte) : PortBlind (ctrlStore v) := by
  intro s queue depth
  simp only [ctrlStore, withPort_pcnt, withPort_ctrlBuf]
  split
  · exact AgreeBehind.quiet (u := { s with ctrlBuf := s.ctrlBuf.write s.pcnt.toNat v }) rfl
  · exact .fault

theorem msgAppend_portBlind (v : Byte) : PortBlind (msgAppend v) := by
  intro s queue depth
  simp only [msgAppend, withPort_params_maxMessageBytes, withPort_msgLen, withPort_msgBuf]
  split
  · exact AgreeBehind.quiet (u := { s with msgBuf := s.msgBuf.write s.msgLen v, msgLen := s.msgLen + 1 }) rfl
  · exact .fault

theorem payloadStore_portBlind (w : Byte) : PortBlind (payloadStore w) := by
  intro s queue depth
  have hunmask : unmaskByte w (withPort queue depth s) = unmaskByte w s := rfl
  simp only [payloadStore, hunmask, withPort_hOpcode]
  refine AgreeBehind.andThen ?_ fun u _ _ => AgreeBehind.quiet (u := countByte u) rfl
  split
  · exact ctrlStore_portBlind _ s queue depth
  · exact msgAppend_portBlind _ s queue depth

theorem payloadStep_portBlind (b : Byte) : PortBlind (payloadStep b) := by
  refine fun s queue depth => (payloadStore_portBlind b s queue depth).andThen fun u queue depth => ?_
  simp only [withPort_pcnt, withPort_plen]
  split
  · exact frameComplete_portBlind u queue depth
  · exact .quiet rfl

theorem pushByte_portBlind (b : Byte) : PortBlind (pushByte b) := by
  intro s queue depth
  simp only [pushByte, withPort_halted, withPort_phase]
  split
  · exact .quiet rfl
  · cases s.phase with
    | hdr0 => exact .quiet rfl
    | hdr1 => exact hdr1Step_portBlind b s queue depth
    | extLen => exact extLenStep_portBlind b s queue depth
    | maskKey => exact maskKeyStep_portBlind b s queue depth
    | payload => exact payloadStep_portBlind b s queue depth

end

end Sys2Proof.Machine

namespace Sys2Proof.Proofs

open Sys2Proof.Machine Sys2Proof.Claim

/-- Settles O12: `exec_eq_pushAll`. -/
theorem frameMeaningIsByteSerial : Obligations.FrameMeaningIsByteSerial := fun _ _ => exec_eq_pushAll

/-- Settles O22, by the forms of a step: the host's turn and waiting always answer, and the bytes the decoder takes, one or a
whole frame's, cannot stop it in a state of the invariant. -/
theorem everyStepGoesOn : Obligations.EveryStepGoesOn := by
  intro s hinv
  have hdec (rest : List Byte) : (afterInput rest s).DecoderInv := hinv.toDecoderInv.congr (afterInput_registers rest s)
  cases step_form s with
  | host op rest _ h => exact ⟨_, h⟩
  | wait h => exact ⟨_, h⟩
  | byte b rest _ _ h =>
    obtain ⟨t, ht, -⟩ := (hdec rest).byte b
    exact ⟨t, h.trans ht⟩
  | frame i rest hd hz _ h =>
    obtain ⟨t, ht⟩ := (hdec rest).pushAll_goes_on (encode i)
    exact ⟨t, h.trans ((exec_eq_pushAll (s := afterInput rest s) (decode_wf hd) hz).trans ht)⟩

/-- Settles O48: the first fragment opens the message (`exec_first_fragmenting`), an induction over the frames between keeps it
open (`Fragmenting.run`), and the last fragment delivers it (`Fragmenting.final`). -/
theorem fragmentedMessageIsDeliveredOnce : Obligations.FragmentedMessageIsDeliveredOnce := by
  intro first last between s hfirst hffin hbetween hlast hlfin hopen hlen hfit op i hrow
  obtain ⟨hop, hopcode, hframe⟩ : isData i.opcode = true ∧ i.opcode = op ∧ i.frame = first := by
    rcases hrow with ⟨rfl, rfl⟩ | ⟨rfl, rfl⟩ <;> exact ⟨rfl, rfl, rfl⟩
  subst hopcode hframe
  have upTo {n : Nat} (hn : n ≤ i.frame.payload.length + (between.flatMap fragmentBytes).length + last.payload.length) :
      Fits s n := fun m hm => by
    have := hfit m hm
    omega
  obtain ⟨t, ht, htevt, hfrag⟩ := exec_first_fragmenting hop hfirst hopen hlen (upTo (by omega)) hffin
  obtain ⟨u, hu, huevt, hmore⟩ := hfrag.run hlen hbetween (upTo (by rw [appPayload_length]; omega))
  obtain ⟨v, hv, hvevt, hclosed, hrun⟩ :=
    hmore.final hlen hlast (upTo (by rw [List.length_append, appPayload_length])) hlfin
  refine ⟨v, ?_, by rw [hvevt, huevt, htevt], hclosed, hrun⟩
  rw [List.cons_append, runFrames, ht, andThen_next, runFrames_append, hu, andThen_next, runFrames, hv]
  rfl

/-- Settles O56: the bytes are the encoding of a frame that the decoder accepts (`wireBytes_eq_encode`, `accepted_txFrame`), pushing
them is the frame's meaning, and its payload unmasks to the descriptor's (`appPayload_txFrame`). -/
theorem encodedFrameComesBackAsItsEvent : Obligations.EncodedFrameComesBackAsItsEvent := by
  intro tx d w s hw hfin hop hshort hclose hfit hs hp hm hopen hlen
  obtain ⟨hok, rfl⟩ := frameResponse_eq_bytes_iff.1 hw
  have hacc : Accepted (txInstr tx d).frame s := by
    rw [txInstr_frame]
    exact accepted_txFrame hok hs hm
  have hop' : (txInstr tx d).opcode = d.opcode := txInstr_opcode tx d
  have hlength : (txInstr tx d).frame.payload.length = d.payload.length := by
    rw [txInstr_frame, txFrame_payload_length]
  have hfin' : (txInstr tx d).frame.fin = true := by rw [txInstr_frame]; exact hfin
  have hclass : isData d.opcode = true ∨ isControl d.opcode = true := by
    rcases hop with h | h | h | h | h <;> rw [h] <;> decide
  rw [wireBytes_eq_encode hok, ← exec_eq_pushAll hacc.wf hp]
  rcases hclass with hd | hc
  · obtain ⟨heffect, -⟩ := exec_data_effect (hop' ▸ hd) hacc hopen hlen (hlength ▸ hfit hd)
    obtain ⟨t, ht, hevt, -, -, herr⟩ := heffect hfin'
    refine ⟨t, ht, ?_, herr.halted.trans hs⟩
    rw [hevt, hop', txInstr_frame, appPayload_txFrame, eventsOf_data hd]
    rfl
  · obtain ⟨t, ht, hevt, -, -, -, herr⟩ := exec_control_effect (hop' ▸ hc) ⟨hacc, hfin', hlength ▸ hshort hc⟩
      (by rw [hop', hlength]; exact hclose)
    exact ⟨t, ht, by rw [hevt, controlEvents_txInstr tx hc], herr.halted.trans hs⟩

/-- Settles O11: `pushAll_append`. -/
theorem parseOfConcatenation : Obligations.ParseOfConcatenation := pushAll_append

/-- Settles O13: `pushByte_portBlind`. -/
theorem pushIgnoresEventPort : Obligations.PushIgnoresEventPort :=
  fun b s t queue depth h => pushByte_portBlind b s queue depth t h

/-- Settles O38: `exec_data_effect` and `exec_data_causes` for opcode 1. -/
theorem textFrameEffect : Obligations.TextFrameEffect :=
  ⟨fun f _ => exec_data_effect (i := .text f) rfl, fun f _ _ => exec_data_causes (i := .text f) rfl⟩

/-- Settles O39: `exec_data_effect` and `exec_data_causes` for opcode 2. -/
theorem binaryFrameEffect : Obligations.BinaryFrameEffect :=
  ⟨fun f _ => exec_data_effect (i := .binary f) rfl, fun f _ _ => exec_data_causes (i := .binary f) rfl⟩

/-- Settles O40: the two states that an accepted continuation leaves, and the causes of a frame that is no data frame. -/
theorem continuationFrameEffect : Obligations.ContinuationFrameEffect := by
  refine ⟨fun f s old hacc hopen hfit hold => ⟨fun hfin => ?_, fun hfin => ?_⟩, fun f s t hs h ht => ?_⟩
  · exact ⟨_, exec_cont_final hacc hopen hfit hold hfin, rfl, ⟨rfl, rfl, rfl, rfl, rfl, rfl⟩, rfl, rfl, rfl, rfl⟩
  · exact ⟨_, exec_cont_middle hacc hopen hfit hfin, rfl, ⟨hopen, rfl, rfl, rfl, rfl⟩, rfl,
      storedMessage_reads (op := 0) hold, rfl, rfl, rfl, rfl⟩
  · rcases exec_message_causes (i := .cont f) rfl rfl hs h ht with he | ⟨-, he⟩ | ⟨hd, -⟩ | he | he
    · exact .inl he
    · exact .inr (.inl he)
    · cases hd
    · exact .inr (.inr (.inl he))
    · exact .inr (.inr (.inr he))

/-- Settles O41: `exec_control_effect` and `exec_control_causes` for opcode 8. -/
theorem closeFrameEffect : Obligations.CloseFrameEffect := by
  refine ⟨fun f s hacc hne => exec_control_effect (i := .close f) rfl hacc fun _ => hne, fun f s t hs h ht => ?_⟩
  have hcauses := exec_control_causes (i := .close f) rfl hs h ht
  exact hcauses.imp_right (Or.imp_right (Or.imp_right (Or.imp_right And.right)))

/-- Settles O42: `exec_control_effect` and `exec_control_causes_of_ne` for opcode 9. -/
theorem pingFrameEffect : Obligations.PingFrameEffect :=
  ⟨fun f _ hacc => exec_control_effect (i := .ping f) rfl hacc nofun,
    fun f _ _ => exec_control_causes_of_ne (i := .ping f) rfl (show 9#4 ≠ 8 by decide)⟩

/-- Settles O43: `exec_control_effect` and `exec_control_causes_of_ne` for opcode 10. -/
theorem pongFrameEffect : Obligations.PongFrameEffect :=
  ⟨fun f _ hacc => exec_control_effect (i := .pong f) rfl hacc nofun,
    fun f _ _ => exec_control_causes_of_ne (i := .pong f) rfl (show 10#4 ≠ 8 by decide)⟩

/-- Settles O47: the control frame leaves the configuration, the open message, MSG_BUF and the error registers as they are, and
they decide what the continuation does (`exec_cont_congr`). -/
theorem controlFrameLeavesTheMessageAlone : Obligations.ControlFrameLeavesTheMessageAlone := by
  intro c f s u t hwc hwf i hi hctl hu hcont
  obtain ⟨rfl, hop⟩ := of_mem_controlFrames hi
  obtain ⟨hs, e, rfl⟩ := exec_control_eq_stored hop hwc hctl hu
  exact exec_cont_congr ⟨rfl, rfl, rfl, rfl⟩ ⟨rfl, rfl, rfl, rfl, rfl, rfl⟩ rfl ⟨rfl, rfl, rfl⟩ hs hwf hcont

/-- Settles O14: the step is the decoder's turn, and the fetch reads the frame that was encoded (`fetch_encode`). -/
theorem stepRunsTheWaitingFrame : Obligations.StepRunsTheWaitingFrame := by
  intro s i rest hw hi hp ht hport
  have hne : s.inp ≠ [] := by rw [hi, encode_append]; exact List.cons_ne_nil _ _
  rw [step_decoderTurn (by rw [ht]; nofun) hne hport, ht, decoderTurn, frameTurn,
    fetch_encode (s := nextTurn s) hw hi hp]
  rfl

/-- Settles O15: the step is the decoder's turn, for one byte. -/
theorem stepPushesOneByte : Obligations.StepPushesOneByte := by
  intro s b rest hi ht hport
  have hinp : (nextTurn s).inp = b :: rest := hi
  rw [step_decoderTurn (by rw [ht]; nofun) (by rw [hi]; exact List.cons_ne_nil _ _) hport, ht, decoderTurn, byteTurn, hinp]
  rfl

/-- Settles O25: `pushByte_of_halted` and `exec_of_halted`. -/
theorem haltedInputIsDiscarded : Obligations.HaltedInputIsDiscarded :=
  fun _ h => ⟨fun _ => pushByte_of_halted h, fun _ => exec_of_halted h⟩

/-- Settles O58: with a record in EVT the host is served (`step_hostTurn`), and with neither a record nor input nothing moves
but the schedule (`step_waits`). -/
theorem drainTakesTheHeadRecord : Obligations.DrainTakesTheHeadRecord := by
  intro s rest ht hs
  refine ⟨fun e es he => ?_, fun he hi => ?_⟩
  · have hstep := step_hostTurn ht hs fun _ => by rw [he]; exact List.cons_ne_nil e es
    have hdrain : serve .drain (afterHost rest s) = answer (.drained e) { afterHost rest s with evt := es } :=
      drain_cons he
    exact ⟨_, hstep, by rw [hdrain]; rfl, by rw [hdrain]; rfl, by rw [hdrain]; rfl, by rw [hdrain]; rfl,
      (afterHost_registers rest s).trans (serve_registers (op := .drain) nofun _)⟩
  · have hhost : hostReady (nextTurn s) = false := by
      rw [hostReady, nextTurn_host, hs]
      simp [canServe, he]
    have hinput : inputReady (nextTurn s) = false := by simp [inputReady, hi]
    exact ⟨_, step_waits hhost hinput, he, rfl, rfl, nextTurn_registers s⟩

end Sys2Proof.Proofs

/-! SUPPORT. The statements of the encoder family (45_encoder.md): the wire bytes as numbers, the order of the contract
violations, and the encoder's output read back by the decoder. -/

namespace Sys2Proof

/-! ## Written fields as numbers -/

/-- Byte 0 as the sum of its fields (30_encoding.md R71). -/
theorem byte0_eq_ofNat : ∀ (fin r1 r2 r3 : Bool) (op : BitVec 4), byte0 fin r1 r2 r3 op =
    BitVec.ofNat 8 (128 * fin.toNat + 64 * r1.toNat + 32 * r2.toNat + 16 * r3.toNat + op.toNat) := by decide

/-- Byte 1 as the sum of its fields (30_encoding.md R72). -/
theorem byte1_eq_ofNat : ∀ (m : Bool) (l : BitVec 7),
    byte1 m l = BitVec.ofNat 8 (128 * m.toNat + l.toNat) := by decide

/-- The byte from bit `k` on of a field that holds `n` (00_scope.md R8). -/
theorem byteAt_ofNat {w k : Nat} (n : Nat) (hk : k + 8 ≤ w) :
    (BitVec.ofNat w n).extractLsb' k 8 = BitVec.ofNat 8 (n / 2 ^ k) := by
  apply BitVec.eq_of_getLsbD_eq
  intro j hj
  have hjw : k + j < w := by omega
  simp only [BitVec.getLsbD_extractLsb', BitVec.getLsbD_ofNat, Nat.testBit_div_two_pow, Nat.add_comm j k, hj, hjw,
    decide_true, Bool.true_and]

theorem bytes2_ofNat (n : Nat) :
    bytes2 (BitVec.ofNat 16 n) = [BitVec.ofNat 8 (n / 256), BitVec.ofNat 8 n] := by
  simp [bytes2, byteAt_ofNat]

theorem bytes8_ofNat (n : Nat) :
    bytes8 (BitVec.ofNat 64 n) =
      [BitVec.ofNat 8 (n / 2 ^ 56), BitVec.ofNat 8 (n / 2 ^ 48), BitVec.ofNat 8 (n / 2 ^ 40), BitVec.ofNat 8 (n / 2 ^ 32),
        BitVec.ofNat 8 (n / 2 ^ 24), BitVec.ofNat 8 (n / 2 ^ 16), BitVec.ofNat 8 (n / 2 ^ 8), BitVec.ofNat 8 n] := by
  simp [bytes8, byteAt_ofNat]

end Sys2Proof

namespace Sys2Proof.Machine

open Sys2Proof.Claim

section

variable {tx : Bool} {d : Descriptor}

/-! ## The minimal length field -/

/-- Byte 1 and the extended length bytes of the minimal length field, as numbers (45_encoder.md R201). -/
theorem byte1_minimalField_bytes (m : Bool) (n : Nat) :
    byte1 m (minimalField n).len7 :: (minimalField n).bytes =
      if n < 126 then [BitVec.ofNat 8 (128 * m.toNat + n)]
      else if n ≤ 65535 then [BitVec.ofNat 8 (128 * m.toNat + 126), BitVec.ofNat 8 (n / 256), BitVec.ofNat 8 n]
      else [BitVec.ofNat 8 (128 * m.toNat + 127), BitVec.ofNat 8 (n / 2 ^ 56), BitVec.ofNat 8 (n / 2 ^ 48),
        BitVec.ofNat 8 (n / 2 ^ 40), BitVec.ofNat 8 (n / 2 ^ 32), BitVec.ofNat 8 (n / 2 ^ 24),
        BitVec.ofNat 8 (n / 2 ^ 16), BitVec.ofNat 8 (n / 2 ^ 8), BitVec.ofNat 8 n] := by
  unfold minimalField
  split
  · next h =>
    have hn : (BitVec.ofNat 7 n).toNat = n := Nat.mod_eq_of_lt (by omega)
    rw [byte1_eq_ofNat, LenField.len7, hn, LenField.bytes]
  · split
    · rw [byte1_eq_ofNat, LenField.bytes, bytes2_ofNat]; rfl
    · rw [byte1_eq_ofNat, LenField.bytes, bytes8_ofNat]; rfl

/-- The number of extended length bytes of the minimal length field (45_encoder.md R204). -/
theorem minimalField_bytes_length (n : Nat) :
    (minimalField n).bytes.length = if n < 126 then 0 else if n ≤ 65535 then 2 else 8 := by
  unfold minimalField
  split
  · rfl
  · split <;> rfl

/-! ## The answer of FRAME -/

theorem txPayload_eq_keyAndPayload (tx : Bool) (d : Descriptor) :
    txPayload tx d = keyAndPayload tx d.maskingKey d.payload := by
  unfold txPayload
  cases tx with
  | false => rfl
  | true => cases d.maskingKey <;> rfl

theorem frameResponse_eq_violation_iff {v : Violation} :
    frameResponse tx d = .violation v ↔ violation tx d = some v := by
  unfold frameResponse
  cases violation tx d <;> simp

end

end Sys2Proof.Machine

namespace Sys2Proof.Proofs

open Sys2Proof.Machine Sys2Proof.Claim

/-- Settles O52: byte 0 by its fields (`byte0_eq_ofNat`), then the minimal length field (`byte1_minimalField_bytes`), then key
and payload. -/
theorem frameRequestGivesTheWireBytes : Obligations.FrameRequestGivesTheWireBytes := by
  intro tx d hlen hlt hkey
  refine frameResponse_eq_bytes_iff.2 ⟨violation_eq_none_iff.2 ⟨hlen, hlen ▸ hlt, hkey⟩, ?_⟩
  rw [wireBytes, ← List.cons_append, byte1_minimalField_bytes, byte0_eq_ofNat, txPayload_eq_keyAndPayload]
  rfl

/-- Settles O54: the bytes are an encoding, whose header has the length of `header_length` and whose payload is as long as the
descriptor's. -/
theorem frameRequestOutputLength : Obligations.FrameRequestOutputLength := by
  intro tx d w hw
  obtain ⟨hok, rfl⟩ := frameResponse_eq_bytes_iff.1 hw
  obtain ⟨hlen, -, -⟩ := violation_eq_none_iff.1 hok
  rw [wireBytes_eq_encode hok, encode, List.length_append, header_length, txInstr_frame, txFrame_key_isSome hok,
    txFrame_payload_length, ← hlen, ← minimalField_bytes_length]
  rfl

/-- Settles O55: the bytes are the encoding of a frame (`wireBytes_eq_encode`) that a decoder just reset, under STRICT_LEN and with
the encoder's masking, would accept (`accepted_txFrame`); so it is well-formed and minimal, and the decoder reads it back. -/
theorem frameRequestOutputDecodes : Obligations.FrameRequestOutputDecodes := by
  intro tx d w rest hw
  obtain ⟨hok, rfl⟩ := frameResponse_eq_bytes_iff.1 hw
  have hacc : Accepted (txFrame tx d) { State.reset with requireMasking := tx } := accepted_txFrame hok rfl rfl
  have hwf : (txInstr tx d).wf = true := by rw [Instr.wf, txInstr_frame, hacc.wf]
  refine ⟨txFrame tx d, ?_, rfl, rfl, rfl, rfl, rfl, hacc.minimal rfl, appPayload_txFrame tx d⟩
  rw [wireBytes_eq_encode hok, decode_encode_append hwf, txInstr]

/-- Settles O53, by the order in which `violation` asks: the lengths' agreement, the range, the key. -/
theorem contractViolationsInOrder : Obligations.ContractViolationsInOrder := by
  intro tx d
  simp only [frameResponse_eq_violation_iff, violation]
  generalize 2 ^ 64 = bound
  by_cases hlen : d.payloadLength = d.payload.length
  · by_cases hrange : bound ≤ d.payloadLength
    · simp [← hlen, hrange, Nat.not_lt.2 hrange]
    · simp [← hlen, hrange, Nat.not_le.1 hrange]
  · simp [hlen]

end Sys2Proof.Proofs

/-! SUPPORT. The statements of the exceptions family (60_exceptions.md): the error entry, the order of the checks, and the step of
a halted block. -/

namespace Sys2Proof.Machine

open Sys2Proof.Claim

section

variable {s : State} {c : Cause}

/-! ## The error entry -/

/-- Cause 9 alone has the code TOO_BIG_CODE (60_exceptions.md R220). -/
theorem code_eq_nine_iff : c.code = 9 ↔ c = .messageTooBig := by
  cases c <;> decide

theorem statusCode_eq_ite_code (c : Cause) (s : State) :
    statusCode c s = if c.code = 9 then s.params.tooBigCode else 1002 :=
  if_congr code_eq_nine_iff.symm rfl rfl

/-- What the error entry writes and what it keeps (60_exceptions.md R230). -/
theorem raiseError_stopsWithError (c : Cause) (s : State) :
    StopsWithError c.code (statusCode c s) (reasonText c) s (.next (raiseError c s)) :=
  ⟨_, rfl, rfl, rfl, rfl, rfl, rfl, ⟨rfl, rfl, rfl, rfl⟩, ⟨rfl, rfl, rfl, rfl, rfl, rfl⟩, rfl, rfl, rfl,
    ⟨rfl, rfl, rfl, rfl, rfl⟩⟩

/-! ## The order of the checks -/

/-- In a list whose keys rise, a search finds the element that satisfies the test while none of a smaller key does. -/
theorem find?_eq_some_iff_of_rising {α : Type} {p : α → Bool} {key : α → Nat} {l : List α} {a : α}
    (hl : l.Pairwise fun x y => key x < key y) :
    l.find? p = some a ↔ a ∈ l ∧ p a = true ∧ ∀ b ∈ l, key b < key a → p b = false := by
  rw [List.find?_eq_some_iff_append]
  constructor
  · rintro ⟨hpa, before, after, rfl, hbefore⟩
    obtain ⟨-, hafter, -⟩ := List.pairwise_append.1 hl
    refine ⟨by simp, hpa, fun b hb hlt => ?_⟩
    rcases List.mem_append.1 hb with hb | hb
    · simpa using hbefore b hb
    · rcases List.mem_cons.1 hb with rfl | hb
      · exact absurd hlt (Nat.lt_irrefl _)
      · exact absurd hlt (Nat.lt_asymm ((List.pairwise_cons.1 hafter).1 b hb))
  · rintro ⟨ha, hpa, hsmaller⟩
    obtain ⟨before, after, rfl⟩ := List.append_of_mem ha
    obtain ⟨-, -, hrise⟩ := List.pairwise_append.1 hl
    refine ⟨hpa, before, after, rfl, fun b hb => ?_⟩
    simpa using hsmaller b (List.mem_append_left _ hb) (hrise b hb a List.mem_cons_self)

/-- The checks stand in the order of the cause numbers (42_header_decoder.md R119). -/
theorem checkOrder_rising : checkOrder.Pairwise fun c d => c.code.toNat < d.code.toNat := by decide

/-- Every cause has its check (60_exceptions.md R220). -/
theorem mem_checkOrder (c : Cause) : c ∈ checkOrder := by
  cases c <;> decide

/-- VALIDATE answers the failing check of the smallest cause number (60_exceptions.md R225). -/
theorem validate_eq_some_iff :
    validate s = some c ↔
      checkFails c s = true ∧ ∀ d : Cause, d.code.toNat < c.code.toNat → checkFails d s = false := by
  rw [validate, find?_eq_some_iff_of_rising checkOrder_rising]
  simp only [mem_checkOrder, true_and, forall_const]

/-- VALIDATE answers none when every check passes (42_header_decoder.md R129). -/
theorem validate_eq_none_iff : validate s = none ↔ ∀ c, checkFails c s = false := by
  simp only [validate, List.find?_eq_none, mem_checkOrder, forall_const, Bool.not_eq_true]

/-- A header that a check stops takes that check's error entry (42_header_decoder.md R116). -/
theorem headerComplete_rejected (h : validate s = some c) : headerComplete s = .next (raiseError c s) := by
  rw [headerComplete, h]

end

end Sys2Proof.Machine

namespace Sys2Proof.Proofs

open Sys2Proof.Machine Sys2Proof.Claim

/-- Settles O26, by the forms of a step: the host's transactions other than RESET touch no register and at most drain EVT, and a
byte or a frame that a halted block takes is discarded. -/
theorem haltedUntilReset : Obligations.HaltedUntilReset := by
  refine ⟨fun _ _ => pushByte_of_halted, fun s hs hne => ?_, fun _ => rfl⟩
  cases step_form s with
  | host op rest hhost hstep =>
    have hr : op ≠ .reset := fun e => hne (by rw [hhost, e]; rfl)
    exact ⟨_, hstep, (afterHost_registers rest s).trans (serve_registers hr _), serve_evt_cases hr (afterHost rest s)⟩
  | wait hstep => exact ⟨_, hstep, nextTurn_registers s, .inl (nextTurn_evt s)⟩
  | byte b rest _ _ hstep =>
    have hdiscard : pushByte b (afterInput rest s) = .next (afterInput rest s) := pushByte_of_halted hs
    exact ⟨_, hstep.trans hdiscard, afterInput_registers rest s, .inl (afterInput_evt rest s)⟩
  | frame i rest _ _ _ hstep =>
    have hdiscard : exec i (afterInput rest s) = .next (afterInput rest s) := exec_of_halted hs
    exact ⟨_, hstep.trans hdiscard, afterInput_registers rest s, .inl (afterInput_evt rest s)⟩

/-- Settles O27: the checks stand in the order of the cause numbers and every cause is among them, so the search of VALIDATE
answers the smallest failing one (`validate_eq_some_iff`), and header complete raises it. -/
theorem firstFailingCheckIsReported : Obligations.FirstFailingCheckIsReported :=
  fun _ => ⟨fun _ => validate_eq_some_iff, validate_eq_none_iff, fun _ => headerComplete_rejected⟩

/-- Settles O24: the error entry by its definition (`raiseError_stopsWithError`, `raiseError_header`), its code read off the cause
number. -/
theorem errorEntryRecordsAndHalts : Obligations.ErrorEntryRecordsAndHalts := by
  intro c s
  rw [← statusCode_eq_ite_code]
  exact ⟨raiseError_stopsWithError c s, raiseError_header c s⟩

end Sys2Proof.Proofs

/-! SUPPORT. The statements of the reset and hazards family (70_reset_and_hazards.md): what a full event port leaves waiting, and
the values after RESET. -/

namespace Sys2Proof.Machine

open Sys2Proof.Claim

section

variable {s : State}

/-! ## A full event port -/

/-- While EVT is full and the block runs, the input port is shut (20_memory.md R68). -/
theorem portOpen_ne_true_of_full {d : Nat} (hd : s.params.evtDepth = some d) (hfull : d ≤ s.evt.length)
    (hs : s.halted = false) : portOpen s ≠ true := by
  intro hp
  rcases portOpen_iff.1 hp with hh | hroom
  · simp [hs] at hh
  · exact absurd (hroom d hd) (Nat.not_lt.2 hfull)

theorem drain_inp (s : State) : (drain s).inp = s.inp := by
  unfold drain
  split <;> rfl

/-- No host transaction takes bytes from the input port; PUSH and PARSE present theirs behind the waiting ones (log entry 2). -/
theorem inp_prefix_serve (op : HostOp) (s : State) : s.inp <+: (serve op s).inp := by
  cases op with
  | push b => exact List.prefix_append s.inp [b]
  | parse chunk => exact List.prefix_append s.inp chunk
  | drain => exact (drain_inp s).symm ▸ List.prefix_rfl
  | readStatus n =>
    obtain ⟨r, hr⟩ := readStatus_answers n s
    exact (congrArg State.inp hr).symm ▸ List.prefix_rfl
  | frame _ | reset | driveInputs _ => exact List.prefix_rfl

/-! ## RESET -/

theorem applyReset_messageClosed (s : State) : MessageClosed (applyReset s) := ⟨rfl, rfl, rfl, rfl, rfl, rfl⟩

end

end Sys2Proof.Machine

namespace Sys2Proof.Proofs

open Sys2Proof.Machine Sys2Proof.Claim

/-- Settles O16, by the forms of a step: the shut port (`portOpen_ne_true_of_full`) rules out the decoder's two, and serving the
host or waiting keeps the input and the registers and at most drains EVT. -/
theorem fullEventPortHoldsTheInput : Obligations.FullEventPortHoldsTheInput := by
  intro s d hd hfull hs hne
  have hshut : portOpen s ≠ true := portOpen_ne_true_of_full hd hfull hs
  cases step_form s with
  | host op rest hhost hstep =>
    have hr : op ≠ .reset := fun e => hne (by rw [hhost, e]; rfl)
    exact ⟨_, hstep, inp_prefix_serve op (afterHost rest s),
      (afterHost_registers rest s).trans (serve_registers hr _), serve_evt_cases hr (afterHost rest s)⟩
  | wait hstep => exact ⟨_, hstep, List.prefix_rfl, nextTurn_registers s, .inl (nextTurn_evt s)⟩
  | byte _ _ _ hp _ => exact absurd hp hshut
  | frame _ _ _ _ hp _ => exact absurd hp hshut

/-- Settles O60: on its turn the host is served (`step_hostTurn`), and each value is read off the definition of RESET. -/
theorem resetGivesTheTabledValues : Obligations.ResetGivesTheTabledValues := by
  intro s rest ht hs
  exact ⟨applyReset (afterHost rest s), step_hostTurn ht hs nofun, rfl, rfl, rfl, rfl, rfl, rfl, rfl, rfl, rfl, rfl, rfl,
    rfl, rfl, rfl, rfl, rfl, rfl, rfl, rfl, applyReset_messageClosed _, rfl, rfl, rfl, rfl⟩

end Sys2Proof.Proofs
